-- ==== Sys2Proof/Word.lean ====
section
/-! DEFINITION. The byte, the 64-bit word of the two ports, and the row of seven byte slots that a command carries in
and a response carries out (spec/00_scope.md R9, R11, R13; spec/30_encoding.md R70, R72). -/

namespace Sys2Proof

/-- A byte: 8 bits, unsigned, bit 7 the most significant (R9, R11). -/
abbrev Byte := BitVec 8

/-- A command word `CW` or a response word `RW`: 64 bits (R70, R72). -/
abbrev Word := BitVec 64

/-- Seven byte slots: the operand slots `P[0..6]` of a command, the result slots `R[0..6]` of a response (R13), or the
seven bytes of the time block in ascending register order (R75). -/
structure Slots where
  b0 : Byte
  b1 : Byte
  b2 : Byte
  b3 : Byte
  b4 : Byte
  b5 : Byte
  b6 : Byte
  deriving DecidableEq, Repr, Inhabited

/-- All seven slots hold 0x00 (R13: a slot no rule writes holds 0x00). -/
def Slots.zero : Slots := ⟨0, 0, 0, 0, 0, 0, 0⟩

end Sys2Proof
end

