-- ==== Sys2Proof/Config.lean ====
section
/-! DEFINITION. What is fixed for the machine, and the free values: the architectural constants every later file needs
(spec/00_scope.md R8, R9), the type of one draw of the environment (spec/00_scope.md R17, spec/20_memory.md R46, R47,
R52, R63), and the opaque constants that stand for what the spec leaves open. Nothing in Lean can say what an opaque
constant's value is, so a claim about the model holds for every value of it. -/

namespace Sys2Proof

/-- The peripheral's one bus address, 0x68 (spec/10_state.md R42). -/
abbrev devAddr : Byte := 0x68

/-- `REG_TOP`, the highest register offset the spec gives (R9). -/
abbrev regTop : Nat := 0x0F

/-- The parameter `ENV` (spec/20_memory.md R52): plain byte storage, or a peripheral that also changes some registers by
itself between transfers. -/
inductive Env where
  | storage
  | live
  deriving DecidableEq, Repr, Inhabited

/-- One environment step of the peripheral under `ENV = live` (R52): any of the four changes it may make. -/
structure EnvStep where
  /-- Drawn bytes for `REG[0x00]` to `REG[0x06]`, if time has moved. -/
  time : Option Slots
  /-- Whether the peripheral sets `A1F` to 1. -/
  setA1F : Bool
  /-- Whether the peripheral sets `A2F` to 1. -/
  setA2F : Bool
  /-- Drawn bits for control bits 7 to 5 (taken from those bit positions), if they are redrawn. -/
  control : Option Byte
  /-- Drawn bits for status bits 7 to 4 and 2 (taken from those bit positions), if they are redrawn. -/
  status : Option Byte
  deriving DecidableEq, Repr, Inhabited

/-- One transaction of another bus master on the peripheral (spec/20_memory.md R63). `past` is the value the pointer
takes if the transaction moves it past 0x0F (R55: any value). -/
inductive MasterTxn where
  /-- A write transfer: the first byte sets the pointer, the others are stored (R50). -/
  | write (bytes : List Byte) (past : Byte)
  /-- A read transfer of `n` bytes: only the pointer moves (R51). -/
  | read (n : Nat) (past : Byte)
  deriving DecidableEq, Repr, Inhabited

/-- What may happen to the peripheral outside the block's own transfers: an environment step (R52) or another master's
transaction (R63). -/
inductive Disturbance where
  | peripheral (e : EnvStep)
  | master (t : MasterTxn)
  deriving DecidableEq, Repr, Inhabited

/-- Everything the environment draws for one transfer of the block (R17). -/
structure Draw where
  /-- What happens immediately before the transfer (R52, R63), in order. -/
  before : List Disturbance
  /-- The number the transport reports; `none`: it has not answered (spec/70_reset_and_hazards.md R216). It is an integer
  because a failure may be reported as a number that is no byte count (R46). -/
  count : Option Int
  /-- On a failed transfer, how many leading bytes reached the peripheral or were taken from it (R46, R47); a number
  above the transfer's length stands for the length. -/
  reached : Nat
  /-- The value the pointer takes if this transfer moves it past 0x0F (R55: any value). -/
  ptrPast : Byte
  /-- What the peripheral supplies from an offset that holds no register (no command of the block reads one, R55). -/
  stray : Byte
  /-- What happens after the transfer, when it is the command's last (R52, R63), in order. -/
  after : List Disturbance
  deriving DecidableEq, Repr, Inhabited

/-- FREE VALUE. The `n`-th draw that the state's own list of draws does not fix (R17, R46: whether a transfer succeeds is
a draw, and no rule lets a model assume success). notes/assumptions/1.md. -/
opaque Config.draw : Nat → Draw

/-- FREE VALUE. What `REG[a]` holds when a run begins (spec/10_state.md R43: an arbitrary byte, not zero).
notes/assumptions/2.md. -/
opaque Config.powerOnByte : Nat → Byte

/-- FREE VALUE. What the register-address pointer holds when a run begins (R43). notes/assumptions/2.md. -/
opaque Config.powerOnPtr : Byte

/-- OPEN PARAMETER `ENV` of a run that begins at reset (spec/92_eei_decisions.md D19). notes/assumptions/3.md. -/
opaque Config.env : Env

/-- OPEN PARAMETER `OTHER_MASTERS` of a run that begins at reset (D20). notes/assumptions/3.md. -/
opaque Config.otherMasters : Bool

end Sys2Proof
end

