-- ==== Sys2Proof/Syntax.lean ====
section
/-! DEFINITION. The instructions: one constructor for each of the 19 operations of `RTCC-1` (spec/00_scope.md R3). The 44
rows of spec/opcode_table.json are these 19 operations, each with every selector value that is legal for it
(spec/30_encoding.md R84); the selector is an operand of a closed enumeration (R78 to R81), so that a reserved selector
is no instruction. -/

namespace Sys2Proof

/-- Channel-1 trigger modes, least specific first (spec/30_encoding.md R78). -/
inductive Mode1 where
  | everySecond
  | secondsMatch
  | minutesSecondsMatch
  | hoursMinutesSecondsMatch
  | dateHourMinuteSecondMatch
  | dayOfWeekHourMinuteSecondMatch
  deriving DecidableEq, Repr

/-- Channel-2 trigger modes, least specific first (R79). -/
inductive Mode2 where
  | everyMinute
  | minutesMatch
  | hoursMinutesMatch
  | dateHourMinuteMatch
  | dayOfWeekHourMinuteMatch
  deriving DecidableEq, Repr

/-- The two alarm channels (R81). -/
inductive Channel where
  | first
  | second
  deriving DecidableEq, Repr

/-- The four output frequencies (R80). -/
inductive Freq where
  | hz1
  | hz1024
  | hz4096
  | hz8192
  deriving DecidableEq, Repr

/-- A command: the operation, its selector and the operand bytes it uses, in the order of R71. Each byte may hold any
value 0 to 255 (R118: no range is checked). -/
inductive Instr where
  | rdReg (addr : Byte)
  | wrReg (addr value : Byte)
  | updReg (addr clearMask setBits : Byte)
  | encBcd (v : Byte)
  | decBcd (b : Byte)
  | encTime (second minute hour dayOfWeek day month year : Byte)
  | decTime (b0 b1 b2 b3 b4 b5 b6 : Byte)
  | setTime (second minute hour dayOfWeek day month year : Byte)
  | readTime
  | packA1 (mode : Mode1) (second minute hour day : Byte)
  | packA2 (mode : Mode2) (minute hour day : Byte)
  | setAlarm1 (mode : Mode1) (second minute hour day : Byte)
  | setAlarm2 (mode : Mode2) (minute hour day : Byte)
  | checkFlag (channel : Channel)
  | clearFlag (channel : Channel)
  | disableAlarm (channel : Channel)
  | en32k (on : Bool)
  | enSqw (freq : Freq)
  | enInt
  deriving DecidableEq, Repr

end Sys2Proof
end

