-- ==== Sys2Proof/WellFormed.lean ====
section
/-! DEFINITION. The one check on an instruction as a term. Reserved operation codes and selectors are no terms at all
(Syntax.lean), and no operand byte is range checked (spec/41_bcd_codec.md R118), so what is left is the offset of the three
register-access operations: the spec gives a command a meaning only at the offsets 0x00 to 0x0F (spec/20_memory.md R55). -/

namespace Sys2Proof

/-- The offset names one of the sixteen registers (R26, R55). -/
def offsetInMap (a : Byte) : Bool := a.toNat ≤ regTop

/-- The spec gives this command a meaning (R55). -/
def Instr.wellFormed : Instr → Bool
  | .rdReg a => offsetInMap a
  | .wrReg a _ => offsetInMap a
  | .updReg a _ _ => offsetInMap a
  | .encBcd _ => true
  | .decBcd _ => true
  | .encTime _ _ _ _ _ _ _ => true
  | .decTime _ _ _ _ _ _ _ => true
  | .setTime _ _ _ _ _ _ _ => true
  | .readTime => true
  | .packA1 _ _ _ _ _ => true
  | .packA2 _ _ _ _ => true
  | .setAlarm1 _ _ _ _ _ => true
  | .setAlarm2 _ _ _ _ => true
  | .checkFlag _ => true
  | .clearFlag _ => true
  | .disableAlarm _ => true
  | .en32k _ => true
  | .enSqw _ => true
  | .enInt => true

end Sys2Proof
end

