-- ==== Sys2Proof/Decode.lean ====
section
/-! DEFINITION. From a command word to an instruction, or to the name of what is wrong with it (spec/30_encoding.md R70,
R71, R84 to R88), the encoder back, and the assembler's lines (R89, R90). -/

namespace Sys2Proof

/-! ## The fields of a command word (R70) -/

/-- `CW[4:0]`, the operation code. -/
def opField (w : Word) : BitVec 5 := w.extractLsb' 0 5

/-- `CW[7:5]`, the selector. -/
def selField (w : Word) : BitVec 3 := w.extractLsb' 5 3

/-- `CW[7:0]`, the opcode byte: `sel * 32 + op`. -/
def opcodeField (w : Word) : Byte := w.extractLsb' 0 8

/-- `CW[63:8]`, the operand slots: `P[i] = CW[8i+15 : 8i+8]`. -/
def slotFields (w : Word) : Slots where
  b0 := w.extractLsb' 8 8
  b1 := w.extractLsb' 16 8
  b2 := w.extractLsb' 24 8
  b3 := w.extractLsb' 32 8
  b4 := w.extractLsb' 40 8
  b5 := w.extractLsb' 48 8
  b6 := w.extractLsb' 56 8

/-- A word from its low byte and its seven slots, slot `i` at bits `8i+15` to `8i+8`: the layout the command word (R70)
and the response word (R72) share. -/
def packWord (low : Byte) (p : Slots) : Word :=
  BitVec.ofNat 64 (low.toNat + p.b0.toNat * 2 ^ 8 + p.b1.toNat * 2 ^ 16 + p.b2.toNat * 2 ^ 24 + p.b3.toNat * 2 ^ 32 +
    p.b4.toNat * 2 ^ 40 + p.b5.toNat * 2 ^ 48 + p.b6.toNat * 2 ^ 56)

/-! ## Selectors (R78 to R81) -/

def Mode1.ofSel (sel : Nat) : Option Mode1 :=
  match sel with
  | 0 => some .everySecond
  | 1 => some .secondsMatch
  | 2 => some .minutesSecondsMatch
  | 3 => some .hoursMinutesSecondsMatch
  | 4 => some .dateHourMinuteSecondMatch
  | 5 => some .dayOfWeekHourMinuteSecondMatch
  | _ => none

def Mode1.sel : Mode1 → BitVec 3
  | .everySecond => 0
  | .secondsMatch => 1
  | .minutesSecondsMatch => 2
  | .hoursMinutesSecondsMatch => 3
  | .dateHourMinuteSecondMatch => 4
  | .dayOfWeekHourMinuteSecondMatch => 5

def Mode2.ofSel (sel : Nat) : Option Mode2 :=
  match sel with
  | 0 => some .everyMinute
  | 1 => some .minutesMatch
  | 2 => some .hoursMinutesMatch
  | 3 => some .dateHourMinuteMatch
  | 4 => some .dayOfWeekHourMinuteMatch
  | _ => none

def Mode2.sel : Mode2 → BitVec 3
  | .everyMinute => 0
  | .minutesMatch => 1
  | .hoursMinutesMatch => 2
  | .dateHourMinuteMatch => 3
  | .dayOfWeekHourMinuteMatch => 4

def Channel.ofSel (sel : Nat) : Option Channel :=
  match sel with
  | 0 => some .first
  | 1 => some .second
  | _ => none

def Channel.sel : Channel → BitVec 3
  | .first => 0
  | .second => 1

/-- The enable operand of `EN_32K`: 0 off, 1 on. -/
def enableOfSel (sel : Nat) : Option Bool :=
  match sel with
  | 0 => some false
  | 1 => some true
  | _ => none

def enableSel : Bool → BitVec 3
  | false => 0
  | true => 1

def Freq.ofSel (sel : Nat) : Option Freq :=
  match sel with
  | 0 => some .hz1
  | 1 => some .hz1024
  | 2 => some .hz4096
  | 3 => some .hz8192
  | _ => none

def Freq.sel : Freq → BitVec 3
  | .hz1 => 0
  | .hz1024 => 1
  | .hz4096 => 2
  | .hz8192 => 3

/-- An operation without a selector takes `sel = 0` only (R86). -/
def noSel (sel : Nat) : Option Unit :=
  match sel with
  | 0 => some ()
  | _ => none

/-! ## Decoding (R84 to R87) -/

/-- Why a command word spells no operation. Either way the block answers `IllegalCommand` (R177). -/
inductive DecodeError where
  /-- `op` is 0x00 or 0x14 to 0x1F (R85). -/
  | reservedOp (op : Nat)
  /-- `sel` is not a legal selector for `op` (R86). -/
  | reservedSel (op sel : Nat)
  deriving DecidableEq, Repr

/-- The instruction for a selector, or its rejection by name. -/
def selected {α : Type} (op sel : Nat) (choice : Option α) (make : α → Instr) : Except DecodeError Instr :=
  match choice with
  | some x => .ok (make x)
  | none => .error (.reservedSel op sel)

/-- The operation code map of R84, over the fields of the word. -/
def decodeFields (op sel : Nat) (p : Slots) : Except DecodeError Instr :=
  match op with
  | 0x01 => selected op sel (noSel sel) fun _ => .rdReg p.b0
  | 0x02 => selected op sel (noSel sel) fun _ => .wrReg p.b0 p.b1
  | 0x03 => selected op sel (noSel sel) fun _ => .updReg p.b0 p.b1 p.b2
  | 0x04 => selected op sel (noSel sel) fun _ => .encBcd p.b0
  | 0x05 => selected op sel (noSel sel) fun _ => .decBcd p.b0
  | 0x06 => selected op sel (noSel sel) fun _ => .encTime p.b0 p.b1 p.b2 p.b3 p.b4 p.b5 p.b6
  | 0x07 => selected op sel (noSel sel) fun _ => .decTime p.b0 p.b1 p.b2 p.b3 p.b4 p.b5 p.b6
  | 0x08 => selected op sel (noSel sel) fun _ => .setTime p.b0 p.b1 p.b2 p.b3 p.b4 p.b5 p.b6
  | 0x09 => selected op sel (noSel sel) fun _ => .readTime
  | 0x0A => selected op sel (Mode1.ofSel sel) fun m => .packA1 m p.b0 p.b1 p.b2 p.b3
  | 0x0B => selected op sel (Mode2.ofSel sel) fun m => .packA2 m p.b0 p.b1 p.b2
  | 0x0C => selected op sel (Mode1.ofSel sel) fun m => .setAlarm1 m p.b0 p.b1 p.b2 p.b3
  | 0x0D => selected op sel (Mode2.ofSel sel) fun m => .setAlarm2 m p.b0 p.b1 p.b2
  | 0x0E => selected op sel (Channel.ofSel sel) .checkFlag
  | 0x0F => selected op sel (Channel.ofSel sel) .clearFlag
  | 0x10 => selected op sel (Channel.ofSel sel) .disableAlarm
  | 0x11 => selected op sel (enableOfSel sel) .en32k
  | 0x12 => selected op sel (Freq.ofSel sel) .enSqw
  | 0x13 => selected op sel (noSel sel) fun _ => .enInt
  | _ => .error (.reservedOp op)

/-- Decoding a command word: total, by its opcode byte alone (R84, R87). -/
def decode (w : Word) : Except DecodeError Instr :=
  decodeFields (opField w).toNat (selField w).toNat (slotFields w)

/-- The host's question (bit 0 of the table is bit 0 of the command word; bits above `nbits` are 0). -/
def decodeTableWord (nbits w : Nat) : Option Instr :=
  match decode (BitVec.ofNat 64 (w % 2 ^ nbits)) with
  | .ok i => some i
  | .error _ => none

/-! ## Encoding (R70, R71, R84) -/

/-- The operation code of an instruction (R84). -/
def Instr.op : Instr → BitVec 5
  | .rdReg .. => 0x01
  | .wrReg .. => 0x02
  | .updReg .. => 0x03
  | .encBcd .. => 0x04
  | .decBcd .. => 0x05
  | .encTime .. => 0x06
  | .decTime .. => 0x07
  | .setTime .. => 0x08
  | .readTime => 0x09
  | .packA1 .. => 0x0A
  | .packA2 .. => 0x0B
  | .setAlarm1 .. => 0x0C
  | .setAlarm2 .. => 0x0D
  | .checkFlag .. => 0x0E
  | .clearFlag .. => 0x0F
  | .disableAlarm .. => 0x10
  | .en32k .. => 0x11
  | .enSqw .. => 0x12
  | .enInt => 0x13

/-- The selector of an instruction (R71). -/
def Instr.sel : Instr → BitVec 3
  | .rdReg .. => 0
  | .wrReg .. => 0
  | .updReg .. => 0
  | .encBcd .. => 0
  | .decBcd .. => 0
  | .encTime .. => 0
  | .decTime .. => 0
  | .setTime .. => 0
  | .readTime => 0
  | .packA1 m .. => m.sel
  | .packA2 m .. => m.sel
  | .setAlarm1 m .. => m.sel
  | .setAlarm2 m .. => m.sel
  | .checkFlag c => c.sel
  | .clearFlag c => c.sel
  | .disableAlarm c => c.sel
  | .en32k on => enableSel on
  | .enSqw f => f.sel
  | .enInt => 0

/-- The operand slots of an instruction (R71); an unused slot is written 0x00, as a host should send it (R87). -/
def Instr.operands : Instr → Slots
  | .rdReg a => ⟨a, 0, 0, 0, 0, 0, 0⟩
  | .wrReg a v => ⟨a, v, 0, 0, 0, 0, 0⟩
  | .updReg a m s => ⟨a, m, s, 0, 0, 0, 0⟩
  | .encBcd v => ⟨v, 0, 0, 0, 0, 0, 0⟩
  | .decBcd b => ⟨b, 0, 0, 0, 0, 0, 0⟩
  | .encTime s mi h w d mo y => ⟨s, mi, h, w, d, mo, y⟩
  | .decTime b0 b1 b2 b3 b4 b5 b6 => ⟨b0, b1, b2, b3, b4, b5, b6⟩
  | .setTime s mi h w d mo y => ⟨s, mi, h, w, d, mo, y⟩
  | .readTime => Slots.zero
  | .packA1 _ s mi h d => ⟨s, mi, h, d, 0, 0, 0⟩
  | .packA2 _ mi h d => ⟨mi, h, d, 0, 0, 0, 0⟩
  | .setAlarm1 _ s mi h d => ⟨s, mi, h, d, 0, 0, 0⟩
  | .setAlarm2 _ mi h d => ⟨mi, h, d, 0, 0, 0, 0⟩
  | .checkFlag _ => Slots.zero
  | .clearFlag _ => Slots.zero
  | .disableAlarm _ => Slots.zero
  | .en32k _ => Slots.zero
  | .enSqw _ => Slots.zero
  | .enInt => Slots.zero

/-- How many operand slots an instruction uses; they are always the lowest ones (R71). -/
def Instr.operandCount : Instr → Nat
  | .rdReg .. => 1
  | .wrReg .. => 2
  | .updReg .. => 3
  | .encBcd .. => 1
  | .decBcd .. => 1
  | .encTime .. => 7
  | .decTime .. => 7
  | .setTime .. => 7
  | .readTime => 0
  | .packA1 .. => 4
  | .packA2 .. => 3
  | .setAlarm1 .. => 4
  | .setAlarm2 .. => 3
  | .checkFlag .. => 0
  | .clearFlag .. => 0
  | .disableAlarm .. => 0
  | .en32k .. => 0
  | .enSqw .. => 0
  | .enInt => 0

/-- The opcode byte of an instruction: `sel * 32 + op` (R70). -/
def Instr.opcodeByte (i : Instr) : Byte := BitVec.ofNat 8 (i.sel.toNat * 32 + i.op.toNat)

/-- The command word of an instruction. -/
def encode (i : Instr) : Word := packWord i.opcodeByte i.operands

/-- The bits of a command word that an instruction uses: its opcode byte and its operand slots (R71, R87). -/
def Instr.usedMask (i : Instr) : Word := BitVec.ofNat 64 (2 ^ (8 * (i.operandCount + 1)) - 1)

/-- The 44 legal opcode bytes, in the order of R84. -/
def legalOpcodeBytes : List Nat :=
  [0x01, 0x02, 0x03, 0x04, 0x05, 0x06, 0x07, 0x08, 0x09] ++
  [0x0A, 0x2A, 0x4A, 0x6A, 0x8A, 0xAA] ++ [0x0B, 0x2B, 0x4B, 0x6B, 0x8B] ++
  [0x0C, 0x2C, 0x4C, 0x6C, 0x8C, 0xAC] ++ [0x0D, 0x2D, 0x4D, 0x6D, 0x8D] ++
  [0x0E, 0x2E, 0x0F, 0x2F, 0x10, 0x30, 0x11, 0x31] ++ [0x12, 0x32, 0x52, 0x72, 0x13]

/-! ## Assembler lines (R89, R90), after the text has been split into tokens -/

/-- An operand as written: a number (decimal or hexadecimal in the text), or a word (`on`, `off`, a frequency; a mode
name in the pseudo-instruction). -/
inductive AsmArg where
  | num (n : Nat)
  | word (s : String)
  deriving DecidableEq, Repr

/-- One line: the mnemonic, the mode name after its dot if there is one, and the operands. -/
structure AsmLine where
  mnemonic : String
  mode : Option String
  args : List AsmArg
  deriving DecidableEq, Repr

def Mode1.name : Mode1 → String
  | .everySecond => "EverySecond"
  | .secondsMatch => "SecondsMatch"
  | .minutesSecondsMatch => "MinutesSecondsMatch"
  | .hoursMinutesSecondsMatch => "HoursMinutesSecondsMatch"
  | .dateHourMinuteSecondMatch => "DateHourMinuteSecondMatch"
  | .dayOfWeekHourMinuteSecondMatch => "DayOfWeekHourMinuteSecondMatch"

def Mode2.name : Mode2 → String
  | .everyMinute => "EveryMinute"
  | .minutesMatch => "MinutesMatch"
  | .hoursMinutesMatch => "HoursMinutesMatch"
  | .dateHourMinuteMatch => "DateHourMinuteMatch"
  | .dayOfWeekHourMinuteMatch => "DayOfWeekHourMinuteMatch"

def Freq.name : Freq → String
  | .hz1 => "1Hz"
  | .hz1024 => "1024Hz"
  | .hz4096 => "4096Hz"
  | .hz8192 => "8192Hz"

/-- A channel is written 1 or 2 (R89). -/
def Channel.number : Channel → Nat
  | .first => 1
  | .second => 2

def enableName : Bool → String
  | false => "off"
  | true => "on"

def Mode1.ofName (s : String) : Option Mode1 :=
  [Mode1.everySecond, .secondsMatch, .minutesSecondsMatch, .hoursMinutesSecondsMatch, .dateHourMinuteSecondMatch,
    .dayOfWeekHourMinuteSecondMatch].find? (fun m => m.name == s)

def Mode2.ofName (s : String) : Option Mode2 :=
  [Mode2.everyMinute, .minutesMatch, .hoursMinutesMatch, .dateHourMinuteMatch, .dayOfWeekHourMinuteMatch].find?
    (fun m => m.name == s)

def Freq.ofName (s : String) : Option Freq :=
  [Freq.hz1, .hz1024, .hz4096, .hz8192].find? (fun f => f.name == s)

def enableOfName (s : String) : Option Bool :=
  [false, true].find? (fun b => enableName b == s)

def Channel.ofNumber (n : Nat) : Option Channel :=
  match n with
  | 1 => some .first
  | 2 => some .second
  | _ => none

/-- An operand number as a byte: 0 to 255, and no other number exists (R9, R89). -/
def byteOfNum (n : Nat) : Option Byte := if n ≤ 255 then some (BitVec.ofNat 8 n) else none

/-- Every operand as a byte, or nothing if one of them is a word or above 255. -/
def bytesOfArgs : List AsmArg → Option (List Byte)
  | [] => some []
  | .num n :: rest => (byteOfNum n).bind fun b => (bytesOfArgs rest).map (b :: ·)
  | .word _ :: _ => none

/-- The pseudo-instruction `SET_ALARM channel, day, hour, minute[, second], mode` (R90): channel 1 takes a second and a
channel-1 mode, channel 2 takes neither. -/
def assembleSetAlarm : List AsmArg → Option Instr
  | [.num 1, .num d, .num h, .num mi, .num s, .word m] =>
    (Mode1.ofName m).bind fun mode => (byteOfNum s).bind fun s => (byteOfNum mi).bind fun mi =>
      (byteOfNum h).bind fun h => (byteOfNum d).map fun d => .setAlarm1 mode s mi h d
  | [.num 2, .num d, .num h, .num mi, .word m] =>
    (Mode2.ofName m).bind fun mode => (byteOfNum mi).bind fun mi => (byteOfNum h).bind fun h =>
      (byteOfNum d).map fun d => .setAlarm2 mode mi h d
  | _ => none

/-- Lines without a mode and with byte operands only. -/
def assembleBytes (mnemonic : String) (p : List Byte) : Option Instr :=
  match mnemonic, p with
  | "RD_REG", [a] => some (.rdReg a)
  | "WR_REG", [a, v] => some (.wrReg a v)
  | "UPD_REG", [a, m, s] => some (.updReg a m s)
  | "ENC_BCD", [v] => some (.encBcd v)
  | "DEC_BCD", [b] => some (.decBcd b)
  | "ENC_TIME", [s, mi, h, w, d, mo, y] => some (.encTime s mi h w d mo y)
  | "DEC_TIME", [b0, b1, b2, b3, b4, b5, b6] => some (.decTime b0 b1 b2 b3 b4 b5 b6)
  | "SET_TIME", [s, mi, h, w, d, mo, y] => some (.setTime s mi h w d mo y)
  | "READ_TIME", [] => some .readTime
  | "EN_INT", [] => some .enInt
  | _, _ => none

/-- Lines with a mode name after the mnemonic's dot. -/
def assembleMode (mnemonic mode : String) (p : List Byte) : Option Instr :=
  match mnemonic, p with
  | "PACK_A1", [s, mi, h, d] => (Mode1.ofName mode).map fun m => .packA1 m s mi h d
  | "PACK_A2", [mi, h, d] => (Mode2.ofName mode).map fun m => .packA2 m mi h d
  | "SET_ALARM1", [s, mi, h, d] => (Mode1.ofName mode).map fun m => .setAlarm1 m s mi h d
  | "SET_ALARM2", [mi, h, d] => (Mode2.ofName mode).map fun m => .setAlarm2 m mi h d
  | _, _ => none

/-- The instruction a line stands for; a line that is none of R89 and R90 is a syntax error. -/
def assemble (l : AsmLine) : Option Instr :=
  match l.mode with
  | some mode => (bytesOfArgs l.args).bind (assembleMode l.mnemonic mode)
  | none =>
    match l.mnemonic, l.args with
    | "CHECK_FLAG", [.num c] => (Channel.ofNumber c).map .checkFlag
    | "CLEAR_FLAG", [.num c] => (Channel.ofNumber c).map .clearFlag
    | "DISABLE_ALARM", [.num c] => (Channel.ofNumber c).map .disableAlarm
    | "EN_32K", [.word w] => (enableOfName w).map .en32k
    | "EN_SQW", [.word w] => (Freq.ofName w).map .enSqw
    | "SET_ALARM", args => assembleSetAlarm args
    | m, args => (bytesOfArgs args).bind (assembleBytes m)

/-- Operand bytes as they are written. -/
def numArgs (p : List Byte) : List AsmArg := p.map fun b => .num b.toNat

/-- The line an instruction is written as (R89). -/
def Instr.line : Instr → AsmLine
  | .rdReg a => ⟨"RD_REG", none, numArgs [a]⟩
  | .wrReg a v => ⟨"WR_REG", none, numArgs [a, v]⟩
  | .updReg a m s => ⟨"UPD_REG", none, numArgs [a, m, s]⟩
  | .encBcd v => ⟨"ENC_BCD", none, numArgs [v]⟩
  | .decBcd b => ⟨"DEC_BCD", none, numArgs [b]⟩
  | .encTime s mi h w d mo y => ⟨"ENC_TIME", none, numArgs [s, mi, h, w, d, mo, y]⟩
  | .decTime b0 b1 b2 b3 b4 b5 b6 => ⟨"DEC_TIME", none, numArgs [b0, b1, b2, b3, b4, b5, b6]⟩
  | .setTime s mi h w d mo y => ⟨"SET_TIME", none, numArgs [s, mi, h, w, d, mo, y]⟩
  | .readTime => ⟨"READ_TIME", none, []⟩
  | .packA1 m s mi h d => ⟨"PACK_A1", some m.name, numArgs [s, mi, h, d]⟩
  | .packA2 m mi h d => ⟨"PACK_A2", some m.name, numArgs [mi, h, d]⟩
  | .setAlarm1 m s mi h d => ⟨"SET_ALARM1", some m.name, numArgs [s, mi, h, d]⟩
  | .setAlarm2 m mi h d => ⟨"SET_ALARM2", some m.name, numArgs [mi, h, d]⟩
  | .checkFlag c => ⟨"CHECK_FLAG", none, [.num c.number]⟩
  | .clearFlag c => ⟨"CLEAR_FLAG", none, [.num c.number]⟩
  | .disableAlarm c => ⟨"DISABLE_ALARM", none, [.num c.number]⟩
  | .en32k on => ⟨"EN_32K", none, [.word (enableName on)]⟩
  | .enSqw f => ⟨"EN_SQW", none, [.word f.name]⟩
  | .enInt => ⟨"EN_INT", none, []⟩

end Sys2Proof
end

