-- ==== Sys2Proof/Machine/State.lean ====
section
/-! DEFINITION. The state of the machine: what the codec block holds while a command is in progress, its three ports
(command, response, transport), the peripheral's sixteen registers and its hidden pointer, the two open parameters, and
the draws of the environment (spec/10_state.md R20 to R43, spec/20_memory.md R45 to R67). -/

namespace Sys2Proof.Machine

open Sys2Proof

/-- The peripheral's register map as (offset, byte) pairs (spec/20_memory.md R53, R54). One form only: offsets strictly
rising. An offset that is not listed holds no register, and reads as no value. -/
abbrev Memory := List Host.Cell

/-- The offsets that hold a register, in order: 0x00 to 0x0F (spec/10_state.md R26). -/
def mapOffsets : List Nat := List.range (regTop + 1)

/-- The form every register map has: each of the sixteen offsets listed once, rising, and no other offset (R26). -/
abbrev Memory.wf (m : Memory) : Prop := m.map Prod.fst = mapOffsets

/-- The two exceptions (spec/60_exceptions.md R175). -/
inductive Exception where
  /-- A transfer reported another count than requested (R176). -/
  | transportFailure
  /-- The opcode byte is not one of the 44 legal ones (R177). -/
  | illegalCommand
  deriving DecidableEq, Repr

/-- What a command answers: `OK` with seven result bytes, or an exception with no data (R72, R181). -/
inductive Response where
  | ok (results : Slots)
  | raised (x : Exception)
  deriving DecidableEq, Repr

/-- One call on the transport port (spec/20_memory.md R45). -/
inductive BusCall where
  | write (dev : Byte) (bytes : List Byte) (holdBus : Bool)
  | read (dev : Byte) (length : Nat)
  deriving DecidableEq, Repr

/-- One transfer a command still has to make (R22, R48, R49). -/
inductive Transfer where
  /-- The address phase of `MemRead(a, n)`. -/
  | address (a : Byte)
  /-- The data phase of `MemRead(a, n)`: `n` bytes. -/
  | read (n : Nat)
  /-- `MemWrite(a, n, v)`. -/
  | store (a : Byte) (v : List Byte)
  /-- The write of a read-modify-write: `MemWrite(a, 1, [(old & ~m) | s])` (spec/40_register_access.md R102). -/
  | storeUpdated (a clearMask setBits : Byte)
  deriving DecidableEq, Repr

/-- What a command makes of the bytes it has read, once all its transfers have succeeded (R73). -/
inductive Finish where
  /-- No result byte. -/
  | nothing
  /-- `R[0]` is the byte read. -/
  | byte
  /-- `R[0]` is the channel's flag in the byte read. -/
  | flag (c : Channel)
  /-- The seven bytes read, decoded as a time block. -/
  | time
  deriving DecidableEq, Repr

/-- A command in progress (R22): its position is the list of transfers still to be made, the first of them issued and
not yet answered; `buf` holds what the last read returned (the byte `old` of a read-modify-write). -/
structure InProgress where
  todo : List Transfer
  buf : List Byte
  fin : Finish
  deriving DecidableEq, Repr

/-- What the host may do next: present a command word, or reset the codec block (R20, R23, R44). -/
inductive HostInput where
  | command (w : Word)
  | reset
  deriving DecidableEq, Repr

/-- Faults: there is none. The spec gives every legal command an effect or a response, and its exceptions are
responses (R175, R180); nothing stops the block with a fault. -/
inductive Fault where
  deriving DecidableEq, Repr

/-- Refusals. -/
inductive Refusal where
  /-- Raised by an arm of `exec` whose instruction has no meaning yet (none). Safe. -/
  | notModelled (mnemonic : String)
  /-- Raised by `RD_REG`, `WR_REG` and `UPD_REG` at an offset above 0x0F: the spec gives such a command no meaning,
  neither a value nor a fault (spec/20_memory.md R55). Safe. -/
  | offsetAboveTop (offset : Byte)
  deriving DecidableEq, Repr

/-- The peripheral (R20): its registers `REG[0x00]` to `REG[0x0F]` (R26) and its hidden register-address pointer `PTR`
(R41). -/
structure Peripheral where
  regs : Memory
  ptr : Byte
  deriving DecidableEq, Repr

/-- The machine. -/
structure State where
  /-- The host's inputs still to come, in order (R20, R23). -/
  host : List HostInput
  /-- The command word of the command in progress: `op`, `sel` and the operand slots (R21, R70). -/
  command : Option Word
  /-- The command in progress, if a transfer of it waits for its answer (R22, R216). -/
  busy : Option InProgress
  /-- The response the last command produced, until the next command begins (R21, R72). -/
  response : Option Response
  /-- The calls the current or last command has made on the transport port, oldest first (R45, R67). -/
  bus : List BusCall
  /-- The peripheral at bus address 0x68: `REG[0x00]` to `REG[0x0F]` and `PTR` (R26, R41, R42). -/
  per : Peripheral
  /-- The open parameter `ENV` (R52). -/
  env : Env
  /-- The open parameter `OTHER_MASTERS` (R63). -/
  otherMasters : Bool
  /-- The model's own: the next draws of the environment, in order (R17). -/
  draws : List Draw
  /-- The model's own: how many draws have been taken from `Config.draw` after `draws` ran out. -/
  drawCount : Nat
  deriving DecidableEq, Repr

/-- The register map when a run begins: each register holds an arbitrary byte (R43, R201). -/
def State.powerOnRegs : Memory := mapOffsets.map fun a => (a, Config.powerOnByte a)

/-- The machine right after reset (R43, R200, R201): the block is idle, with no command in progress, no response pending
and no transfer made; the peripheral's registers and pointer are arbitrary; the host has presented nothing. -/
def State.reset : State where
  host := []
  command := none
  busy := none
  response := none
  bus := []
  per := ⟨State.powerOnRegs, Config.powerOnPtr⟩
  env := Config.env
  otherMasters := Config.otherMasters
  draws := []
  drawCount := 0

end Sys2Proof.Machine
end

