-- ==== Sys2Proof/Machine/Flags.lean ====
section
/-! DEFINITION. Register offsets and bit masks (spec/00_scope.md R8, spec/30_encoding.md R82), the fields of the control
and status bytes (spec/10_state.md R30 to R40), and the status codes and layout of the response word (spec/30_encoding.md
R72). -/

namespace Sys2Proof.Machine

open Sys2Proof

/-! ## The register map (R8, R26) -/

abbrev timeBase : Byte := 0x00
abbrev timeLen : Nat := 7
abbrev alarm1Base : Byte := 0x07
abbrev alarm1Len : Nat := 4
abbrev alarm2Base : Byte := 0x0B
abbrev alarm2Len : Nat := 3
abbrev ctrlOffset : Byte := 0x0E
abbrev statOffset : Byte := 0x0F

/-! ## Named masks (R82) -/

/-- `MASKBIT`: the mask bit of an alarm byte. -/
abbrev maskBit : Byte := 0x80

/-- `DYDT`: the day/date select of an alarm day byte. -/
abbrev dyDt : Byte := 0x40

/-- `CENTURY`: the century flag of the month byte. -/
abbrev century : Byte := 0x80

abbrev maskA1IE : Byte := 0x01
abbrev maskA2IE : Byte := 0x02
abbrev maskIntcn : Byte := 0x04
abbrev maskRs : Byte := 0x18
abbrev maskA1F : Byte := 0x01
abbrev maskA2F : Byte := 0x02
abbrev maskEn32k : Byte := 0x08

/-- Control bits 7 to 5, which the register map does not describe (R35). -/
abbrev ctrlUndescribed : Byte := 0xE0

/-- Status bits 7 to 4 and 2, which the register map does not describe (R40). -/
abbrev statUndescribed : Byte := 0xF4

/-- A channel's bit in the status byte (its flag) and in the control byte (its enable): `1 << sel` (R81). -/
def channelMask : Channel → Byte
  | .first => 0x01
  | .second => 0x02

/-! ## Fields of the control byte (R31 to R35) -/

def ctrlA1IE (b : Byte) : Bool := b.getLsbD 0
def ctrlA2IE (b : Byte) : Bool := b.getLsbD 1
def ctrlIntcn (b : Byte) : Bool := b.getLsbD 2
def ctrlRs (b : Byte) : BitVec 2 := b.extractLsb' 3 2
def ctrlHigh (b : Byte) : BitVec 3 := b.extractLsb' 5 3

/-! ## Fields of the status byte (R37 to R39) -/

def statA1F (b : Byte) : Bool := b.getLsbD 0
def statA2F (b : Byte) : Bool := b.getLsbD 1
def statEn32k (b : Byte) : Bool := b.getLsbD 3

/-- A channel's alarm flag as `CHECK_FLAG` reports it: `(v >> sel) & 1` (spec/44_control_status.md R161). -/
def flagBit (c : Channel) (v : Byte) : Byte :=
  match c with
  | .first => v &&& 1
  | .second => (v >>> 1) &&& 1

/-! ## The response word (R72) -/

/-- The code of an exception (R175). -/
def Exception.code : Exception → Byte
  | .transportFailure => 0x01
  | .illegalCommand => 0x02

/-- `RW[7:0]`: 0x00 for `OK`, else the exception's code. -/
def Response.status : Response → Byte
  | .ok _ => 0x00
  | .raised x => x.code

/-- The result slots as they stand in the response word: all zero under an exception (R72, R181). -/
def Response.slots : Response → Slots
  | .ok r => r
  | .raised _ => Slots.zero

/-- The response word `RW` (R72). -/
def Response.word (r : Response) : Word := packWord r.status r.slots

/-- Seven slots with one result in `R[0]` (R73). -/
def oneResult (b : Byte) : Slots := ⟨b, 0, 0, 0, 0, 0, 0⟩

end Sys2Proof.Machine
end

