-- ==== Sys2Proof/Machine/Operands.lean ====
section
/-! DEFINITION. The combinational part of the block: the BCD encoder and decoder (spec/41_bcd_codec.md), the seven lanes
of the time codec (spec/42_time_codec.md), the alarm packer with its two mode multiplexers (spec/43_alarm_packer.md), and
the update formula of a read-modify-write (spec/40_register_access.md R102). -/

namespace Sys2Proof.Machine

open Sys2Proof

/-! ## BCD (R111, R113) -/

/-- `Enc(v) = trunc8((v / 10) * 16 + v % 10)`, for every operand 0 to 255 (R111). -/
def enc (v : Byte) : Byte := BitVec.ofNat 8 ((v.toNat / 10) * 16 + v.toNat % 10)

/-- `Dec(b) = (b / 16) * 10 + b % 16`, at most 165 (R113). -/
def dec (b : Byte) : Byte := BitVec.ofNat 8 ((b.toNat / 16) * 10 + b.toNat % 16)

/-! ## The time codec (R125 to R127) -/

/-- Every lane encodes its own byte (R126). -/
def encLanes (p : Slots) : Slots :=
  ⟨enc p.b0, enc p.b1, enc p.b2, enc p.b3, enc p.b4, enc p.b5, enc p.b6⟩

/-- Every lane decodes its own byte, the month lane after its century flag has been masked off (R127). -/
def decLanes (p : Slots) : Slots :=
  ⟨dec p.b0, dec p.b1, dec p.b2, dec p.b3, dec p.b4, dec (p.b5 &&& ~~~century), dec p.b6⟩

/-- The seven bytes in ascending register order (R56). -/
def slotsList (p : Slots) : List Byte := [p.b0, p.b1, p.b2, p.b3, p.b4, p.b5, p.b6]

/-- The `i`-th byte a read returned. Every use is on a read of that many bytes; a byte that is not there counts as
0x00. -/
def bufByte (buf : List Byte) (i : Nat) : Byte := (buf[i]?).getD 0

/-- Seven bytes a read returned, as a time block. -/
def slotsOfBuf (buf : List Byte) : Slots :=
  ⟨bufByte buf 0, bufByte buf 1, bufByte buf 2, bufByte buf 3, bufByte buf 4, bufByte buf 5, bufByte buf 6⟩

/-! ## The mode multiplexers (R141, R142) -/

/-- The constants a channel-1 mode selects. -/
structure Mux1 where
  maskS : Bool
  maskM : Bool
  maskH : Bool
  maskD : Bool
  dy : Bool
  deriving DecidableEq, Repr

/-- The constants a channel-2 mode selects. -/
structure Mux2 where
  maskM : Bool
  maskH : Bool
  maskD : Bool
  dy : Bool
  deriving DecidableEq, Repr

/-- The table of R141: the masks of second, minute, hour and day, and the day/date select. -/
def mux1 : Mode1 → Mux1
  | .everySecond => ⟨true, true, true, true, false⟩
  | .secondsMatch => ⟨false, true, true, true, false⟩
  | .minutesSecondsMatch => ⟨false, false, true, true, false⟩
  | .hoursMinutesSecondsMatch => ⟨false, false, false, true, false⟩
  | .dateHourMinuteSecondMatch => ⟨false, false, false, false, false⟩
  | .dayOfWeekHourMinuteSecondMatch => ⟨false, false, false, false, true⟩

/-- The table of R142: the masks of minute, hour and day, and the day/date select. -/
def mux2 : Mode2 → Mux2
  | .everyMinute => ⟨true, true, true, false⟩
  | .minutesMatch => ⟨false, true, true, false⟩
  | .hoursMinutesMatch => ⟨false, false, true, false⟩
  | .dateHourMinuteMatch => ⟨false, false, false, false⟩
  | .dayOfWeekHourMinuteMatch => ⟨false, false, false, true⟩

/-! ## The byte assembler and the packer (R143 to R145) -/

/-- A mask constant if the multiplexer's bit is 1. -/
def bitsIf (on : Bool) (mask : Byte) : Byte := if on then mask else 0

/-- A second, minute or hour byte: `Enc(v) | (M << 7)` (R143). -/
def alarmByte (v : Byte) (m : Bool) : Byte := enc v ||| bitsIf m maskBit

/-- A day byte: `Enc(v) | (M << 7) | (DY << 6)` (R143). -/
def alarmDayByte (v : Byte) (m dy : Bool) : Byte := enc v ||| bitsIf m maskBit ||| bitsIf dy dyDt

/-- The alarm-1 block: second, minute, hour, day (R144). -/
def packAlarm1 (mode : Mode1) (second minute hour day : Byte) : List Byte :=
  let m := mux1 mode
  [alarmByte second m.maskS, alarmByte minute m.maskM, alarmByte hour m.maskH, alarmDayByte day m.maskD m.dy]

/-- The alarm-2 block: minute, hour, day (R145). -/
def packAlarm2 (mode : Mode2) (minute hour day : Byte) : List Byte :=
  let m := mux2 mode
  [alarmByte minute m.maskM, alarmByte hour m.maskH, alarmDayByte day m.maskD m.dy]

/-! ## The update formula (R102, R103) -/

/-- `(old & ~m) | s`, in eight bits. -/
def updated (old m s : Byte) : Byte := (old &&& ~~~m) ||| s

/-- `sel << 3`: a frequency code at the place of `RS` (R83). -/
def freqBits : Freq → Byte
  | .hz1 => 0x00
  | .hz1024 => 0x08
  | .hz4096 => 0x10
  | .hz8192 => 0x18

/-! ## Results (R73) -/

/-- The result slots a finished command answers, from what it read. -/
def Finish.result (fin : Finish) (buf : List Byte) : Slots :=
  match fin with
  | .nothing => Slots.zero
  | .byte => oneResult (bufByte buf 0)
  | .flag c => oneResult (flagBit c (bufByte buf 0))
  | .time => decLanes (slotsOfBuf buf)

end Sys2Proof.Machine
end

