-- ==== Sys2Proof/Machine/Ops.lean ====
section
/-! DEFINITION. The named operations over the registers, the peripheral, the environment and the transport
(spec/20_memory.md), raising an exception (spec/60_exceptions.md R175 to R183), and running the transfers of a command. -/

namespace Sys2Proof.Machine

open Sys2Proof

/-! ## The register map (R53, R54, R66) -/

/-- The byte at an offset, or no value where no register is. -/
def Memory.byte? : Memory → Nat → Option Byte
  | [], _ => none
  | (k, b) :: m, a => if k = a then some b else Memory.byte? m a

/-- Change the byte at an offset; nothing changes where no register is. DESIGN CHOICE: so a data byte that another master
writes at an offset above 0x0F is dropped, where the spec is silent (R55; notes/assumptions/14.md). -/
def Memory.modify : Memory → Nat → (Byte → Byte) → Memory
  | [], _, _ => []
  | (k, b) :: m, a, f => if k = a then (k, f b) :: m else (k, b) :: Memory.modify m a f

/-- Write a byte: whole, in all eight bits (R59 a). -/
def Memory.write (m : Memory) (a : Nat) (v : Byte) : Memory := m.modify a fun _ => v

/-- Write bytes to consecutive offsets, the first at the lowest (R56). -/
def Memory.writeBlock : Memory → Nat → List Byte → Memory
  | m, _, [] => m
  | m, a, v :: vs => Memory.writeBlock (m.write a v) (a + 1) vs

/-- The byte a register of the map holds. Offsets 0x00 to 0x0F always hold one (`Memory.wf`). -/
def State.reg (s : State) (a : Nat) : Byte := (s.per.regs.byte? a).getD 0

/-! ## The peripheral's answers (R50, R51) -/

/-- `PTR + 1`, or the drawn value when the pointer passes 0x0F (R41, R55). -/
def nextPtr (past p : Byte) : Byte := if p.toNat < regTop then p + 1 else past

/-- The data bytes of a write transfer, each stored at the pointer, which then advances (R50). -/
def storeBytes (past : Byte) : List Byte → Peripheral → Peripheral
  | [], p => p
  | v :: vs, p => storeBytes past vs ⟨p.regs.write p.ptr.toNat v, nextPtr past p.ptr⟩

/-- The bytes of a write transfer that reach the peripheral: the first sets the pointer, the others are data (R50). -/
def acceptWrite (past : Byte) (bytes : List Byte) (p : Peripheral) : Peripheral :=
  match bytes with
  | [] => p
  | a :: data => storeBytes past data ⟨p.regs, a⟩

/-- `n` bytes taken from the peripheral: each is the register at the pointer, which then advances; no register changes
(R51). `stray` stands for a byte at an offset that holds no register. -/
def supply (stray past : Byte) : Nat → Peripheral → List Byte × Peripheral
  | 0, p => ([], p)
  | n + 1, p =>
    let r := supply stray past n ⟨p.regs, nextPtr past p.ptr⟩
    (((p.regs.byte? p.ptr.toNat).getD stray) :: r.1, r.2)

/-! ## The environment and other masters (R52, R63) -/

/-- The bits of `new` inside the mask, the bits of `old` outside it. -/
def mergeBits (mask old new : Byte) : Byte := (old &&& ~~~mask) ||| (new &&& mask)

/-- The time block after an environment step. -/
def envTime (t : Option Slots) (m : Memory) : Memory :=
  match t with
  | some p => m.writeBlock timeBase.toNat (slotsList p)
  | none => m

/-- The control byte after an environment step: only bits 7 to 5 may change. -/
def envControl (c : Option Byte) (old : Byte) : Byte :=
  match c with
  | some d => mergeBits ctrlUndescribed old d
  | none => old

/-- The status byte after an environment step: the undescribed bits may change, and the flags may be set. -/
def envStatus (e : EnvStep) (old : Byte) : Byte :=
  let kept := match e.status with
    | some d => mergeBits statUndescribed old d
    | none => old
  kept ||| bitsIf e.setA1F maskA1F ||| bitsIf e.setA2F maskA2F

/-- An environment step of the peripheral (R52). -/
def envStep (e : EnvStep) (p : Peripheral) : Peripheral :=
  let timed := envTime e.time p.regs
  let controlled := timed.modify ctrlOffset.toNat (envControl e.control)
  ⟨controlled.modify statOffset.toNat (envStatus e), p.ptr⟩

/-- A transaction of another master (R63). -/
def masterTxn (t : MasterTxn) (p : Peripheral) : Peripheral :=
  match t with
  | .write bytes past => acceptWrite past bytes p
  | .read n past => (supply 0 past n p).2

/-- One disturbance: an environment step happens under `ENV = live` only; another master acts only where it may
(`masters`: `OTHER_MASTERS = true`, and not inside a `MemRead` or `MemWrite`, R59 b). -/
def disturbOnce (env : Env) (masters : Bool) (x : Disturbance) (p : Peripheral) : Peripheral :=
  match x with
  | .peripheral e =>
    match env with
    | .storage => p
    | .live => envStep e p
  | .master t => if masters then masterTxn t p else p

/-- Disturbances in order. -/
def disturb (env : Env) (masters : Bool) : List Disturbance → Peripheral → Peripheral
  | [], p => p
  | x :: xs, p => disturb env masters xs (disturbOnce env masters x p)

/-! ## Draws (R17) -/

/-- The `k`-th draw from here on: from the state's own list, then from the opaque stream. -/
def State.upcoming (s : State) (k : Nat) : Draw :=
  match s.draws[k]? with
  | some d => d
  | none => Config.draw (s.drawCount + (k - s.draws.length))

/-- The state after its next draw has been taken. -/
def State.dropDraw (s : State) : State :=
  match s.draws with
  | _ :: ds => { s with draws := ds }
  | [] => { s with drawCount := s.drawCount + 1 }

/-- The state after its next `k` draws have been taken. -/
def State.dropDraws : Nat → State → State
  | 0, s => s
  | k + 1, s => State.dropDraws k s.dropDraw

/-! ## Transfers (R45 to R49) -/

/-- How many bytes a transfer requests (R46, R47). -/
def Transfer.size : Transfer → Nat
  | .address _ => 1
  | .read n => n
  | .store _ v => v.length + 1
  | .storeUpdated _ _ _ => 2

/-- The bytes of a transfer's `BusWrite` (none for a read). -/
def Transfer.bytes (buf : List Byte) : Transfer → List Byte
  | .address a => [a]
  | .read _ => []
  | .store a v => a :: v
  | .storeUpdated a m s => [a, updated (bufByte buf 0) m s]

/-- The call a transfer makes on the transport port: the device address is always 0x68, and `holdBus` is 1 in the
address phase of a read only (R42, R48, R49). -/
def Transfer.call (buf : List Byte) : Transfer → BusCall
  | .address a => .write devAddr [a] true
  | .read n => .read devAddr n
  | .store a v => .write devAddr (Transfer.bytes buf (.store a v)) false
  | .storeUpdated a m s => .write devAddr (Transfer.bytes buf (.storeUpdated a m s)) false

/-- Whether a transfer is the first of its `MemRead` or `MemWrite`: another master may act before it, and may not act
before the data phase of a read (R59 b, R63). -/
def Transfer.opensTransaction : Transfer → Bool
  | .read _ => false
  | .address _ => true
  | .store _ _ => true
  | .storeUpdated _ _ _ => true

/-- A call is made on the transport port. -/
def issue (c : BusCall) (s : State) : State := { s with bus := s.bus ++ [c] }

/-- The first `e` bytes of a transfer reach the peripheral, or are taken from it; with the bytes the block then holds
(R46, R47, R50, R51). -/
def carry (tr : Transfer) (buf : List Byte) (d : Draw) (e : Nat) (p : Peripheral) : List Byte × Peripheral :=
  match tr with
  | .read _ => supply d.stray d.ptrPast e p
  | .address a => (buf, acceptWrite d.ptrPast ((Transfer.bytes buf (.address a)).take e) p)
  | .store a v => (buf, acceptWrite d.ptrPast ((Transfer.bytes buf (.store a v)).take e) p)
  | .storeUpdated a m v => (buf, acceptWrite d.ptrPast ((Transfer.bytes buf (.storeUpdated a m v)).take e) p)

/-- The transfers of `MemRead(a, n)`: the address, then the data (R48). -/
def memRead (a : Byte) (n : Nat) : List Transfer := [.address a, .read n]

/-- The transfer of `MemWrite(a, n, v)` (R49). -/
def memWrite (a : Byte) (v : List Byte) : List Transfer := [.store a v]

/-- The transfers of the micro-sequence `Update(a, m, s)` (R102). -/
def update (a m s : Byte) : List Transfer := memRead a 1 ++ [.storeUpdated a m s]

/-! ## Responses and exceptions (R72, R178 to R183) -/

/-- The response is produced: the block is idle again and holds nothing of the command (R21, R22). -/
def respond (r : Response) (s : State) : State := { s with response := some r, busy := none, command := none }

/-- TAKING AN EXCEPTION. It ends the command and is its response; it saves no state, changes no mode and transfers
control nowhere, and transfers already made keep their effect (R16, R178 to R180). There is no return from it: the block
takes the next command as after any other (R183). -/
def raise (x : Exception) (s : State) : State := respond (.raised x) s

/-- A command begins: the host has taken the last response, and nothing of an earlier command remains (R21, R23). -/
def begin (s : State) : State := { s with response := none, bus := [], busy := none }

/-! ## Running the transfers of a command (R22, R61, R178, R216) -/

/-- Make the transfers in order. Each is issued (unless `issued` says that it already is), the environment draws, and
then: with no answer the command waits, in progress, and DESIGN CHOICE no byte of the transfer has taken effect yet
(R216 is silent; notes/assumptions/13.md); with the requested count the transfer took effect whole and the
next follows; with any other count the drawn prefix took effect and `TransportFailure` is raised. After the last
transfer the environment may act once more (`after`, R52). -/
def run (fin : Finish) : List Transfer → List Byte → List Disturbance → Bool → State → State
  | [], buf, after, _, s =>
    respond (.ok (fin.result buf)) { s with per := disturb s.env s.otherMasters after s.per }
  | tr :: rest, buf, _, issued, s =>
    let d := s.upcoming 0
    let p := disturb s.env (s.otherMasters && tr.opensTransaction) d.before s.per
    let s₁ := (if issued then s else issue (tr.call buf) s).dropDraw
    match d.count with
    | none => { s₁ with per := p, busy := some ⟨tr :: rest, buf, fin⟩ }
    | some c =>
      if c = tr.size then
        let r := carry tr buf d tr.size p
        run fin rest r.1 d.after false { s₁ with per := r.2 }
      else
        let q := (carry tr buf d (min d.reached tr.size) p).2
        raise .transportFailure { s₁ with per := disturb s.env s.otherMasters d.after q }

/-- A command of Tier B starts: its transfers are run from the first. -/
def start (todo : List Transfer) (fin : Finish) (s : State) : State := run fin todo [] [] false (begin s)

/-- A command that waits for an answer goes on. -/
def resume (p : InProgress) (s : State) : State := run p.fin p.todo p.buf [] true s

/-- A command of Tier A: no transfer, status `OK` (R3). -/
def complete (results : Slots) (s : State) : State := respond (.ok results) (begin s)

/-- An illegal command word: no transfer, nothing changes, status `IllegalCommand` (R177). -/
def rejectCommand (s : State) : State := raise .illegalCommand (begin s)

/-- A register-access command at an offset above 0x0F has no meaning (R55). -/
def atOffset (a : Byte) (s : State) : Host.Outcome State Fault Refusal :=
  if offsetInMap a then .next s else .refused (.offsetAboveTop a)

/-! ## Reset of the codec block (R43, R44, R200, R201) -/

/-- What the transfer in flight did when a reset cuts its command off: as a failure at that point would, a drawn prefix
of it took effect (R44, R46). -/
def abandon (p : InProgress) (s : State) : State :=
  match p.todo with
  | [] => s
  | tr :: _ =>
    let d := s.upcoming 0
    let q := disturb s.env (s.otherMasters && tr.opensTransaction) d.before s.per
    let r := (carry tr p.buf d (min d.reached tr.size) q).2
    { s.dropDraw with per := disturb s.env s.otherMasters d.after r }

/-- The block's reset: it is idle, and the peripheral keeps what it holds. A command that was in progress is cut off and
gets no response (R44, R200, R201). -/
def resetBlock (s : State) : State :=
  let s₁ := match s.busy with
    | some p => abandon p s
    | none => s
  { s₁ with command := none, busy := none, response := none, bus := [] }

/-! ## The command port (R23) -/

/-- The host's next input has been taken; a command word is held while its command runs. -/
def State.takeInput (w : Option Word) (s : State) : State := { s with host := s.host.tail, command := w }

end Sys2Proof.Machine
end

