-- ==== Sys2Proof/Machine/AlarmPacker.lean ====
section
/-! DEFINITION. `PACK_A1`, `PACK_A2`, `SET_ALARM1`, `SET_ALARM2` (spec/43_alarm_packer.md). -/

namespace Sys2Proof.Machine

open Sys2Proof

/-- `PACK_A1.<mode1> second, minute, hour, day` (R144). -/
def execPackA1 (mode : Mode1) (second minute hour day : Byte) (s : State) : Host.Outcome State Fault Refusal :=
  .next (complete (slotsOfBuf (packAlarm1 mode second minute hour day)) s)

/-- `PACK_A2.<mode2> minute, hour, day` (R145). -/
def execPackA2 (mode : Mode2) (minute hour day : Byte) (s : State) : Host.Outcome State Fault Refusal :=
  .next (complete (slotsOfBuf (packAlarm2 mode minute hour day)) s)

/-- `SET_ALARM1.<mode1> second, minute, hour, day`: pack, one block write, then `A1IE` and `INTCN` are set by
read-modify-write (R150). -/
def execSetAlarm1 (mode : Mode1) (second minute hour day : Byte) (s : State) : Host.Outcome State Fault Refusal :=
  .next (start (memWrite alarm1Base (packAlarm1 mode second minute hour day) ++
    update ctrlOffset 0 (maskA1IE ||| maskIntcn)) .nothing s)

/-- `SET_ALARM2.<mode2> minute, hour, day`: pack, one block write, then `A2IE` and `INTCN` are set by
read-modify-write (R151). -/
def execSetAlarm2 (mode : Mode2) (minute hour day : Byte) (s : State) : Host.Outcome State Fault Refusal :=
  .next (start (memWrite alarm2Base (packAlarm2 mode minute hour day) ++
    update ctrlOffset 0 (maskA2IE ||| maskIntcn)) .nothing s)

end Sys2Proof.Machine
end

