-- ==== Sys2Proof/Machine/BcdCodec.lean ====
section
/-! DEFINITION. `ENC_BCD`, `DEC_BCD` (spec/41_bcd_codec.md). -/

namespace Sys2Proof.Machine

open Sys2Proof

/-- `ENC_BCD v` (R112). -/
def execEncBcd (v : Byte) (s : State) : Host.Outcome State Fault Refusal :=
  .next (complete (oneResult (enc v)) s)

/-- `DEC_BCD b` (R113). -/
def execDecBcd (b : Byte) (s : State) : Host.Outcome State Fault Refusal :=
  .next (complete (oneResult (dec b)) s)

end Sys2Proof.Machine
end

