-- ==== Sys2Proof/Machine/ControlStatus.lean ====
section
/-! DEFINITION. `CHECK_FLAG`, `CLEAR_FLAG`, `DISABLE_ALARM`, `EN_32K`, `EN_SQW`, `EN_INT` (spec/44_control_status.md;
masks of spec/30_encoding.md R83). -/

namespace Sys2Proof.Machine

open Sys2Proof

/-- `CHECK_FLAG channel` (R161). -/
def execCheckFlag (c : Channel) (s : State) : Host.Outcome State Fault Refusal :=
  .next (start (memRead statOffset 1) (.flag c) s)

/-- `CLEAR_FLAG channel` (R162). -/
def execClearFlag (c : Channel) (s : State) : Host.Outcome State Fault Refusal :=
  .next (start (update statOffset (channelMask c) 0) .nothing s)

/-- `DISABLE_ALARM channel` (R163). -/
def execDisableAlarm (c : Channel) (s : State) : Host.Outcome State Fault Refusal :=
  .next (start (update ctrlOffset (channelMask c) 0) .nothing s)

/-- `EN_32K on|off` (R164). -/
def execEn32k (on : Bool) (s : State) : Host.Outcome State Fault Refusal :=
  .next (start (if on then update statOffset 0 maskEn32k else update statOffset maskEn32k 0) .nothing s)

/-- `EN_SQW frequency` (R165). -/
def execEnSqw (f : Freq) (s : State) : Host.Outcome State Fault Refusal :=
  .next (start (update ctrlOffset (maskIntcn ||| maskRs) (freqBits f)) .nothing s)

/-- `EN_INT` (R166). -/
def execEnInt (s : State) : Host.Outcome State Fault Refusal :=
  .next (start (update ctrlOffset 0 maskIntcn) .nothing s)

end Sys2Proof.Machine
end

