-- ==== Sys2Proof/Machine/RegisterAccess.lean ====
section
/-! DEFINITION. `RD_REG`, `WR_REG`, `UPD_REG` (spec/40_register_access.md). -/

namespace Sys2Proof.Machine

open Sys2Proof

/-- `RD_REG addr` (R100). -/
def execRdReg (a : Byte) (s : State) : Host.Outcome State Fault Refusal :=
  atOffset a (start (memRead a 1) .byte s)

/-- `WR_REG addr, value` (R101). -/
def execWrReg (a v : Byte) (s : State) : Host.Outcome State Fault Refusal :=
  atOffset a (start (memWrite a [v]) .nothing s)

/-- `UPD_REG addr, clearMask, setBits` (R102). -/
def execUpdReg (a m b : Byte) (s : State) : Host.Outcome State Fault Refusal :=
  atOffset a (start (update a m b) .nothing s)

end Sys2Proof.Machine
end

