-- ==== Sys2Proof/Machine/TimeCodec.lean ====
section
/-! DEFINITION. `ENC_TIME`, `DEC_TIME`, `SET_TIME`, `READ_TIME` (spec/42_time_codec.md). -/

namespace Sys2Proof.Machine

open Sys2Proof

/-- `ENC_TIME second, minute, hour, dayOfWeek, day, month, year` (R126). -/
def execEncTime (second minute hour dayOfWeek day month year : Byte) (s : State) : Host.Outcome State Fault Refusal :=
  .next (complete (encLanes ⟨second, minute, hour, dayOfWeek, day, month, year⟩) s)

/-- `DEC_TIME b0, b1, b2, b3, b4, b5, b6` (R127). -/
def execDecTime (b0 b1 b2 b3 b4 b5 b6 : Byte) (s : State) : Host.Outcome State Fault Refusal :=
  .next (complete (decLanes ⟨b0, b1, b2, b3, b4, b5, b6⟩) s)

/-- `SET_TIME second, minute, hour, dayOfWeek, day, month, year` (R128). -/
def execSetTime (second minute hour dayOfWeek day month year : Byte) (s : State) : Host.Outcome State Fault Refusal :=
  .next (start (memWrite timeBase (slotsList (encLanes ⟨second, minute, hour, dayOfWeek, day, month, year⟩))) .nothing s)

/-- `READ_TIME` (R129). -/
def execReadTime (s : State) : Host.Outcome State Fault Refusal :=
  .next (start (memRead timeBase timeLen) .time s)

end Sys2Proof.Machine
end

