-- ==== Sys2Proof/Machine/Dispatch.lean ====
section
/-! DEFINITION. One arm per constructor of Instr, each one direct call of the instruction's meaning. -/

namespace Sys2Proof.Machine

open Sys2Proof

def exec (i : Instr) (s : State) : Host.Outcome State Fault Refusal :=
  match i with
  | .rdReg a => Sys2Proof.Machine.execRdReg a s
  | .wrReg a v => Sys2Proof.Machine.execWrReg a v s
  | .updReg a m b => Sys2Proof.Machine.execUpdReg a m b s
  | .encBcd v => Sys2Proof.Machine.execEncBcd v s
  | .decBcd b => Sys2Proof.Machine.execDecBcd b s
  | .encTime sec mi h w d mo y => Sys2Proof.Machine.execEncTime sec mi h w d mo y s
  | .decTime b0 b1 b2 b3 b4 b5 b6 => Sys2Proof.Machine.execDecTime b0 b1 b2 b3 b4 b5 b6 s
  | .setTime sec mi h w d mo y => Sys2Proof.Machine.execSetTime sec mi h w d mo y s
  | .readTime => Sys2Proof.Machine.execReadTime s
  | .packA1 mode sec mi h d => Sys2Proof.Machine.execPackA1 mode sec mi h d s
  | .packA2 mode mi h d => Sys2Proof.Machine.execPackA2 mode mi h d s
  | .setAlarm1 mode sec mi h d => Sys2Proof.Machine.execSetAlarm1 mode sec mi h d s
  | .setAlarm2 mode mi h d => Sys2Proof.Machine.execSetAlarm2 mode mi h d s
  | .checkFlag c => Sys2Proof.Machine.execCheckFlag c s
  | .clearFlag c => Sys2Proof.Machine.execClearFlag c s
  | .disableAlarm c => Sys2Proof.Machine.execDisableAlarm c s
  | .en32k on => Sys2Proof.Machine.execEn32k on s
  | .enSqw f => Sys2Proof.Machine.execEnSqw f s
  | .enInt => Sys2Proof.Machine.execEnInt s

end Sys2Proof.Machine
end

