-- ==== Sys2Proof/Machine/Step.lean ====
section
/-! DEFINITION. One step of the machine: a command in progress goes on, or the host's next input is taken
(spec/10_state.md R20 to R23, R44; spec/60_exceptions.md R175 to R183). -/

namespace Sys2Proof.Machine

open Sys2Proof

/-- One step. A reset by the host is taken at any time; a command word only when the block is idle (R23), and it is run
to its response unless the transport leaves a transfer unanswered. With nothing to do the block waits. -/
def step (s : State) : Host.Outcome State Fault Refusal :=
  match s.host with
  | .reset :: _ => .next (resetBlock (s.takeInput s.command))
  | .command w :: _ =>
    match s.busy with
    | some p => .next (resume p s)
    | none =>
      match decode w with
      | .ok i => exec i (s.takeInput (some w))
      | .error _ => .next (rejectCommand (s.takeInput (some w)))
  | [] =>
    match s.busy with
    | some p => .next (resume p s)
    | none => .next s

/-- The command word the host presents next is `w` (the bits above `nbits` are 0), and the block is idle to take it. -/
def State.withFetchWord (s : State) (nbits w : Nat) : State :=
  { s with host := .command (BitVec.ofNat 64 (w % 2 ^ nbits)) :: s.host, busy := none, command := none }

end Sys2Proof.Machine
end

