-- ==== Sys2Proof/Safety.lean ====
section
/-! DEFINITION. What claims about the machine are said in: the predicates of spec/00_scope.md R18, the setting of the
document's own properties (`ENV = storage`, `OTHER_MASTERS = false`, R10), how many bytes each transfer of a command
requests (spec/20_memory.md R67, spec/60_exceptions.md R176), which registers a command writes (R58), the state a finished
command leaves, and the invariant every step keeps. -/

namespace Sys2Proof

/-! ## The transfers and the registers of each command -/

/-- How many bytes each transfer of a command requests, in order (R67, R176); no transfer for Tier A. -/
def Instr.requested : Instr → List Nat
  | .rdReg .. => [1, 1]
  | .wrReg .. => [2]
  | .updReg .. => [1, 1, 2]
  | .encBcd .. => []
  | .decBcd .. => []
  | .encTime .. => []
  | .decTime .. => []
  | .setTime .. => [8]
  | .readTime => [1, 7]
  | .packA1 .. => []
  | .packA2 .. => []
  | .setAlarm1 .. => [5, 1, 1, 2]
  | .setAlarm2 .. => [4, 1, 1, 2]
  | .checkFlag .. => [1, 1]
  | .clearFlag .. => [1, 1, 2]
  | .disableAlarm .. => [1, 1, 2]
  | .en32k .. => [1, 1, 2]
  | .enSqw .. => [1, 1, 2]
  | .enInt => [1, 1, 2]

/-- The bytes of each `MemRead` a command makes when nothing fails, in order (R67). -/
def Instr.memReads : Instr → List Nat
  | .rdReg .. => [1]
  | .wrReg .. => []
  | .updReg .. => [1]
  | .encBcd .. => []
  | .decBcd .. => []
  | .encTime .. => []
  | .decTime .. => []
  | .setTime .. => []
  | .readTime => [7]
  | .packA1 .. => []
  | .packA2 .. => []
  | .setAlarm1 .. => [1]
  | .setAlarm2 .. => [1]
  | .checkFlag .. => [1]
  | .clearFlag .. => [1]
  | .disableAlarm .. => [1]
  | .en32k .. => [1]
  | .enSqw .. => [1]
  | .enInt => [1]

/-- The bytes of each `MemWrite` a command makes when nothing fails, in order (R67). -/
def Instr.memWrites : Instr → List Nat
  | .rdReg .. => []
  | .wrReg .. => [1]
  | .updReg .. => [1]
  | .encBcd .. => []
  | .decBcd .. => []
  | .encTime .. => []
  | .decTime .. => []
  | .setTime .. => [7]
  | .readTime => []
  | .packA1 .. => []
  | .packA2 .. => []
  | .setAlarm1 .. => [4, 1]
  | .setAlarm2 .. => [3, 1]
  | .checkFlag .. => []
  | .clearFlag .. => [1]
  | .disableAlarm .. => [1]
  | .en32k .. => [1]
  | .enSqw .. => [1]
  | .enInt => [1]

/-- The offsets a command writes (R58). -/
def Instr.written : Instr → List Nat
  | .rdReg .. => []
  | .wrReg a _ => [a.toNat]
  | .updReg a _ _ => [a.toNat]
  | .encBcd .. => []
  | .decBcd .. => []
  | .encTime .. => []
  | .decTime .. => []
  | .setTime .. => [0x00, 0x01, 0x02, 0x03, 0x04, 0x05, 0x06]
  | .readTime => []
  | .packA1 .. => []
  | .packA2 .. => []
  | .setAlarm1 .. => [0x07, 0x08, 0x09, 0x0A, 0x0E]
  | .setAlarm2 .. => [0x0B, 0x0C, 0x0D, 0x0E]
  | .checkFlag .. => []
  | .clearFlag .. => [0x0F]
  | .disableAlarm .. => [0x0E]
  | .en32k .. => [0x0F]
  | .enSqw .. => [0x0E]
  | .enInt => [0x0E]

/-- The operations that are exactly one `Update(a, m, s)`, with their constants (R83, R160). -/
def Instr.updateArgs : Instr → Option (Byte × Byte × Byte)
  | .rdReg .. => none
  | .wrReg .. => none
  | .updReg a m v => some (a, m, v)
  | .encBcd .. => none
  | .decBcd .. => none
  | .encTime .. => none
  | .decTime .. => none
  | .setTime .. => none
  | .readTime => none
  | .packA1 .. => none
  | .packA2 .. => none
  | .setAlarm1 .. => none
  | .setAlarm2 .. => none
  | .checkFlag .. => none
  | .clearFlag c => some (0x0F, 1#8 <<< c.sel.toNat, 0x00)
  | .disableAlarm c => some (0x0E, 1#8 <<< c.sel.toNat, 0x00)
  | .en32k on => if on then some (0x0F, 0x00, 0x08) else some (0x0F, 0x08, 0x00)
  | .enSqw f => some (0x0E, 0x1C, f.sel.zeroExtend 8 <<< 3)
  | .enInt => some (0x0E, 0x00, 0x04)

end Sys2Proof

namespace Sys2Proof.Machine

open Sys2Proof

/-! ## Operand predicates (R18) -/

/-- `InRange99(v)`. -/
abbrev inRange99 (v : Byte) : Prop := v.toNat ≤ 99

/-- `ValidBCD(b)`: both nibbles are decimal digits. -/
abbrev validBcd (b : Byte) : Prop := b.toNat / 16 ≤ 9 ∧ b.toNat % 16 ≤ 9

/-- `ValidCalendar`, over the operands of `ENC_TIME` in their order. -/
abbrev validCalendar (second minute hour dayOfWeek day month year : Byte) : Prop :=
  second.toNat ≤ 59 ∧ minute.toNat ≤ 59 ∧ hour.toNat ≤ 23 ∧ (1 ≤ dayOfWeek.toNat ∧ dayOfWeek.toNat ≤ 7) ∧
    (1 ≤ day.toNat ∧ day.toNat ≤ 31) ∧ (1 ≤ month.toNat ∧ month.toNat ≤ 12) ∧ year.toNat ≤ 99

/-- `ValidAlarm2`: day, hour and minute in their ranges, day 0 admitted. -/
abbrev validAlarm2 (minute hour day : Byte) : Prop := minute.toNat ≤ 59 ∧ hour.toNat ≤ 23 ∧ day.toNat ≤ 31

/-- `ValidAlarm1`: as `ValidAlarm2`, with a second. -/
abbrev validAlarm1 (second minute hour day : Byte) : Prop := second.toNat ≤ 59 ∧ validAlarm2 minute hour day

/-! ## The setting of a run -/

/-- The setting of every property of the document's §8 (R10): the peripheral is plain storage and no other master
acts. -/
abbrev State.quiet (s : State) : Prop := s.env = .storage ∧ s.otherMasters = false

/-- The next transfers are answered with these counts. -/
abbrev State.answered (s : State) (counts : List Nat) : Prop :=
  ∀ k (h : k < counts.length), (s.upcoming k).count = some (counts[k] : Int)

/-- A call on the transport port is a `BusWrite`. -/
def BusCall.isWrite : BusCall → Bool
  | .write _ _ _ => true
  | .read _ _ => false

/-- The device address a call carries. -/
def BusCall.dev : BusCall → Byte
  | .write d _ _ => d
  | .read d _ => d

/-- How many bytes a call requests (R46, R47). -/
def BusCall.size : BusCall → Nat
  | .write _ bytes _ => bytes.length
  | .read _ length => length

/-- The bytes of the `MemRead` whose data phase a call is (R48). -/
def BusCall.memRead? : BusCall → Option Nat
  | .write _ _ _ => none
  | .read _ length => some length

/-- The data bytes of the `MemWrite` a call is: a write that does not hold the bus (R49). -/
def BusCall.memWrite? : BusCall → Option Nat
  | .write _ bytes false => some (bytes.length - 1)
  | .write _ _ true => none
  | .read _ _ => none

/-- The state a command leaves with its response: `n` draws taken, the calls it made, the peripheral as given; the host's
inputs, the parameters and everything else as before, and nothing of the command left in the block. -/
def State.finished (s : State) (n : Nat) (calls : List BusCall) (r : Response) (per : Peripheral) : State :=
  { s with
    command := none, busy := none, response := some r, bus := calls, per := per,
    draws := s.draws.drop n, drawCount := s.drawCount + (n - s.draws.length) }

/-- Whichever of its transfers reports another count than requested, the command makes no transfer after it and answers
`TransportFailure` with no data (R176, R178). -/
abbrev failsAtAnyTransfer (i : Instr) : Prop :=
  ∀ (s : State) (k : Nat) (c : Int), (hk : k < i.requested.length) → s.answered (i.requested.take k) →
    (s.upcoming k).count = some c → c ≠ (i.requested[k] : Int) →
    ∃ t, exec i s = .next t ∧ t.response = some (.raised .transportFailure) ∧
      t.bus.map BusCall.size = i.requested.take (k + 1)

/-- The register map that the data phase of a `MemRead` meets, if its address phase is the `k`-th transfer from here and
the peripheral before it is `p`: other masters may act before the address phase, and between the two phases the
environment alone (R52, R59 b, R63). -/
abbrev State.mapAtRead (s : State) (k : Nat) (p : Peripheral) : Memory :=
  (disturb s.env false (s.upcoming (k + 1)).before (disturb s.env s.otherMasters (s.upcoming k).before p)).regs

/-- The same state with one more draw `d` ahead of its `k`-th one. -/
def State.insertDraw (s : State) (k : Nat) (d : Draw) : State :=
  { s with
    draws := (List.range k).map s.upcoming ++ d :: s.draws.drop k
    drawCount := s.drawCount + (k - s.draws.length) }

/-- The same state with another sequence of draws ahead of it. -/
def State.withDraws (s : State) (draws : List Draw) (drawCount : Nat) : State :=
  { s with draws := draws, drawCount := drawCount }

/-! ## The invariant -/

/-- A transfer stays inside the register map (R55). -/
def Transfer.inMap : Transfer → Bool
  | .address a => offsetInMap a
  | .read n => n ≤ timeLen
  | .store a v => a.toNat + v.length ≤ regTop + 1
  | .storeUpdated a _ _ => offsetInMap a

/-- A command in progress has one to four transfers still to make (R64), all inside the map (R55). -/
def InProgress.ok (p : InProgress) : Bool :=
  1 ≤ p.todo.length && p.todo.length ≤ 4 && p.todo.all Transfer.inMap

/-- What the block holds: between commands no command word (R21), and while a command is in progress no response
(R22, R216). -/
def State.blockOk (s : State) : Bool :=
  match s.busy with
  | none => s.command.isNone
  | some p => s.response.isNone && p.ok

/-- The invariant: the register map has its one form, with each of the sixteen registers (R26), and the block holds what
it may hold. -/
abbrev State.Inv (s : State) : Prop := s.per.regs.wf ∧ s.blockOk = true

end Sys2Proof.Machine
end

