-- ==== Sys2Proof/Certificates/Slice0/Obligations.lean ====
section
/-! DEFINITION. The statements for the provers. Unless a docstring says otherwise a rule cited is a rule of spec/, and a
statement holds for every draw of the environment that meets its hypotheses. The calls on the transport port are read from
the record `State.bus` (notes/assumptions/6.md), and a pointer that passes 0x0F holds a drawn value (5.md): these are the
model's, and no rule is cited for them. -/

open Sys2Proof Sys2Proof.Machine

/-! ## The command and response words -/

/-- A few words written out from the layout of R70 and the operation codes of R84 decode to the commands they stand
for (spec/95_test_vectors.md sections 1 and 2). -/
def Obligations.WrittenWordsDecode : Prop :=
  decode 0x0000000000000E01 = .ok (.rdReg 0x0E) ∧
  decode 0x00000000101C0E03 = .ok (.updReg 0x0E 0x1C 0x10) ∧
  decode 0xFFFFFFFFFFFF1904 = .ok (.encBcd 25) ∧
  decode 0x190A0C010E1E0006 = .ok (.encTime 0 30 14 1 12 10 25) ∧
  decode 0x0000000000001E2C = .ok (.setAlarm1 .secondsMatch 30 0 0 0) ∧
  decode 0x000000000F072D6B = .ok (.packA2 .dateHourMinuteMatch 45 7 15) ∧
  decode 0x0000000000000052 = .ok (.enSqw .hz4096) ∧
  decode 0x000000000000004E = .error (.reservedSel 0x0E 2) ∧
  decode 0x0000000000000014 = .error (.reservedOp 0x14)

/-- Decoding an encoded command gives it back, for every command and every operand value. -/
def Obligations.DecodeOfEncodeIsTheCommand : Prop :=
  ∀ i : Instr, decode (encode i) = .ok i

/-- R70: where the fields of a command word stand. -/
def Obligations.CommandWordLayout : Prop :=
  ∀ w : Word,
    (opField w).toNat = w.toNat % 2 ^ 5 ∧ (selField w).toNat = w.toNat / 2 ^ 5 % 2 ^ 3 ∧
    (opcodeField w).toNat = (selField w).toNat * 32 + (opField w).toNat ∧
    (slotFields w).b0.toNat = w.toNat / 2 ^ 8 % 2 ^ 8 ∧ (slotFields w).b1.toNat = w.toNat / 2 ^ 16 % 2 ^ 8 ∧
    (slotFields w).b2.toNat = w.toNat / 2 ^ 24 % 2 ^ 8 ∧ (slotFields w).b3.toNat = w.toNat / 2 ^ 32 % 2 ^ 8 ∧
    (slotFields w).b4.toNat = w.toNat / 2 ^ 40 % 2 ^ 8 ∧ (slotFields w).b5.toNat = w.toNat / 2 ^ 48 % 2 ^ 8 ∧
    (slotFields w).b6.toNat = w.toNat / 2 ^ 56 % 2 ^ 8 ∧
    packWord (opcodeField w) (slotFields w) = w

/-- R84: a word spells a command exactly when its opcode byte is one of the 44, and the command is the one the operation
code and the selector name. -/
def Obligations.CommandIsDecodedFromItsOpcodeByte : Prop :=
  (∀ w : Word, (∃ i, decode w = .ok i) ↔ (opcodeField w).toNat ∈ legalOpcodeBytes) ∧
  (∀ (w : Word) (i : Instr), decode w = .ok i → i.op = opField w ∧ i.sel = selField w) ∧
  legalOpcodeBytes.length = 44 ∧ legalOpcodeBytes.Nodup

/-- R87: an operand byte a command does not use is ignored; the command is what the used bits say, and only that. -/
def Obligations.UnusedOperandBytesAreIgnored : Prop :=
  (∀ (w : Word) (i : Instr), decode w = .ok i → encode i = w &&& i.usedMask) ∧
  (∀ (w w' : Word) (i : Instr), decode w = .ok i → w' &&& i.usedMask = w &&& i.usedMask → decode w' = .ok i)

/-- R181: a response is `OK` with data or an exception with no data, and under an exception all seven result bytes are
zero; the status byte tells them apart. -/
def Obligations.FailureResponsesCarryNoData : Prop :=
  (∀ r : Response, opcodeField r.word = r.status ∧ slotFields r.word = r.slots) ∧
  (∀ r : Response, r.status = 0x00 ↔ ∃ results, r = .ok results) ∧
  (∀ r : Response, r.status = 0x01 ↔ r = .raised .transportFailure) ∧
  (∀ r : Response, r.status = 0x02 ↔ r = .raised .illegalCommand) ∧
  (∀ r : Response, r.status ≠ 0x00 → r.slots = ⟨0, 0, 0, 0, 0, 0, 0⟩)

/-- The line a command is written as assembles to that command, and the pseudo-instruction `SET_ALARM` expands to
`SET_ALARM1` or `SET_ALARM2` (spec/30_encoding.md section 5). -/
def Obligations.AssemblerLinesStandForTheirCommands : Prop :=
  (∀ i : Instr, assemble i.line = some i) ∧
  (∀ (m : Mode1) (s mi h d : Byte),
    assemble ⟨"SET_ALARM", none, [.num 1, .num d.toNat, .num h.toNat, .num mi.toNat, .num s.toNat, .word m.name]⟩ =
      some (.setAlarm1 m s mi h d)) ∧
  (∀ (m : Mode2) (mi h d : Byte),
    assemble ⟨"SET_ALARM", none, [.num 2, .num d.toNat, .num h.toNat, .num mi.toNat, .word m.name]⟩ =
      some (.setAlarm2 m mi h d)) ∧
  (∀ (m : Mode2) (s mi h d : Byte),
    assemble ⟨"SET_ALARM", none, [.num 2, .num d.toNat, .num h.toNat, .num mi.toNat, .num s.toNat, .word m.name]⟩ = none)

/-! ## The step, illegal commands, reset -/

/-- An idle block takes the host's next command word and runs the command it decodes to; and, the model's choice
(notes/assumptions/9.md, 10.md), a step of an idle block with nothing from the host changes nothing. -/
def Obligations.StepRunsTheDecodedCommand : Prop :=
  (∀ (s : State) (w : Word) (rest : List HostInput) (i : Instr),
    s.busy = none → s.host = .command w :: rest → decode w = .ok i →
    step s = exec i { s with host := rest, command := some w }) ∧
  (∀ s : State, s.busy = none → s.host = [] → step s = .next s)

/-- R177: a word whose opcode byte is not one of the 44 answers `IllegalCommand`; no transfer is made, nothing else
changes, and no legal command answers so. -/
def Obligations.IllegalCommandChangesNothing : Prop :=
  (∀ (s : State) (w : Word) (rest : List HostInput),
    s.busy = none → s.host = .command w :: rest → (opcodeField w).toNat ∉ legalOpcodeBytes →
    step s = .next { s with
      host := rest, command := none, busy := none, response := some (.raised .illegalCommand), bus := [] }) ∧
  (∀ (i : Instr) (s t : State), exec i s = .next t → t.response ≠ some (.raised .illegalCommand))

/-- After its reset the block is idle, and it makes no transfer by itself: with nothing from the host it stays idle, and the
first thing it does is to run the first command word (spec/70_reset_and_hazards.md section 1). That a reset leaves the
registers and the pointer as they are is deduced (notes/assumptions/2.md), and that the host has presented nothing when a
run begins is the model's choice (notes/assumptions/10.md). -/
def Obligations.ResetLeavesTheBlockIdle : Prop :=
  (∀ (s : State) (rest : List HostInput), s.busy = none → s.host = .reset :: rest →
    step s = .next { s with host := rest, command := none, busy := none, response := none, bus := [] }) ∧
  (∀ s : State, s.busy = none → s.host = [] → ∃ t, step s = .next t ∧
    t.bus = s.bus ∧ t.busy = none ∧ t.command = s.command ∧ t.response = s.response) ∧
  (State.reset.busy = none ∧ State.reset.command = none ∧ State.reset.response = none ∧ State.reset.bus = [] ∧
    State.reset.host = []) ∧
  (∀ (w : Word) (i : Instr), decode w = .ok i →
    step (State.reset.withFetchWord 64 w.toNat) = exec i { State.reset with command := some w })

/-- R44: a reset that cuts a command off leaves the peripheral exactly as a transport failure at that point would (any
count other than the requested one), and produces no response. In the model a reset lands in a command while a transfer is
unanswered (notes/assumptions/4.md). -/
def Obligations.ResetCutsACommandOffLikeAFailure : Prop :=
  ∀ (s : State) (p : InProgress) (tr : Transfer) (todo : List Transfer) (d : Draw) (ds : List Draw)
    (rest : List HostInput) (c : Int),
    s.busy = some p → p.todo = tr :: todo → s.draws = d :: ds → s.host = .reset :: rest → c ≠ tr.size →
    ∃ t u, step s = .next t ∧
      step { s with host := [], draws := { d with count := some c } :: ds } = .next u ∧
      t.per = u.per ∧ u.response = some (.raised .transportFailure) ∧
      t.response = none ∧ t.busy = none ∧ t.command = none ∧ t.bus = [] ∧ t.host = rest

/-- Every step keeps the invariant: each of the sixteen registers is there, an idle block holds nothing of a command, and
a command in progress has one to four transfers still to make, all inside the map, and no response. -/
def Obligations.EveryStepKeepsTheInvariant : Prop :=
  ∀ s t : State, s.Inv → step s = .next t → t.Inv

/-- The invariant holds right after reset. -/
def Obligations.ResetMeetsTheInvariant : Prop := State.reset.Inv

/-- The two open parameters are fixed for a run (they are fields of State by the model's choice, notes/assumptions/3.md). -/
def Obligations.NoStepChangesTheParameters : Prop :=
  ∀ s t : State, step s = .next t → t.env = s.env ∧ t.otherMasters = s.otherMasters

/-- A command is refused exactly when it names an offset above 0x0F; neither a command nor a step ends in a fault (that
`Fault` is empty is the model's choice, notes/assumptions/7.md); and no transfer that `exec` makes goes outside the offsets
0x00 to 0x0F: every write begins with an offset of the map and its data stays inside, and every read follows the address
phase that names where it begins, and stays inside (spec/20_memory.md section 4). -/
def Obligations.OnlyOffsetsAboveTheMapAreRefused : Prop :=
  (∀ (i : Instr) (s : State) (r : Refusal), exec i s = .refused r →
    ∃ a : Byte, r = .offsetAboveTop a ∧ 0x0F < a.toNat ∧
      (i = .rdReg a ∨ (∃ v, i = .wrReg a v) ∨ (∃ m v, i = .updReg a m v))) ∧
  (∀ (a m v : Byte) (s : State), 0x0F < a.toNat →
    exec (.rdReg a) s = .refused (.offsetAboveTop a) ∧ exec (.wrReg a v) s = .refused (.offsetAboveTop a) ∧
    exec (.updReg a m v) s = .refused (.offsetAboveTop a)) ∧
  (∀ (i : Instr) (s : State) (f : Fault), exec i s ≠ .fault f ∧ step s ≠ .fault f) ∧
  (∀ (i : Instr) (s t : State), exec i s = .next t →
    (∀ (d : Byte) (bytes : List Byte) (hold : Bool), BusCall.write d bytes hold ∈ t.bus →
      ∃ a data, bytes = a :: data ∧ a.toNat ≤ 0x0F ∧ a.toNat + data.length ≤ 16) ∧
    (∀ (d : Byte) (n : Nat) (before after : List BusCall), t.bus = before ++ .read d n :: after →
      ∃ earlier a, before = earlier ++ [.write d [a] true] ∧ a.toNat + n ≤ 16))

/-- R42: every transfer names the one device address 0x68, and no step can make it another. -/
def Obligations.EveryTransferNamesDevice68 : Prop :=
  ∀ s t : State, (∀ c ∈ s.bus, c.dev = 0x68) → step s = .next t → ∀ c ∈ t.bus, c.dev = 0x68

/-- Nothing of an earlier command reaches a later one, and nothing of a command is left once its response is there
(spec/10_state.md section 2). That the response and the record of calls stay until then is the model's choice
(notes/assumptions/6.md). -/
def Obligations.NothingLeaksBetweenCommands : Prop :=
  (∀ (i : Instr) (s : State) (r : Option Response) (b : List BusCall) (p : Option InProgress),
    exec i { s with response := r, bus := b, busy := p } = exec i s) ∧
  (∀ (i : Instr) (s t : State) (r : Response), exec i s = .next t → t.response = some r →
    t.busy = none ∧ t.command = none)

/-- No command depends on the value the pointer had before it (spec/10_state.md section 4), whatever the environment and
other masters do. -/
def Obligations.NoCommandDependsOnThePointer : Prop :=
  ∀ (i : Instr) (s : State) (q : Byte) (t u : State),
    exec i s = .next t → exec i { s with per := ⟨s.per.regs, q⟩ } = .next u →
    t.response = u.response ∧ t.per.regs = u.per.regs ∧ t.bus = u.bus ∧ t.busy = u.busy

/-- While the transport does not answer, a command waits: no response, no further transfer, no time-out; in the quiet
setting a step of waiting changes nothing but the draw it takes (spec/70_reset_and_hazards.md section 2). That waiting takes
a step and a draw, and that nothing of the transfer has taken effect yet, is the model's choice (notes/assumptions/1.md,
4.md, 13.md). -/
def Obligations.UnansweredTransferKeepsTheCommandWaiting : Prop :=
  (∀ (i : Instr) (s : State) (k : Nat), i.wellFormed = true → k < i.requested.length →
    s.answered (i.requested.take k) → (s.upcoming k).count = none →
    ∃ t p, exec i s = .next t ∧ t.busy = some p ∧ t.response = none ∧ t.bus.length = k + 1 ∧
      p.todo.length = i.requested.length - k) ∧
  (∀ (s : State) (p : InProgress), s.quiet → s.busy = some p → p.todo ≠ [] → (∀ rest, s.host ≠ .reset :: rest) →
    (s.upcoming 0).count = none →
    step s = .next { s with draws := s.draws.drop 1, drawCount := s.drawCount + (1 - s.draws.length) })

/-- In the quiet setting an answer that comes late, at whichever transfer of a command, changes nothing: the command goes on
as if it had come at once. A late answer is the model's draw without a count (notes/assumptions/1.md), here the one more
draw `d` at the `k`-th transfer. -/
def Obligations.LateAnswerChangesNothing : Prop :=
  ∀ (i : Instr) (s : State) (k : Nat) (d : Draw) (t : State),
    i.wellFormed = true → k < i.requested.length → s.quiet → (∀ rest, s.host ≠ .reset :: rest) →
    s.answered (i.requested.take k) → d.count = none →
    exec i (s.insertDraw k d) = .next t → step t = exec i s

/-! ## The BCD encoder and decoder -/

/-- R112: `ENC_BCD` answers the formula's value for all 256 operands, with the three operand classes. -/
def Obligations.EncBcdAnswersTheFormula : Prop :=
  (∀ w : Word, opcodeField w = 0x04 → decode w = .ok (.encBcd (slotFields w).b0)) ∧
  (∀ (s : State) (v : Byte), ∃ r : Byte,
    exec (.encBcd v) s = .next (s.finished 0 [] (.ok ⟨r, 0, 0, 0, 0, 0, 0⟩) s.per) ∧
    r.toNat = (v.toNat / 10 * 16 + v.toNat % 10) % 256 ∧
    (v.toNat ≤ 99 → r.toNat / 16 = v.toNat / 10 ∧ r.toNat % 16 = v.toNat % 10 ∧ validBcd r) ∧
    (100 ≤ v.toNat → v.toNat ≤ 159 → r.toNat / 16 = v.toNat / 10 ∧ r.toNat % 16 = v.toNat % 10 ∧ ¬ validBcd r) ∧
    (160 ≤ v.toNat → r.toNat / 16 = v.toNat / 10 - 16 ∧ r.toNat % 16 = v.toNat % 10 ∧ validBcd r))

/-- R113: `DEC_BCD` answers the formula's value for all 256 operands, at most 165. -/
def Obligations.DecBcdAnswersTheFormula : Prop :=
  (∀ w : Word, opcodeField w = 0x05 → decode w = .ok (.decBcd (slotFields w).b0)) ∧
  (∀ (s : State) (b : Byte), ∃ r : Byte,
    exec (.decBcd b) s = .next (s.finished 0 [] (.ok ⟨r, 0, 0, 0, 0, 0, 0⟩) s.per) ∧
    r.toNat = b.toNat / 16 * 10 + b.toNat % 16 ∧ r.toNat ≤ 165 ∧ (validBcd b → r.toNat ≤ 99))

/-- R114: the round trip, in both directions and over all bytes. -/
def Obligations.BcdRoundTrip : Prop :=
  (∀ (s : State) (v : Byte), ∃ b t r, exec (.encBcd v) s = .next t ∧ t.response = some (.ok ⟨b, 0, 0, 0, 0, 0, 0⟩) ∧
    (∃ u, exec (.decBcd b) t = .next u ∧ u.response = some (.ok ⟨r, 0, 0, 0, 0, 0, 0⟩)) ∧
    (v.toNat ≤ 159 → r = v) ∧ (160 ≤ v.toNat → r.toNat = v.toNat - 160)) ∧
  (∀ (s : State) (b : Byte), ∃ v t r, exec (.decBcd b) s = .next t ∧ t.response = some (.ok ⟨v, 0, 0, 0, 0, 0, 0⟩) ∧
    (∃ u, exec (.encBcd v) t = .next u ∧ u.response = some (.ok ⟨r, 0, 0, 0, 0, 0, 0⟩)) ∧
    (r = b ↔ b.toNat % 16 ≤ 9))

/-! ## The time codec -/

/-- R126: `ENC_TIME` encodes each lane by itself, for all operands, and always answers `OK`. -/
def Obligations.EncTimeEncodesEachLane : Prop :=
  (∀ w : Word, opcodeField w = 0x06 →
    let p := slotFields w
    decode w = .ok (.encTime p.b0 p.b1 p.b2 p.b3 p.b4 p.b5 p.b6)) ∧
  (∀ (s : State) (sec mi h w d mo y : Byte), ∃ r : Slots,
    exec (.encTime sec mi h w d mo y) s = .next (s.finished 0 [] (.ok r) s.per) ∧
    r.b0.toNat = (sec.toNat / 10 * 16 + sec.toNat % 10) % 256 ∧ r.b1.toNat = (mi.toNat / 10 * 16 + mi.toNat % 10) % 256 ∧
    r.b2.toNat = (h.toNat / 10 * 16 + h.toNat % 10) % 256 ∧ r.b3.toNat = (w.toNat / 10 * 16 + w.toNat % 10) % 256 ∧
    r.b4.toNat = (d.toNat / 10 * 16 + d.toNat % 10) % 256 ∧ r.b5.toNat = (mo.toNat / 10 * 16 + mo.toNat % 10) % 256 ∧
    r.b6.toNat = (y.toNat / 10 * 16 + y.toNat % 10) % 256 ∧ (mo.toNat ≤ 79 → r.b5.getLsbD 7 = false))

/-- R127: `DEC_TIME` decodes each lane by itself, the month after its century flag has been masked off, for all operands,
and always answers `OK`. -/
def Obligations.DecTimeMasksTheCenturyFlag : Prop :=
  (∀ w : Word, opcodeField w = 0x07 →
    let p := slotFields w
    decode w = .ok (.decTime p.b0 p.b1 p.b2 p.b3 p.b4 p.b5 p.b6)) ∧
  (∀ (s : State) (b0 b1 b2 b3 b4 b5 b6 : Byte), ∃ r : Slots,
    exec (.decTime b0 b1 b2 b3 b4 b5 b6) s = .next (s.finished 0 [] (.ok r) s.per) ∧
    r.b0.toNat = b0.toNat / 16 * 10 + b0.toNat % 16 ∧ r.b1.toNat = b1.toNat / 16 * 10 + b1.toNat % 16 ∧
    r.b2.toNat = b2.toNat / 16 * 10 + b2.toNat % 16 ∧ r.b3.toNat = b3.toNat / 16 * 10 + b3.toNat % 16 ∧
    r.b4.toNat = b4.toNat / 16 * 10 + b4.toNat % 16 ∧
    r.b5.toNat = b5.toNat % 128 / 16 * 10 + b5.toNat % 16 ∧ r.b5.toNat ≤ 85 ∧
    r.b6.toNat = b6.toNat / 16 * 10 + b6.toNat % 16)

/-- R130: `DEC_TIME` of the results of `ENC_TIME` returns the record, lane by lane; and `SET_TIME` followed by
`READ_TIME` returns every valid record, in the quiet setting with a transport that does not fail. -/
def Obligations.TimeRoundTrip : Prop :=
  (∀ (s t : State) (e : Slots) (sec mi h w d mo y : Byte),
    exec (.encTime sec mi h w d mo y) s = .next t → t.response = some (.ok e) →
    ∃ u r, exec (.decTime e.b0 e.b1 e.b2 e.b3 e.b4 e.b5 e.b6) t = .next u ∧ u.response = some (.ok r) ∧
      (validCalendar sec mi h w d mo y → r = ⟨sec, mi, h, w, d, mo, y⟩) ∧
      (sec.toNat ≤ 159 → r.b0 = sec) ∧ (mi.toNat ≤ 159 → r.b1 = mi) ∧ (h.toNat ≤ 159 → r.b2 = h) ∧
      (w.toNat ≤ 159 → r.b3 = w) ∧ (d.toNat ≤ 159 → r.b4 = d) ∧ (mo.toNat ≤ 79 → r.b5 = mo) ∧
      (80 ≤ mo.toNat → mo.toNat ≤ 159 → r.b5.toNat = mo.toNat - 80) ∧ (y.toNat ≤ 159 → r.b6 = y)) ∧
  (∀ (s t : State) (sec mi h w d mo y : Byte), s.quiet → s.per.regs.wf → validCalendar sec mi h w d mo y →
    s.answered [8, 1, 7] → exec (.setTime sec mi h w d mo y) s = .next t →
    ∃ u, exec .readTime t = .next u ∧ u.response = some (.ok ⟨sec, mi, h, w, d, mo, y⟩))

/-- `SET_TIME`, in the quiet setting with an answered transfer: one write of the seven encoded bytes at 0x00, and
nothing else changes (spec/42_time_codec.md). -/
def Obligations.SetTimeWritesTheEncodedBlock : Prop :=
  ∀ (s : State) (sec mi h w d mo y : Byte), s.quiet → s.per.regs.wf → s.answered [8] →
    let buf := [enc sec, enc mi, enc h, enc w, enc d, enc mo, enc y]
    exec (.setTime sec mi h w d mo y) s =
      .next (s.finished 1 [.write 0x68 (0x00 :: buf) false] (.ok ⟨0, 0, 0, 0, 0, 0, 0⟩)
        ⟨s.per.regs.writeBlock 0x00 buf, 0x07⟩) ∧
    (∀ k < 7, (s.per.regs.writeBlock 0x00 buf).byte? k = buf[k]?) ∧
    (∀ x, 7 ≤ x → (s.per.regs.writeBlock 0x00 buf).byte? x = s.per.regs.byte? x)

/-- `READ_TIME`, in the quiet setting with answered transfers: the seven registers decoded, the century flag masked off,
and no register changes (spec/42_time_codec.md). -/
def Obligations.ReadTimeAnswersTheDecodedBlock : Prop :=
  ∀ (s : State) (b0 b1 b2 b3 b4 b5 b6 : Byte), s.quiet → s.answered [1, 7] →
    s.per.regs.byte? 0 = some b0 → s.per.regs.byte? 1 = some b1 → s.per.regs.byte? 2 = some b2 →
    s.per.regs.byte? 3 = some b3 → s.per.regs.byte? 4 = some b4 → s.per.regs.byte? 5 = some b5 →
    s.per.regs.byte? 6 = some b6 →
    exec .readTime s = .next (s.finished 2 [.write 0x68 [0x00] true, .read 0x68 7]
      (.ok ⟨dec b0, dec b1, dec b2, dec b3, dec b4, dec (b5 &&& 0x7F), dec b6⟩) ⟨s.per.regs, 0x07⟩)

/-- `SET_TIME` whose one transfer fails: the prefix of the block that reached the peripheral is written, in ascending
order, and nothing else (spec/42_time_codec.md). -/
def Obligations.FailedSetTimeWritesAPrefix : Prop :=
  ∀ (s : State) (sec mi h w d mo y : Byte) (c : Int), s.quiet → s.per.regs.wf →
    (s.upcoming 0).count = some c → c ≠ 8 →
    ∃ t, exec (.setTime sec mi h w d mo y) s = .next t ∧ t.response = some (.raised .transportFailure) ∧
      t.bus.length = 1 ∧
      ∀ x, t.per.regs.byte? x =
        if x + 1 < min (s.upcoming 0).reached 8 then [enc sec, enc mi, enc h, enc w, enc d, enc mo, enc y][x]?
        else s.per.regs.byte? x

/-! ## The alarm packer -/

/-- R144: `PACK_A1` answers the four bytes of the alarm-1 block, with the masks as the comparisons of the mode code that the
multiplexer's table amounts to, for all operands; mode codes 6 and 7 are illegal. -/
def Obligations.PackA1AnswersTheAlarmBlock : Prop :=
  (∀ (w : Word) (m : Mode1), (opcodeField w).toNat = m.sel.toNat * 32 + 0x0A →
    decode w = .ok (.packA1 m (slotFields w).b0 (slotFields w).b1 (slotFields w).b2 (slotFields w).b3)) ∧
  (∀ w : Word, opcodeField w = 0xCA ∨ opcodeField w = 0xEA → ∀ i, decode w ≠ .ok i) ∧
  (∀ (s : State) (m : Mode1) (sec mi h d : Byte),
    exec (.packA1 m sec mi h d) s = .next (s.finished 0 [] (.ok
      ⟨enc sec ||| (if m.sel = 0 then 0x80 else 0), enc mi ||| (if m.sel ≤ 1 then 0x80 else 0),
        enc h ||| (if m.sel ≤ 2 then 0x80 else 0),
        enc d ||| (if m.sel ≤ 3 then 0x80 else 0) ||| (if m.sel = 5 then 0x40 else 0), 0, 0, 0⟩) s.per))

/-- R145: `PACK_A2` answers the three bytes of the alarm-2 block, with the masks as the comparisons of the mode code that the
multiplexer's table amounts to, for all operands; mode codes 5, 6 and 7 are illegal. -/
def Obligations.PackA2AnswersTheAlarmBlock : Prop :=
  (∀ (w : Word) (m : Mode2), (opcodeField w).toNat = m.sel.toNat * 32 + 0x0B →
    decode w = .ok (.packA2 m (slotFields w).b0 (slotFields w).b1 (slotFields w).b2)) ∧
  (∀ w : Word, opcodeField w = 0xAB ∨ opcodeField w = 0xCB ∨ opcodeField w = 0xEB → ∀ i, decode w ≠ .ok i) ∧
  (∀ (s : State) (m : Mode2) (mi h d : Byte),
    exec (.packA2 m mi h d) s = .next (s.finished 0 [] (.ok
      ⟨enc mi ||| (if m.sel = 0 then 0x80 else 0), enc h ||| (if m.sel ≤ 1 then 0x80 else 0),
        enc d ||| (if m.sel ≤ 2 then 0x80 else 0) ||| (if m.sel = 4 then 0x40 else 0), 0, 0, 0, 0⟩) s.per))

/-- R147: on operands in their ranges the packed bytes show exactly the mode's table row, and under it the BCD of each
field. -/
def Obligations.AlarmMaskTableFidelity : Prop :=
  (∀ (s t : State) (m : Mode1) (sec mi h d : Byte) (r : Slots), validAlarm1 sec mi h d →
    exec (.packA1 m sec mi h d) s = .next t → t.response = some (.ok r) →
    r.b0.getLsbD 7 = (mux1 m).maskS ∧ r.b1.getLsbD 7 = (mux1 m).maskM ∧ r.b2.getLsbD 7 = (mux1 m).maskH ∧
    r.b3.getLsbD 7 = (mux1 m).maskD ∧ r.b3.getLsbD 6 = (mux1 m).dy ∧
    r.b0 &&& 0x7F = enc sec ∧ r.b1 &&& 0x7F = enc mi ∧ r.b2 &&& 0x7F = enc h ∧ r.b3 &&& 0x3F = enc d) ∧
  (∀ (s t : State) (m : Mode2) (mi h d : Byte) (r : Slots), validAlarm2 mi h d →
    exec (.packA2 m mi h d) s = .next t → t.response = some (.ok r) →
    r.b0.getLsbD 7 = (mux2 m).maskM ∧ r.b1.getLsbD 7 = (mux2 m).maskH ∧
    r.b2.getLsbD 7 = (mux2 m).maskD ∧ r.b2.getLsbD 6 = (mux2 m).dy ∧
    r.b0 &&& 0x7F = enc mi ∧ r.b1 &&& 0x7F = enc h ∧ r.b2 &&& 0x3F = enc d)

/-- R146: for which field values the plain or collides with the mask bit and with the day/date bit, and that it never
does on operands in their ranges; a mode's 1 bits are always present. -/
def Obligations.FieldValuesThatReachTheFlagBits : Prop :=
  (∀ v : Byte, (enc v).getLsbD 7 = true ↔ (80 ≤ v.toNat ∧ v.toNat ≤ 159) ∨ 240 ≤ v.toNat) ∧
  (∀ v : Byte, (enc v).getLsbD 6 = true ↔
    (40 ≤ v.toNat ∧ v.toNat ≤ 79) ∨ (120 ≤ v.toNat ∧ v.toNat ≤ 159) ∨ (200 ≤ v.toNat ∧ v.toNat ≤ 239)) ∧
  (∀ (v : Byte) (m : Bool), (enc v).getLsbD 7 = true → (alarmByte v m).getLsbD 7 = true) ∧
  (∀ (v : Byte) (m dy : Bool), ((enc v).getLsbD 7 = true → (alarmDayByte v m dy).getLsbD 7 = true) ∧
    ((enc v).getLsbD 6 = true → (alarmDayByte v m dy).getLsbD 6 = true)) ∧
  (∀ (v : Byte) (dy : Bool), (alarmByte v true).getLsbD 7 = true ∧ (alarmDayByte v true dy).getLsbD 7 = true ∧
    (alarmDayByte v dy true).getLsbD 6 = true) ∧
  (∀ s mi h d : Byte, validAlarm1 s mi h d → (enc s).getLsbD 7 = false ∧ (enc mi).getLsbD 7 = false ∧
    (enc h).getLsbD 7 = false ∧ (enc d).getLsbD 7 = false ∧ (enc d).getLsbD 6 = false ∧
    enc s ≤ 0x59 ∧ enc mi ≤ 0x59 ∧ enc h ≤ 0x23 ∧ enc d ≤ 0x31) ∧
  packAlarm1 .dateHourMinuteSecondMatch 80 0 0 0 = [0x80, 0x00, 0x00, 0x00] ∧
  packAlarm1 .dateHourMinuteSecondMatch 0 0 0 40 = [0x00, 0x00, 0x00, 0x40]

/-- `SET_ALARM1`, in the quiet setting with answered transfers: the packed block at 0x07 in one write, then control bits 0
and 2 set by read-modify-write, and nothing else (spec/43_alarm_packer.md). -/
def Obligations.SetAlarm1WritesTheBlockAndEnables : Prop :=
  ∀ (s : State) (m : Mode1) (sec mi h d old : Byte), s.quiet → s.per.regs.wf → s.answered [5, 1, 1, 2] →
    s.per.regs.byte? 0x0E = some old →
    let buf := [enc sec ||| (if m.sel = 0 then 0x80 else 0), enc mi ||| (if m.sel ≤ 1 then 0x80 else 0),
      enc h ||| (if m.sel ≤ 2 then 0x80 else 0),
      enc d ||| (if m.sel ≤ 3 then 0x80 else 0) ||| (if m.sel = 5 then 0x40 else 0)]
    exec (.setAlarm1 m sec mi h d) s =
      .next (s.finished 4
        [.write 0x68 (0x07 :: buf) false, .write 0x68 [0x0E] true, .read 0x68 1, .write 0x68 [0x0E, old ||| 0x05] false]
        (.ok ⟨0, 0, 0, 0, 0, 0, 0⟩) ⟨(s.per.regs.writeBlock 0x07 buf).write 0x0E (old ||| 0x05), 0x0F⟩)

/-- `SET_ALARM2`, in the quiet setting with answered transfers: the packed block at 0x0B in one write, then control bits 1
and 2 set by read-modify-write, and nothing else (spec/43_alarm_packer.md). -/
def Obligations.SetAlarm2WritesTheBlockAndEnables : Prop :=
  ∀ (s : State) (m : Mode2) (mi h d old : Byte), s.quiet → s.per.regs.wf → s.answered [4, 1, 1, 2] →
    s.per.regs.byte? 0x0E = some old →
    let buf := [enc mi ||| (if m.sel = 0 then 0x80 else 0), enc h ||| (if m.sel ≤ 1 then 0x80 else 0),
      enc d ||| (if m.sel ≤ 2 then 0x80 else 0) ||| (if m.sel = 4 then 0x40 else 0)]
    exec (.setAlarm2 m mi h d) s =
      .next (s.finished 4
        [.write 0x68 (0x0B :: buf) false, .write 0x68 [0x0E] true, .read 0x68 1, .write 0x68 [0x0E, old ||| 0x06] false]
        (.ok ⟨0, 0, 0, 0, 0, 0, 0⟩) ⟨(s.per.regs.writeBlock 0x0B buf).write 0x0E (old ||| 0x06), 0x0F⟩)

/-- What a failed `SET_ALARM1` or `SET_ALARM2` leaves, at each of its points of failure, and that the control
update alone finishes the work (spec/43_alarm_packer.md). -/
def Obligations.FailedSetAlarmLeavesWhatWasDone : Prop :=
  ∀ (i : Instr) (base : Nat) (buf : List Byte) (v : Byte) (s : State) (old : Byte),
    ((∃ m sec mi h d, i = .setAlarm1 m sec mi h d ∧ base = 0x07 ∧ buf = packAlarm1 m sec mi h d ∧ v = 0x05) ∨
      (∃ m mi h d, i = .setAlarm2 m mi h d ∧ base = 0x0B ∧ buf = packAlarm2 m mi h d ∧ v = 0x06)) →
    s.quiet → s.per.regs.wf → s.per.regs.byte? 0x0E = some old →
    (∀ c : Int, (s.upcoming 0).count = some c → c ≠ buf.length + 1 →
      ∃ t, exec i s = .next t ∧ t.response = some (.raised .transportFailure) ∧ t.bus.length = 1 ∧
        ∀ x, t.per.regs.byte? x =
          if base ≤ x ∧ x - base + 1 < min (s.upcoming 0).reached (buf.length + 1) then buf[x - base]?
          else s.per.regs.byte? x) ∧
    (∀ (k : Nat) (c : Int), k = 1 ∨ k = 2 → s.answered ([buf.length + 1, 1].take k) →
      (s.upcoming k).count = some c → c ≠ 1 →
      ∃ t, exec i s = .next t ∧ t.response = some (.raised .transportFailure) ∧ t.bus.length = k + 1 ∧
        t.per.regs = s.per.regs.writeBlock base buf ∧ t.per.regs.byte? 0x0E = some old) ∧
    (∀ c : Int, s.answered [buf.length + 1, 1, 1] → (s.upcoming 3).count = some c → c ≠ 2 →
      ∃ t, exec i s = .next t ∧ t.response = some (.raised .transportFailure) ∧ t.bus.length = 4 ∧
        t.per.regs = if 2 ≤ (s.upcoming 3).reached then (s.per.regs.writeBlock base buf).write 0x0E (old ||| v)
          else s.per.regs.writeBlock base buf) ∧
    (∀ (t : State) (regs : Memory) (b : Byte), t.quiet → t.per.regs = regs → regs.byte? 0x0E = some b →
      b = old ∨ b = old ||| v → t.answered [1, 1, 2] →
      ∃ u, exec (.updReg 0x0E 0x00 v) t = .next u ∧ u.response = some (.ok ⟨0, 0, 0, 0, 0, 0, 0⟩) ∧
        u.per.regs = regs.write 0x0E (old ||| v))

/-! ## Register access -/

/-- `RD_REG` (spec/40_register_access.md). In the quiet setting with answered transfers it answers the byte, and no register changes; when a
transfer fails it stops there, and no register has changed either; and in every setting the byte is the register's value at
the moment of the read, after what the environment did. The last clause speaks of other masters too, and so rests on the duty of
the transport that no master acts between the two phases (notes/assumptions/12.md). -/
def Obligations.RdRegAnswersTheRegister : Prop :=
  (∀ w : Word, opcodeField w = 0x01 → decode w = .ok (.rdReg (slotFields w).b0)) ∧
  (∀ (s : State) (a b : Byte), s.quiet → a.toNat ≤ 0x0F → s.answered [1, 1] → s.per.regs.byte? a.toNat = some b →
    exec (.rdReg a) s = .next (s.finished 2 [.write 0x68 [a] true, .read 0x68 1] (.ok ⟨b, 0, 0, 0, 0, 0, 0⟩)
      ⟨s.per.regs, if a = 0x0F then (s.upcoming 1).ptrPast else a + 1⟩)) ∧
  (∀ a : Byte, a.toNat ≤ 0x0F → failsAtAnyTransfer (.rdReg a)) ∧
  (∀ (s t : State) (a : Byte), s.quiet → exec (.rdReg a) s = .next t → t.per.regs = s.per.regs) ∧
  (∀ (s : State) (a b : Byte), a.toNat ≤ 0x0F → s.answered [1, 1] →
    (s.mapAtRead 0 s.per).byte? a.toNat = some b →
    ∃ t, exec (.rdReg a) s = .next t ∧ t.response = some (.ok ⟨b, 0, 0, 0, 0, 0, 0⟩))

/-- R101: `WR_REG`. In the quiet setting with an answered transfer the register holds the value in all eight bits, and
nothing else changes; when the transfer fails the register is its old value or the new one, whole, by the drawn prefix,
and nothing else has changed. -/
def Obligations.WrRegWritesTheRegister : Prop :=
  (∀ w : Word, opcodeField w = 0x02 → decode w = .ok (.wrReg (slotFields w).b0 (slotFields w).b1)) ∧
  (∀ (s : State) (a v : Byte), s.quiet → a.toNat ≤ 0x0F → s.answered [2] →
    exec (.wrReg a v) s = .next (s.finished 1 [.write 0x68 [a, v] false] (.ok ⟨0, 0, 0, 0, 0, 0, 0⟩)
      ⟨s.per.regs.write a.toNat v, if a = 0x0F then (s.upcoming 0).ptrPast else a + 1⟩) ∧
    (s.per.regs.wf → (s.per.regs.write a.toNat v).byte? a.toNat = some v) ∧
    (∀ x, x ≠ a.toNat → (s.per.regs.write a.toNat v).byte? x = s.per.regs.byte? x)) ∧
  (∀ a v : Byte, a.toNat ≤ 0x0F → failsAtAnyTransfer (.wrReg a v)) ∧
  (∀ (s : State) (a v : Byte) (c : Int), s.quiet → a.toNat ≤ 0x0F → (s.upcoming 0).count = some c → c ≠ 2 →
    ∃ t, exec (.wrReg a v) s = .next t ∧ t.response = some (.raised .transportFailure) ∧
      t.per.regs = if 2 ≤ (s.upcoming 0).reached then s.per.regs.write a.toNat v else s.per.regs)

/-- `UPD_REG`, in the quiet setting with answered transfers: `(old & ~clearMask) | setBits` is written back, and nothing
else changes (spec/40_register_access.md). -/
def Obligations.UpdRegWritesTheUpdatedByte : Prop :=
  ∀ (s : State) (a m v old : Byte), s.quiet → a.toNat ≤ 0x0F → s.answered [1, 1, 2] →
    s.per.regs.byte? a.toNat = some old →
    let new := (old &&& ~~~m) ||| v
    exec (.updReg a m v) s =
      .next (s.finished 3 [.write 0x68 [a] true, .read 0x68 1, .write 0x68 [a, new] false]
        (.ok ⟨0, 0, 0, 0, 0, 0, 0⟩)
        ⟨s.per.regs.write a.toNat new, if a = 0x0F then (s.upcoming 2).ptrPast else a + 1⟩)

/-- The laws of the update formula, bit by bit, and the one read and one write that are always made
(spec/40_register_access.md): whatever the environment does, the byte written follows by the formula from the byte that the
data phase of the read meets; in the quiet setting the byte read is the register's and the byte written is what it then
holds. Where other masters act, it rests on the duty of the transport that none acts between the two phases of the read
(notes/assumptions/12.md). -/
def Obligations.UpdateFormulaLaws : Prop :=
  ∀ (s : State) (a m v : Byte), a.toNat ≤ 0x0F → s.per.regs.wf → s.answered [1, 1, 2] →
    ∃ t old new, exec (.updReg a m v) s = .next t ∧ t.response = some (.ok ⟨0, 0, 0, 0, 0, 0, 0⟩) ∧
      t.bus = [.write 0x68 [a] true, .read 0x68 1, .write 0x68 [a, new] false] ∧
      (s.mapAtRead 0 s.per).byte? a.toNat = some old ∧
      new = (old &&& ~~~m) ||| v ∧
      (∀ k : Nat, k < 8 → (v.getLsbD k = true → new.getLsbD k = true) ∧
        (v.getLsbD k = false → m.getLsbD k = true → new.getLsbD k = false) ∧
        (v.getLsbD k = false → m.getLsbD k = false → new.getLsbD k = old.getLsbD k)) ∧
      (m = 0x00 → v = 0x00 → new = old) ∧ (m = 0xFF → new = v) ∧
      (s.quiet → s.per.regs.byte? a.toNat = some old ∧ t.per.regs.byte? a.toNat = some new)

/-- What a failed `UPD_REG`, or another operation that is one `Update(a, m, s)`, leaves: if a phase of the read
fails, the register as it was and no write transfer; if the write fails, the old byte or the new one, whole, by the drawn
prefix (spec/40_register_access.md). -/
def Obligations.FailedUpdateLeavesOldOrNew : Prop :=
  ∀ (i : Instr) (s : State) (a m v old : Byte), i.updateArgs = some (a, m, v) → s.quiet → a.toNat ≤ 0x0F →
    s.per.regs.byte? a.toNat = some old →
    (∀ (k : Nat) (c : Int), k = 0 ∨ k = 1 → s.answered ([1].take k) → (s.upcoming k).count = some c → c ≠ 1 →
      ∃ t, exec i s = .next t ∧ t.response = some (.raised .transportFailure) ∧
        t.per.regs = s.per.regs ∧ t.bus = [.write 0x68 [a] true, .read 0x68 1].take (k + 1)) ∧
    (∀ c : Int, s.answered [1, 1] → (s.upcoming 2).count = some c → c ≠ 2 →
      ∃ t, exec i s = .next t ∧ t.response = some (.raised .transportFailure) ∧
        t.per.regs = if 2 ≤ (s.upcoming 2).reached then s.per.regs.write a.toNat ((old &&& ~~~m) ||| v)
          else s.per.regs)

/-- A register changed between the read and the write of an update, `UPD_REG` or another operation that is one
`Update(a, m, s)`, is overwritten in all eight bits with the value computed from the stale byte, whatever the environment and
other masters did (spec/40_register_access.md). -/
def Obligations.UpdateOverwritesWhatHappenedInBetween : Prop :=
  ∀ (i : Instr) (s : State) (a m v old : Byte), i.updateArgs = some (a, m, v) → a.toNat ≤ 0x0F → s.per.regs.wf →
    s.answered [1, 1, 2] → s.per.regs.byte? a.toNat = some old →
    (s.upcoming 0).before = [] → (s.upcoming 1).before = [] → (s.upcoming 2).after = [] →
    ∃ t, exec i s = .next t ∧ t.response = some (.ok ⟨0, 0, 0, 0, 0, 0, 0⟩) ∧
      t.per.regs.byte? a.toNat = some ((old &&& ~~~m) ||| v)

/-- No other master acts inside a `MemRead` (spec/20_memory.md section 5), for every command that makes one: what the block
reads is what the registers hold after the acts before the address phase and, between the two phases, the steps of the
environment alone; an act of a master drawn before the data phase has no part in it. It rests on the duty of the transport
stated there (notes/assumptions/12.md). -/
def Obligations.NoMasterActsInsideARead : Prop :=
  (∀ (s : State) (a b : Byte), a.toNat ≤ 0x0F → s.answered [1, 1] → (s.mapAtRead 0 s.per).byte? a.toNat = some b →
    ∃ t, exec (.rdReg a) s = .next t ∧ t.response = some (.ok ⟨b, 0, 0, 0, 0, 0, 0⟩)) ∧
  (∀ (s : State) (c : Channel) (b : Byte), s.answered [1, 1] → (s.mapAtRead 0 s.per).byte? 0x0F = some b →
    ∃ t, exec (.checkFlag c) s = .next t ∧
      t.response = some (.ok ⟨if b.getLsbD c.sel.toNat then 1 else 0, 0, 0, 0, 0, 0, 0⟩)) ∧
  (∀ (s : State) (b0 b1 b2 b3 b4 b5 b6 : Byte), s.answered [1, 7] →
    (∀ k < 7, (s.mapAtRead 0 s.per).byte? k = [b0, b1, b2, b3, b4, b5, b6][k]?) →
    ∃ t, exec .readTime s = .next t ∧
      t.response = some (.ok ⟨dec b0, dec b1, dec b2, dec b3, dec b4, dec (b5 &&& 0x7F), dec b6⟩)) ∧
  (∀ (i : Instr) (s : State) (a m v old : Byte), i.updateArgs = some (a, m, v) → a.toNat ≤ 0x0F →
    s.answered [1, 1, 2] → (s.mapAtRead 0 s.per).byte? a.toNat = some old →
    ∃ t, exec i s = .next t ∧ t.response = some (.ok ⟨0, 0, 0, 0, 0, 0, 0⟩) ∧
      t.bus = [.write 0x68 [a] true, .read 0x68 1, .write 0x68 [a, (old &&& ~~~m) ||| v] false]) ∧
  (∀ (i : Instr) (base : Byte) (buf : List Byte) (s : State) (v old : Byte),
    ((∃ m sec mi h d, i = .setAlarm1 m sec mi h d ∧ base = 0x07 ∧ buf = packAlarm1 m sec mi h d ∧ v = 0x05) ∨
      (∃ m mi h d, i = .setAlarm2 m mi h d ∧ base = 0x0B ∧ buf = packAlarm2 m mi h d ∧ v = 0x06)) →
    s.answered [buf.length + 1, 1, 1, 2] →
    (s.mapAtRead 1 (acceptWrite (s.upcoming 0).ptrPast (base :: buf)
      (disturb s.env s.otherMasters (s.upcoming 0).before s.per))).byte? 0x0E = some old →
    ∃ t, exec i s = .next t ∧ t.response = some (.ok ⟨0, 0, 0, 0, 0, 0, 0⟩) ∧
      t.bus = [.write 0x68 (base :: buf) false, .write 0x68 [0x0E] true, .read 0x68 1,
        .write 0x68 [0x0E, old ||| v] false])

/-! ## Control and status -/

/-- R161: `CHECK_FLAG`. In the quiet setting with answered transfers it answers 1 or 0 as the channel's flag is; when a
transfer fails it answers `TransportFailure`; and no register changes. -/
def Obligations.CheckFlagAnswersTheFlag : Prop :=
  (∀ (w : Word) (c : Channel), (opcodeField w).toNat = c.sel.toNat * 32 + 0x0E → decode w = .ok (.checkFlag c)) ∧
  (∀ (s : State) (c : Channel) (b : Byte), s.quiet → s.answered [1, 1] → s.per.regs.byte? 0x0F = some b →
    exec (.checkFlag c) s = .next (s.finished 2 [.write 0x68 [0x0F] true, .read 0x68 1]
      (.ok ⟨if b.getLsbD c.sel.toNat then 1 else 0, 0, 0, 0, 0, 0, 0⟩) ⟨s.per.regs, (s.upcoming 1).ptrPast⟩)) ∧
  (∀ c : Channel, failsAtAnyTransfer (.checkFlag c)) ∧
  (∀ (s t : State) (c : Channel), s.quiet → exec (.checkFlag c) s = .next t → t.per.regs = s.per.regs)

/-- `CLEAR_FLAG`, in the quiet setting with answered transfers: the channel's flag is cleared, and everything else is as it
was (spec/44_control_status.md). -/
def Obligations.ClearFlagClearsOneFlag : Prop :=
  ∀ (s : State) (c : Channel) (old : Byte), s.quiet → s.answered [1, 1, 2] → s.per.regs.byte? 0x0F = some old →
    let new := old &&& ~~~(1#8 <<< c.sel.toNat)
    exec (.clearFlag c) s =
      .next (s.finished 3 [.write 0x68 [0x0F] true, .read 0x68 1, .write 0x68 [0x0F, new] false]
        (.ok ⟨0, 0, 0, 0, 0, 0, 0⟩) ⟨s.per.regs.write 0x0F new, (s.upcoming 2).ptrPast⟩)

/-- R163: `DISABLE_ALARM`. In the quiet setting with answered transfers the channel's interrupt enable is cleared, and
everything else is as it was, the alarm block and the status byte among it; when a transfer fails it answers
`TransportFailure`. -/
def Obligations.DisableAlarmClearsOneEnable : Prop :=
  (∀ (w : Word) (c : Channel), (opcodeField w).toNat = c.sel.toNat * 32 + 0x10 → decode w = .ok (.disableAlarm c)) ∧
  (∀ (s : State) (c : Channel) (old : Byte), s.quiet → s.answered [1, 1, 2] → s.per.regs.byte? 0x0E = some old →
    let new := old &&& ~~~(1#8 <<< c.sel.toNat)
    exec (.disableAlarm c) s =
      .next (s.finished 3 [.write 0x68 [0x0E] true, .read 0x68 1, .write 0x68 [0x0E, new] false]
        (.ok ⟨0, 0, 0, 0, 0, 0, 0⟩) ⟨s.per.regs.write 0x0E new, 0x0F⟩) ∧
    ctrlA1IE new = (ctrlA1IE old && c.sel.toNat != 0) ∧ ctrlA2IE new = (ctrlA2IE old && c.sel.toNat != 1) ∧
    ctrlIntcn new = ctrlIntcn old ∧ ctrlRs new = ctrlRs old ∧ ctrlHigh new = ctrlHigh old) ∧
  (∀ c : Channel, failsAtAnyTransfer (.disableAlarm c))

/-- `EN_32K`, in the quiet setting with answered transfers: status bit 3 is set or cleared, and everything else is as it
was (spec/44_control_status.md). -/
def Obligations.En32kWritesStatusBit3 : Prop :=
  ∀ (s : State) (on : Bool) (old : Byte), s.quiet → s.answered [1, 1, 2] → s.per.regs.byte? 0x0F = some old →
    let new := if on then old ||| 0x08 else old &&& 0xF7
    exec (.en32k on) s =
      .next (s.finished 3 [.write 0x68 [0x0F] true, .read 0x68 1, .write 0x68 [0x0F, new] false]
        (.ok ⟨0, 0, 0, 0, 0, 0, 0⟩) ⟨s.per.regs.write 0x0F new, (s.upcoming 2).ptrPast⟩)

/-- R165: `EN_SQW`. In the quiet setting with answered transfers `INTCN` is 0, `RS` is the frequency code, and everything
else is as it was; when a transfer fails it answers `TransportFailure`; a selector with bit 2 set is illegal. -/
def Obligations.EnSqwSelectsTheFrequency : Prop :=
  (∀ (w : Word) (f : Freq), (opcodeField w).toNat = f.sel.toNat * 32 + 0x12 → decode w = .ok (.enSqw f)) ∧
  (∀ w : Word, opField w = 0x12 → 4 ≤ (selField w).toNat → ∀ i, decode w ≠ .ok i) ∧
  (∀ (s : State) (f : Freq) (old : Byte), s.quiet → s.answered [1, 1, 2] → s.per.regs.byte? 0x0E = some old →
    ∃ new, exec (.enSqw f) s =
      .next (s.finished 3 [.write 0x68 [0x0E] true, .read 0x68 1, .write 0x68 [0x0E, new] false]
        (.ok ⟨0, 0, 0, 0, 0, 0, 0⟩) ⟨s.per.regs.write 0x0E new, 0x0F⟩) ∧
      new = (old &&& 0xE3) ||| (f.sel.zeroExtend 8 <<< 3) ∧
      ctrlIntcn new = false ∧ (ctrlRs new).toNat = f.sel.toNat ∧ ctrlA1IE new = ctrlA1IE old ∧
      ctrlA2IE new = ctrlA2IE old ∧ ctrlHigh new = ctrlHigh old) ∧
  (∀ f : Freq, failsAtAnyTransfer (.enSqw f))

/-- R166: `EN_INT`. In the quiet setting with answered transfers control bit 2 is set, and everything else is as it was;
when a transfer fails it answers `TransportFailure`. -/
def Obligations.EnIntSetsIntcn : Prop :=
  (∀ w : Word, opcodeField w = 0x13 → decode w = .ok .enInt) ∧
  (∀ (s : State) (old : Byte), s.quiet → s.answered [1, 1, 2] → s.per.regs.byte? 0x0E = some old →
    let new := old ||| 0x04
    exec .enInt s =
      .next (s.finished 3 [.write 0x68 [0x0E] true, .read 0x68 1, .write 0x68 [0x0E, new] false]
        (.ok ⟨0, 0, 0, 0, 0, 0, 0⟩) ⟨s.per.regs.write 0x0E new, 0x0F⟩) ∧
    ctrlIntcn new = true ∧ ctrlRs new = ctrlRs old ∧ ctrlA1IE new = ctrlA1IE old ∧ ctrlA2IE new = ctrlA2IE old ∧
    ctrlHigh new = ctrlHigh old ∧ (ctrlIntcn old = true → new = old)) ∧
  failsAtAnyTransfer .enInt

/-- Which commands write `INTCN`, and to what; every other command that finishes leaves it as it was, `EN_32K` among them
(spec/44_control_status.md). -/
def Obligations.PinModeLastWriterWins : Prop :=
  ∀ (i : Instr) (s t : State) (r : Slots) (old new : Byte), s.quiet → exec i s = .next t → t.response = some (.ok r) →
    s.per.regs.byte? 0x0E = some old → t.per.regs.byte? 0x0E = some new →
    ((i = .enInt ∨ (∃ m sec mi h d, i = .setAlarm1 m sec mi h d) ∨ (∃ m mi h d, i = .setAlarm2 m mi h d)) →
      ctrlIntcn new = true) ∧
    ((∃ f, i = .enSqw f) → ctrlIntcn new = false) ∧
    (∀ v, i = .wrReg 0x0E v → ctrlIntcn new = ctrlIntcn v) ∧
    (∀ m v, i = .updReg 0x0E m v → ctrlIntcn new = (ctrlIntcn v || (ctrlIntcn old && !ctrlIntcn m))) ∧
    ((0x0E ∉ i.written ∨ ∃ c, i = .disableAlarm c) → ctrlIntcn new = ctrlIntcn old)

/-- The lost flag (spec/70_reset_and_hazards.md section 2; spec/95_test_vectors.md P6): under `ENV = live` a flag that the
peripheral sets between the read and the write of `CLEAR_FLAG` or `EN_32K` is lost, whichever the channel and whichever the
flags set, and no failure is reported. -/
def Obligations.ClearFlagCanLoseTheOtherFlag : Prop :=
  ∀ (s : State) (old : Byte) (first second : Bool), s.env = .live → s.otherMasters = false → s.answered [1, 1, 2] →
    (s.upcoming 0).before = [] → (s.upcoming 1).before = [] →
    (s.upcoming 2).before = [.peripheral ⟨none, first, second, none, none⟩] → (s.upcoming 2).after = [] →
    s.per.regs.byte? 0x0F = some old →
    (∃ b, (envStep ⟨none, first, second, none, none⟩ s.per).regs.byte? 0x0F = some b ∧
      b = old ||| (if first then 0x01 else 0x00) ||| (if second then 0x02 else 0x00)) ∧
    (∀ c : Channel, ∃ t new, exec (.clearFlag c) s = .next t ∧ t.response = some (.ok ⟨0, 0, 0, 0, 0, 0, 0⟩) ∧
      t.per.regs.byte? 0x0F = some new ∧ new = old &&& ~~~(1#8 <<< c.sel.toNat) ∧
      (∀ o : Channel, o ≠ c → new.getLsbD o.sel.toNat = old.getLsbD o.sel.toNat)) ∧
    (∀ on : Bool, ∃ t new, exec (.en32k on) s = .next t ∧ t.response = some (.ok ⟨0, 0, 0, 0, 0, 0, 0⟩) ∧
      t.per.regs.byte? 0x0F = some new ∧ new = (if on then old ||| 0x08 else old &&& 0xF7) ∧
      statA1F new = statA1F old ∧ statA2F new = statA2F old)

/-! ## Whole-machine rules -/

/-- R67: the `MemRead`s and `MemWrite`s each command makes when nothing fails, with their bytes, and so its `BusWrite` and
`BusRead` calls; and that it then answers `OK`; whatever the environment and
other masters do in between. -/
def Obligations.TransfersWhenNothingFails : Prop :=
  ∀ (i : Instr) (s : State), i.wellFormed = true → s.answered i.requested →
    ∃ t r, exec i s = .next t ∧ t.response = some (.ok r) ∧
      t.bus.filterMap BusCall.memRead? = i.memReads ∧ t.bus.filterMap BusCall.memWrite? = i.memWrites ∧
      (t.bus.filter BusCall.isWrite).length = i.memReads.length + i.memWrites.length ∧
      (t.bus.filter (fun c => !c.isWrite)).length = i.memReads.length ∧
      t.bus.map BusCall.size = i.requested ∧
      ∀ k, t.upcoming k = s.upcoming (i.requested.length + k)

/-- R178: at the first transfer that does not succeed the command issues no further transfer and answers
`TransportFailure`, with no data; whatever the environment and other masters do. -/
def Obligations.StopAtTheFirstFailure : Prop :=
  ∀ (i : Instr) (s : State) (k : Nat) (c : Int), i.wellFormed = true → (hk : k < i.requested.length) →
    s.answered (i.requested.take k) → (s.upcoming k).count = some c → c ≠ (i.requested[k] : Int) →
    ∃ t, exec i s = .next t ∧ t.response = some (.raised .transportFailure) ∧ t.busy = none ∧
      t.bus.map BusCall.size = i.requested.take (k + 1) ∧ ∀ j, t.upcoming j = s.upcoming (k + 1 + j)

/-- In the quiet setting a command changes no register but the ones it writes, whatever the transport answers (spec/20_memory.md
section 5); a command that writes none changes none. -/
def Obligations.CommandsChangeOnlyTheirRegisters : Prop :=
  ∀ (i : Instr) (s t : State), s.quiet → exec i s = .next t →
    (∀ x, x ∉ i.written → t.per.regs.byte? x = s.per.regs.byte? x) ∧
    (i.written = [] → t.per.regs = s.per.regs) ∧ (i.requested = [] → t.per = s.per) ∧
    t.host = s.host ∧ t.env = s.env ∧ t.otherMasters = s.otherMasters

/-- What an environment step may change and what it may not (spec/20_memory.md section 3): never an alarm register,
control bits 4 to 0, status bit 3 or the pointer, and it never clears a flag; under `ENV = storage` there is none. These
limits are the spec's own assumption (notes/assumptions/12.md). -/
def Obligations.EnvironmentStepsKeepTheirLimits : Prop :=
  (∀ (e : EnvStep) (p : Peripheral) (ms : Bool), disturbOnce .storage ms (.peripheral e) p = p) ∧
  (∀ (e : EnvStep) (p : Peripheral), (envStep e p).ptr = p.ptr ∧ (p.regs.wf → (envStep e p).regs.wf) ∧
    (∀ x, 0x07 ≤ x → x ≤ 0x0D → (envStep e p).regs.byte? x = p.regs.byte? x) ∧
    (∀ old new, p.regs.byte? 0x0E = some old → (envStep e p).regs.byte? 0x0E = some new → new &&& 0x1F = old &&& 0x1F) ∧
    (∀ old new, p.regs.byte? 0x0F = some old → (envStep e p).regs.byte? 0x0F = some new →
      statEn32k new = statEn32k old ∧ statA1F new = (statA1F old || e.setA1F) ∧ statA2F new = (statA2F old || e.setA2F))) ∧
  (∀ (p : Peripheral) (time : Slots) (c st : Byte), p.regs.wf →
    ∃ e, (∀ k < 7, (envStep e p).regs.byte? k = (slotsList time)[k]?) ∧
      (∃ b, (envStep e p).regs.byte? 0x0E = some b ∧ b &&& 0xE0 = c &&& 0xE0) ∧
      (∃ b, (envStep e p).regs.byte? 0x0F = some b ∧ b &&& 0xF4 = st &&& 0xF4))

/-- Without other masters, but with a peripheral that may act by itself at any time it may: a command still changes no
alarm register and none of control bits 4 to 0 and status bit 3 outside the registers it writes, and clears no flag
outside them, whatever the transport answers. It rests on the limits spec/20_memory.md section 3 assumes of an environment
step (notes/assumptions/12.md). -/
def Obligations.LivePeripheralKeepsConfiguration : Prop :=
  ∀ (i : Instr) (s t : State), s.otherMasters = false → exec i s = .next t →
    (∀ x, 0x07 ≤ x → x ≤ 0x0D → x ∉ i.written → t.per.regs.byte? x = s.per.regs.byte? x) ∧
    (∀ old new, 0x0E ∉ i.written → s.per.regs.byte? 0x0E = some old → t.per.regs.byte? 0x0E = some new →
      new &&& 0x1F = old &&& 0x1F) ∧
    (∀ old new, 0x0F ∉ i.written → s.per.regs.byte? 0x0F = some old → t.per.regs.byte? 0x0F = some new →
      statEn32k new = statEn32k old ∧ (statA1F old = true → statA1F new = true) ∧
      (statA2F old = true → statA2F new = true))

/-- What a write transfer and a read transfer do at the peripheral (spec/20_memory.md section 3): the first byte sets the
pointer, each data byte goes to the register at the pointer, which then advances; a read changes no register. -/
def Obligations.TransfersFollowThePointer : Prop :=
  (∀ (past : Byte) (p : Peripheral), acceptWrite past [] p = p) ∧
  (∀ (past a : Byte) (p : Peripheral), acceptWrite past [a] p = ⟨p.regs, a⟩) ∧
  (∀ (past a v : Byte) (data : List Byte) (p : Peripheral),
    let q := acceptWrite past (a :: data) p
    acceptWrite past (a :: data ++ [v]) p =
      ⟨q.regs.write q.ptr.toNat v, if q.ptr.toNat < 0x0F then q.ptr + 1 else past⟩) ∧
  (∀ (stray past : Byte) (n : Nat) (p : Peripheral), (supply stray past n p).2.regs = p.regs) ∧
  (∀ (stray past : Byte) (n : Nat) (p : Peripheral) (b : Byte),
    let q := (supply stray past n p).2
    q.regs.byte? q.ptr.toNat = some b →
    supply stray past (n + 1) p =
      ((supply stray past n p).1 ++ [b], ⟨q.regs, if q.ptr.toNat < 0x0F then q.ptr + 1 else past⟩))

/-- R183, for every command: after an attempt that has answered, failed or not, the block is idle and takes the next
command as it always does; and in the quiet setting running the same command again to `OK` leaves the registers exactly as
a first attempt that succeeds at once would have; and no command begins while another is in progress. -/
def Obligations.RetryLeavesWhatOneSuccessWouldHave : Prop :=
  (∀ (i : Instr) (s t : State) (r : Response), exec i s = .next t → t.response = some r →
    t.busy = none ∧ ∀ (w : Word) (rest : List HostInput) (j : Instr), decode w = .ok j →
      step { t with host := .command w :: rest } = exec j { t with host := rest, command := some w }) ∧
  (∀ (i : Instr) (s t u v : State) (r₀ : Response) (r₁ r₂ : Slots) (draws : List Draw) (n : Nat),
    s.quiet → s.per.regs.wf → exec i s = .next t → t.response = some r₀ →
    exec i t = .next u → u.response = some (.ok r₁) →
    exec i (s.withDraws draws n) = .next v → v.response = some (.ok r₂) →
    u.per.regs = v.per.regs) ∧
  (∀ (s : State) (p : InProgress) (w : Word) (rest : List HostInput), s.busy = some p → s.host = .command w :: rest →
    ∃ t, step s = .next t ∧ t.host = s.host)
end

