-- ==== Sys2Proof/Laws/Codec.lean ====
section
/-! SUPPORT. The combinational operations as numbers and as bits: the BCD formulas (spec/41_bcd_codec.md R111, R113), the
update formula (spec/40_register_access.md R103), and the bits of an encoded byte (spec/43_alarm_packer.md R146). -/

namespace Sys2Proof.Machine

open Sys2Proof

/-! ## BCD -/

theorem enc_toNat (v : Byte) : (enc v).toNat = (v.toNat / 10 * 16 + v.toNat % 10) % 256 := by
  simp [enc]

theorem dec_toNat (b : Byte) : (dec b).toNat = b.toNat / 16 * 10 + b.toNat % 16 := by
  have := b.isLt
  rw [dec, BitVec.toNat_ofNat]
  omega

theorem dec_enc (v : Byte) (h : v.toNat ≤ 159) : dec (enc v) = v := by
  apply BitVec.eq_of_toNat_eq
  rw [dec_toNat, enc_toNat]
  omega

/-! ## The update formula -/

@[simp] theorem updated_keep (old s : Byte) : updated old 0#8 s = old ||| s := by
  have h : ∀ b : Byte, b &&& ~~~0#8 = b := by decide
  rw [updated, h]

@[simp] theorem updated_all (old s : Byte) : updated old 255#8 s = s := by
  have h : ∀ b : Byte, b &&& ~~~255#8 = 0#8 := by decide
  rw [updated, h, BitVec.zero_or]

/-- Setting wins over clearing, and what neither mask names is kept. -/
theorem getLsbD_updated (old m s : Byte) {k : Nat} (hk : k < 8) :
    (updated old m s).getLsbD k = (s.getLsbD k || (old.getLsbD k && !m.getLsbD k)) := by
  simp [updated, hk, Bool.or_comm]

/-- A second update with the same masks changes nothing more. -/
theorem updated_updated (old m s : Byte) : updated (updated old m s) m s = updated old m s := by
  apply BitVec.eq_of_getLsbD_eq
  intro k hk
  simp only [getLsbD_updated _ _ _ hk]
  cases s.getLsbD k <;> cases m.getLsbD k <;> cases old.getLsbD k <;> rfl

end Sys2Proof.Machine
end

