-- ==== Sys2Proof/Laws/State.lean ====
section
/-! SUPPORT. One lemma per field for each update of the state (Ops.lean), so that no later proof unfolds one. -/

namespace Sys2Proof.Machine

open Sys2Proof

/-! ## `issue` -/

@[simp] theorem issue_host (c : BusCall) (s : State) : (issue c s).host = s.host := rfl
@[simp] theorem issue_command (c : BusCall) (s : State) : (issue c s).command = s.command := rfl
@[simp] theorem issue_busy (c : BusCall) (s : State) : (issue c s).busy = s.busy := rfl
@[simp] theorem issue_response (c : BusCall) (s : State) : (issue c s).response = s.response := rfl
@[simp] theorem issue_bus (c : BusCall) (s : State) : (issue c s).bus = s.bus ++ [c] := rfl
@[simp] theorem issue_per (c : BusCall) (s : State) : (issue c s).per = s.per := rfl
@[simp] theorem issue_env (c : BusCall) (s : State) : (issue c s).env = s.env := rfl
@[simp] theorem issue_otherMasters (c : BusCall) (s : State) : (issue c s).otherMasters = s.otherMasters := rfl
@[simp] theorem issue_draws (c : BusCall) (s : State) : (issue c s).draws = s.draws := rfl
@[simp] theorem issue_drawCount (c : BusCall) (s : State) : (issue c s).drawCount = s.drawCount := rfl

/-! ## `respond` -/

@[simp] theorem respond_host (r : Response) (s : State) : (respond r s).host = s.host := rfl
@[simp] theorem respond_command (r : Response) (s : State) : (respond r s).command = none := rfl
@[simp] theorem respond_busy (r : Response) (s : State) : (respond r s).busy = none := rfl
@[simp] theorem respond_response (r : Response) (s : State) : (respond r s).response = some r := rfl
@[simp] theorem respond_bus (r : Response) (s : State) : (respond r s).bus = s.bus := rfl
@[simp] theorem respond_per (r : Response) (s : State) : (respond r s).per = s.per := rfl
@[simp] theorem respond_env (r : Response) (s : State) : (respond r s).env = s.env := rfl
@[simp] theorem respond_otherMasters (r : Response) (s : State) : (respond r s).otherMasters = s.otherMasters := rfl
@[simp] theorem respond_draws (r : Response) (s : State) : (respond r s).draws = s.draws := rfl
@[simp] theorem respond_drawCount (r : Response) (s : State) : (respond r s).drawCount = s.drawCount := rfl

/-! ## `raise` -/

@[simp] theorem raise_host (x : Exception) (s : State) : (raise x s).host = s.host := rfl
@[simp] theorem raise_command (x : Exception) (s : State) : (raise x s).command = none := rfl
@[simp] theorem raise_busy (x : Exception) (s : State) : (raise x s).busy = none := rfl
@[simp] theorem raise_response (x : Exception) (s : State) : (raise x s).response = some (.raised x) := rfl
@[simp] theorem raise_bus (x : Exception) (s : State) : (raise x s).bus = s.bus := rfl
@[simp] theorem raise_per (x : Exception) (s : State) : (raise x s).per = s.per := rfl
@[simp] theorem raise_env (x : Exception) (s : State) : (raise x s).env = s.env := rfl
@[simp] theorem raise_otherMasters (x : Exception) (s : State) : (raise x s).otherMasters = s.otherMasters := rfl
@[simp] theorem raise_draws (x : Exception) (s : State) : (raise x s).draws = s.draws := rfl
@[simp] theorem raise_drawCount (x : Exception) (s : State) : (raise x s).drawCount = s.drawCount := rfl

/-! ## `begin` -/

@[simp] theorem begin_host (s : State) : (begin s).host = s.host := rfl
@[simp] theorem begin_command (s : State) : (begin s).command = s.command := rfl
@[simp] theorem begin_busy (s : State) : (begin s).busy = none := rfl
@[simp] theorem begin_response (s : State) : (begin s).response = none := rfl
@[simp] theorem begin_bus (s : State) : (begin s).bus = [] := rfl
@[simp] theorem begin_per (s : State) : (begin s).per = s.per := rfl
@[simp] theorem begin_env (s : State) : (begin s).env = s.env := rfl
@[simp] theorem begin_otherMasters (s : State) : (begin s).otherMasters = s.otherMasters := rfl
@[simp] theorem begin_draws (s : State) : (begin s).draws = s.draws := rfl
@[simp] theorem begin_drawCount (s : State) : (begin s).drawCount = s.drawCount := rfl

/-! ## `takeInput` -/

@[simp] theorem takeInput_host (w : Option Word) (s : State) : (s.takeInput w).host = s.host.tail := rfl
@[simp] theorem takeInput_command (w : Option Word) (s : State) : (s.takeInput w).command = w := rfl
@[simp] theorem takeInput_busy (w : Option Word) (s : State) : (s.takeInput w).busy = s.busy := rfl
@[simp] theorem takeInput_response (w : Option Word) (s : State) : (s.takeInput w).response = s.response := rfl
@[simp] theorem takeInput_bus (w : Option Word) (s : State) : (s.takeInput w).bus = s.bus := rfl
@[simp] theorem takeInput_per (w : Option Word) (s : State) : (s.takeInput w).per = s.per := rfl
@[simp] theorem takeInput_env (w : Option Word) (s : State) : (s.takeInput w).env = s.env := rfl
@[simp] theorem takeInput_otherMasters (w : Option Word) (s : State) : (s.takeInput w).otherMasters = s.otherMasters := rfl
@[simp] theorem takeInput_draws (w : Option Word) (s : State) : (s.takeInput w).draws = s.draws := rfl
@[simp] theorem takeInput_drawCount (w : Option Word) (s : State) : (s.takeInput w).drawCount = s.drawCount := rfl

/-! ## `dropDraw` -/

@[simp] theorem dropDraw_host (s : State) : s.dropDraw.host = s.host := by
  unfold State.dropDraw; split <;> rfl
@[simp] theorem dropDraw_command (s : State) : s.dropDraw.command = s.command := by
  unfold State.dropDraw; split <;> rfl
@[simp] theorem dropDraw_busy (s : State) : s.dropDraw.busy = s.busy := by
  unfold State.dropDraw; split <;> rfl
@[simp] theorem dropDraw_response (s : State) : s.dropDraw.response = s.response := by
  unfold State.dropDraw; split <;> rfl
@[simp] theorem dropDraw_bus (s : State) : s.dropDraw.bus = s.bus := by
  unfold State.dropDraw; split <;> rfl
@[simp] theorem dropDraw_per (s : State) : s.dropDraw.per = s.per := by
  unfold State.dropDraw; split <;> rfl
@[simp] theorem dropDraw_env (s : State) : s.dropDraw.env = s.env := by
  unfold State.dropDraw; split <;> rfl
@[simp] theorem dropDraw_otherMasters (s : State) : s.dropDraw.otherMasters = s.otherMasters := by
  unfold State.dropDraw; split <;> rfl
@[simp] theorem dropDraw_draws (s : State) : s.dropDraw.draws = s.draws.tail := by
  unfold State.dropDraw; split <;> simp_all
@[simp] theorem dropDraw_drawCount (s : State) :
    s.dropDraw.drawCount = s.drawCount + (1 - s.draws.length) := by
  unfold State.dropDraw; split <;> simp_all

/-- A draw taken, as one record update. -/
theorem dropDraw_eq (s : State) :
    s.dropDraw = { s with draws := s.draws.tail, drawCount := s.drawCount + (1 - s.draws.length) } := by
  unfold State.dropDraw; split <;> simp_all

/-- After a draw has been taken, the later ones come one place earlier. -/
@[simp] theorem upcoming_dropDraw (s : State) (k : Nat) : s.dropDraw.upcoming k = s.upcoming (k + 1) := by
  unfold State.upcoming
  cases h : s.draws with
  | nil => simp [h, Nat.add_assoc, Nat.add_comm 1 k]
  | cons d ds => simp [h]

/-- Which draws come depends only on the two fields that hold them. -/
theorem upcoming_congr {s t : State} (h₁ : t.draws = s.draws) (h₂ : t.drawCount = s.drawCount) (k : Nat) :
    t.upcoming k = s.upcoming k := by
  simp [State.upcoming, h₁, h₂]

end Sys2Proof.Machine
end

