-- ==== Sys2Proof/Laws/Memory.lean ====
section
/-! SUPPORT. Read after write, and the one form of the register map. -/

namespace Sys2Proof.Machine

open Sys2Proof

@[simp] theorem byte?_modify (m : Memory) (a : Nat) (f : Byte → Byte) (x : Nat) :
    (m.modify a f).byte? x = if x = a then (m.byte? x).map f else m.byte? x := by
  induction m with
  | nil => simp [Memory.modify, Memory.byte?]
  | cons c m ih =>
    obtain ⟨k, b⟩ := c
    by_cases hk : k = a <;> by_cases hx : x = a <;> by_cases hkx : k = x <;>
      simp_all [Memory.modify, Memory.byte?]

/-- Read after write. -/
@[simp] theorem byte?_write (m : Memory) (a : Nat) (v : Byte) (x : Nat) :
    (m.write a v).byte? x = if x = a then (m.byte? x).map (fun _ => v) else m.byte? x :=
  byte?_modify m a _ x

@[simp] theorem modify_keys (m : Memory) (a : Nat) (f : Byte → Byte) :
    (m.modify a f).map Prod.fst = m.map Prod.fst := by
  induction m with
  | nil => rfl
  | cons c m ih =>
    obtain ⟨k, b⟩ := c
    by_cases hk : k = a <;> simp [Memory.modify, hk, ih]

@[simp] theorem write_keys (m : Memory) (a : Nat) (v : Byte) : (m.write a v).map Prod.fst = m.map Prod.fst :=
  modify_keys m a _

@[simp] theorem writeBlock_keys (m : Memory) (a : Nat) (v : List Byte) :
    (m.writeBlock a v).map Prod.fst = m.map Prod.fst := by
  induction v generalizing m a with
  | nil => rfl
  | cons b v ih => simp [Memory.writeBlock, ih]

/-- Every memory operation keeps the one form. -/
theorem modify_wf {m : Memory} (h : m.wf) (a : Nat) (f : Byte → Byte) : (m.modify a f).wf := by
  simpa [Memory.wf] using h

theorem write_wf {m : Memory} (h : m.wf) (a : Nat) (v : Byte) : (m.write a v).wf := modify_wf h a _

theorem writeBlock_wf {m : Memory} (h : m.wf) (a : Nat) (v : List Byte) : (m.writeBlock a v).wf := by
  simpa [Memory.wf] using h

/-- The register map after reset has the form. -/
theorem powerOnRegs_wf : State.powerOnRegs.wf := by decide

/-- A block write leaves every offset outside the block alone. -/
theorem byte?_writeBlock_outside (m : Memory) (a : Nat) (v : List Byte) {x : Nat}
    (h : x < a ∨ a + v.length ≤ x) : (m.writeBlock a v).byte? x = m.byte? x := by
  induction v generalizing m a with
  | nil => rfl
  | cons b v ih =>
    simp only [List.length_cons] at h
    rw [Memory.writeBlock, ih _ _ (by omega), byte?_write, if_neg (by omega)]

theorem byte?_isSome_iff (m : Memory) (x : Nat) : (m.byte? x).isSome ↔ x ∈ m.map Prod.fst := by
  induction m with
  | nil => simp [Memory.byte?]
  | cons c m ih =>
    obtain ⟨k, b⟩ := c
    by_cases hk : k = x
    · simp [Memory.byte?, hk]
    · simp only [Memory.byte?, hk, if_false, ih, List.map_cons, List.mem_cons]
      exact ⟨.inr, fun h => h.elim (fun h => absurd h.symm hk) id⟩

/-- In the one form, exactly the offsets 0x00 to 0x0F hold a register. -/
theorem byte?_of_wf {m : Memory} (h : m.wf) {x : Nat} (hx : x ≤ 15) : m.byte? x = some ((m.byte? x).getD 0) := by
  have : (m.byte? x).isSome := by
    rw [byte?_isSome_iff, h]; simp [mapOffsets, regTop]; omega
  obtain ⟨b, hb⟩ := Option.isSome_iff_exists.1 this
  simp [hb]

theorem byte?_writeBlock_isSome (m : Memory) (a : Nat) (v : List Byte) (x : Nat) :
    ((m.writeBlock a v).byte? x).isSome = (m.byte? x).isSome := by
  rw [Bool.eq_iff_iff, byte?_isSome_iff, byte?_isSome_iff, writeBlock_keys]

/-- Inside the block, where there are registers, a block write leaves the block's own bytes. -/
theorem byte?_writeBlock_inside (m : Memory) (a : Nat) (v : List Byte) {x : Nat} (h₁ : a ≤ x) (h₂ : x < a + v.length)
    (h : (m.byte? x).isSome) : (m.writeBlock a v).byte? x = v[x - a]? := by
  induction v generalizing m a with
  | nil => simp at h₂; omega
  | cons b v ih =>
    simp only [List.length_cons] at h₂
    obtain ⟨c, hc⟩ := Option.isSome_iff_exists.1 h
    by_cases hx : x = a
    · subst hx
      rw [Memory.writeBlock, byte?_writeBlock_outside _ _ _ (.inl (by omega)), byte?_write]
      simp [hc]
    · rw [Memory.writeBlock, ih _ _ (by omega) (by omega) (by simp [hx, hc]),
        show x - a = x - (a + 1) + 1 by omega, List.getElem?_cons_succ]

/-- Two maps of the one form with the same bytes are the same map. -/
theorem wf_ext {m n : Memory} (hm : m.wf) (hn : n.wf) (h : ∀ x, m.byte? x = n.byte? x) : m = n := by
  have key : ∀ (l : List Nat) (m n : Memory), l.Nodup → m.map Prod.fst = l → n.map Prod.fst = l →
      (∀ x, Memory.byte? m x = Memory.byte? n x) → m = n := by
    intro l
    induction l with
    | nil => intro m n _ hm hn _; simp_all
    | cons k l ih =>
      intro m n hl hm hn h
      match m, n with
      | [], _ => simp at hm
      | _, [] => simp at hn
      | (k₁, b₁) :: m, (k₂, b₂) :: n =>
        simp only [List.map_cons, List.cons.injEq] at hm hn
        obtain ⟨rfl, hm⟩ := hm
        obtain ⟨rfl, hn⟩ := hn
        have hb := h k₂
        simp only [Memory.byte?, if_true, Option.some.injEq] at hb
        have hnm : k₂ ∉ l := (List.nodup_cons.1 hl).1
        have : m = n := ih m n (List.nodup_cons.1 hl).2 hm hn fun x => by
          by_cases hx : k₂ = x
          · subst hx
            have h₁ : Memory.byte? m k₂ = none := by
              rw [← Option.not_isSome_iff_eq_none, byte?_isSome_iff, hm]; exact hnm
            have h₂ : Memory.byte? n k₂ = none := by
              rw [← Option.not_isSome_iff_eq_none, byte?_isSome_iff, hn]; exact hnm
            rw [h₁, h₂]
          · simpa [Memory.byte?, hx] using h x
        rw [this, hb]
  exact key _ m n (by decide) hm hn h

end Sys2Proof.Machine
end

