-- ==== Sys2Proof/Laws/Peripheral.lean ====
section
/-! SUPPORT. What each operation on the peripheral can do, said once: the pointer, write and read transfers
(spec/20_memory.md R50, R51), environment steps and other masters (R52, R63). -/

namespace Sys2Proof.Machine

open Sys2Proof

/-! ## The pointer -/

theorem nextPtr_toNat {past p : Byte} (h : p.toNat < 15) : (nextPtr past p).toNat = p.toNat + 1 := by
  have h' : p.toNat < regTop := h
  rw [nextPtr, if_pos h']
  bv_omega

/-! ## Write transfers -/

theorem storeBytes_keys (past : Byte) (v : List Byte) (p : Peripheral) :
    (storeBytes past v p).regs.map Prod.fst = p.regs.map Prod.fst := by
  induction v generalizing p with
  | nil => rfl
  | cons b v ih => simp [storeBytes, ih]

theorem storeBytes_wf {p : Peripheral} (h : p.regs.wf) (past : Byte) (v : List Byte) :
    (storeBytes past v p).regs.wf := by
  simpa [Memory.wf, storeBytes_keys] using h

/-- Inside the map, the data bytes of a transfer fill consecutive registers from the pointer on (R50). -/
theorem storeBytes_regs (past : Byte) (v : List Byte) (p : Peripheral) (h : p.ptr.toNat + v.length ≤ 16) :
    (storeBytes past v p).regs = p.regs.writeBlock p.ptr.toNat v := by
  induction v generalizing p with
  | nil => rfl
  | cons b v ih =>
    simp only [List.length_cons] at h
    cases v with
    | nil => rfl
    | cons c v =>
      simp only [List.length_cons] at h ih
      have hp : (nextPtr past p.ptr).toNat = p.ptr.toNat + 1 := nextPtr_toNat (by omega)
      rw [storeBytes, ih _ (by simp only [hp]; omega)]
      simp only [hp, Memory.writeBlock]

/-- While the transfer stays below 0x0F, the pointer ends behind its last byte (R41). -/
theorem storeBytes_ptr (past : Byte) (v : List Byte) (p : Peripheral) (h : p.ptr.toNat + v.length ≤ 15) :
    (storeBytes past v p).ptr = p.ptr + BitVec.ofNat 8 v.length := by
  induction v generalizing p with
  | nil => simp [storeBytes]
  | cons b v ih =>
    simp only [List.length_cons] at h
    have hp : nextPtr past p.ptr = p.ptr + 1 := by
      unfold nextPtr regTop; rw [if_pos (by omega)]
    have hn : (p.ptr + 1).toNat = p.ptr.toNat + 1 := by
      rw [← hp, nextPtr_toNat (by omega)]
    rw [storeBytes, ih _ (by simp only [hp, hn]; omega), hp]
    simp only [List.length_cons, BitVec.ofNat_add]
    rw [BitVec.add_assoc, BitVec.add_comm (1 : Byte)]
    rfl

theorem acceptWrite_wf {p : Peripheral} (h : p.regs.wf) (past : Byte) (v : List Byte) :
    (acceptWrite past v p).regs.wf := by
  cases v with
  | nil => exact h
  | cons a v => exact storeBytes_wf (p := ⟨p.regs, a⟩) h past v

theorem acceptWrite_regs (past a : Byte) (v : List Byte) (p : Peripheral) (h : a.toNat + v.length ≤ 16) :
    (acceptWrite past (a :: v) p).regs = p.regs.writeBlock a.toNat v :=
  storeBytes_regs past v ⟨p.regs, a⟩ h

/-- While a write transfer stays below 0x0F, what it leaves does not depend on what the pointer does past it. -/
theorem acceptWrite_block (past a : Byte) (v : List Byte) (p : Peripheral) (h : a.toNat + v.length ≤ 15) :
    acceptWrite past (a :: v) p = ⟨p.regs.writeBlock a.toNat v, a + BitVec.ofNat 8 v.length⟩ := by
  have e₁ := acceptWrite_regs past a v p (by omega)
  have e₂ := storeBytes_ptr past v ⟨p.regs, a⟩ h
  cases hq : acceptWrite past (a :: v) p
  rw [hq] at e₁
  rw [show storeBytes past v ⟨p.regs, a⟩ = acceptWrite past (a :: v) p from rfl, hq] at e₂
  exact congr (congrArg Peripheral.mk e₁) e₂

/-- The bytes of a write transfer that reach the peripheral do not depend on where the pointer stood, if there is at
least one. -/
theorem acceptWrite_cons_ptr (past a : Byte) (v : List Byte) (m : Memory) (q r : Byte) :
    acceptWrite past (a :: v) ⟨m, q⟩ = acceptWrite past (a :: v) ⟨m, r⟩ := rfl

/-- What a prefix of a write transfer writes: the data bytes after the first byte, as far as the prefix goes (R46, R50). -/
theorem acceptWrite_take_regs (past a : Byte) (v : List Byte) (e : Nat) (p : Peripheral) (h : a.toNat + v.length ≤ 16) :
    (acceptWrite past ((a :: v).take e) p).regs = p.regs.writeBlock a.toNat (v.take (e - 1)) := by
  cases e with
  | zero => rfl
  | succ e =>
    have hl : (v.take e).length ≤ v.length := by simp
    rw [List.take_succ_cons, acceptWrite_regs past a _ p (by omega), Nat.add_sub_cancel]

/-- A prefix of a write transfer changes no register outside the transfer's own. -/
theorem byte?_acceptWrite_take (past a : Byte) (v : List Byte) (e : Nat) (p : Peripheral)
    (h : a.toNat + v.length ≤ 16) {x : Nat} (hx : x < a.toNat ∨ a.toNat + v.length ≤ x) :
    (acceptWrite past ((a :: v).take e) p).regs.byte? x = p.regs.byte? x := by
  cases e with
  | zero => rfl
  | succ e =>
    have hl : (v.take e).length ≤ v.length := by simp
    rw [List.take_succ_cons, acceptWrite_regs past a _ p (by omega)]
    exact byte?_writeBlock_outside _ _ _ (by omega)

/-! ## Read transfers -/

/-- A read transfer changes no register (R51). -/
@[simp] theorem supply_regs (stray past : Byte) (n : Nat) (p : Peripheral) :
    (supply stray past n p).2.regs = p.regs := by
  induction n generalizing p with
  | zero => rfl
  | succ n ih => simp [supply, ih]

@[simp] theorem supply_length (stray past : Byte) (n : Nat) (p : Peripheral) :
    (supply stray past n p).1.length = n := by
  induction n generalizing p with
  | zero => rfl
  | succ n ih => simp [supply, ih]

/-- Inside the map, byte `i` of a read is the register at the pointer plus `i` (R51). -/
theorem supply_byte (stray past : Byte) (n : Nat) (p : Peripheral) (h : p.ptr.toNat + n ≤ 16) {i : Nat} (hi : i < n) :
    (supply stray past n p).1[i]? = some ((p.regs.byte? (p.ptr.toNat + i)).getD stray) := by
  induction n generalizing p i with
  | zero => omega
  | succ n ih =>
    cases i with
    | zero => simp [supply]
    | succ i =>
      have hp : (nextPtr past p.ptr).toNat = p.ptr.toNat + 1 := nextPtr_toNat (by omega)
      simp only [supply, List.getElem?_cons_succ]
      rw [ih _ (by simp only [hp]; omega) (by omega)]
      simp only [hp, Nat.add_assoc, Nat.add_comm 1 i]

/-! ## Environment steps -/

theorem envTime_wf {m : Memory} (h : m.wf) (t : Option Slots) : (envTime t m).wf := by
  cases t with
  | none => exact h
  | some p => exact writeBlock_wf h _ _

theorem envStep_wf {p : Peripheral} (h : p.regs.wf) (e : EnvStep) : (envStep e p).regs.wf :=
  modify_wf (modify_wf (envTime_wf h _) _ _) _ _

@[simp] theorem envStep_ptr (e : EnvStep) (p : Peripheral) : (envStep e p).ptr = p.ptr := rfl

theorem byte?_envTime (t : Option Slots) (m : Memory) {x : Nat} (hx : 7 ≤ x) :
    (envTime t m).byte? x = m.byte? x := by
  cases t with
  | none => rfl
  | some p => exact byte?_writeBlock_outside _ _ _ (.inr (by simpa [slotsList, timeBase] using hx))

/-- An environment step changes no alarm register (R52). -/
theorem byte?_envStep_alarm (e : EnvStep) (p : Peripheral) {x : Nat} (h₁ : 7 ≤ x) (h₂ : x ≤ 13) :
    (envStep e p).regs.byte? x = p.regs.byte? x := by
  have h14 : x ≠ 14 := by omega
  have h15 : x ≠ 15 := by omega
  simp [envStep, h14, h15, byte?_envTime _ _ h₁]

/-- What an environment step does to the control byte (R52). -/
theorem byte?_envStep_ctrl (e : EnvStep) (p : Peripheral) :
    (envStep e p).regs.byte? 14 = (p.regs.byte? 14).map (envControl e.control) := by
  simp [envStep, ctrlOffset, statOffset, byte?_envTime]

/-- What an environment step does to the status byte (R52). -/
theorem byte?_envStep_stat (e : EnvStep) (p : Peripheral) :
    (envStep e p).regs.byte? 15 = (p.regs.byte? 15).map (envStatus e) := by
  simp [envStep, ctrlOffset, statOffset, byte?_envTime]

/-! ## Disturbances -/

theorem masterTxn_wf {p : Peripheral} (h : p.regs.wf) (t : MasterTxn) : (masterTxn t p).regs.wf := by
  cases t with
  | write v past => exact acceptWrite_wf h past v
  | read n past => simpa [masterTxn] using h

theorem disturbOnce_wf {p : Peripheral} (h : p.regs.wf) (env : Env) (ms : Bool) (x : Disturbance) :
    (disturbOnce env ms x p).regs.wf := by
  cases x with
  | peripheral e =>
    cases env with
    | storage => exact h
    | live => exact envStep_wf h e
  | master t =>
    cases ms with
    | false => exact h
    | true => exact masterTxn_wf h t

theorem disturb_wf {p : Peripheral} (h : p.regs.wf) (env : Env) (ms : Bool) (xs : List Disturbance) :
    (disturb env ms xs p).regs.wf := by
  induction xs generalizing p with
  | nil => exact h
  | cons x xs ih => exact ih (disturbOnce_wf h env ms x)

/-- With plain storage and no other master, nothing disturbs the peripheral. -/
@[simp] theorem disturb_storage (xs : List Disturbance) (p : Peripheral) : disturb .storage false xs p = p := by
  induction xs with
  | nil => rfl
  | cons x xs ih => cases x <;> simpa [disturb, disturbOnce] using ih

/-- Without other masters, the pointer is the block's alone (R52). -/
@[simp] theorem disturb_ptr (env : Env) (xs : List Disturbance) (p : Peripheral) :
    (disturb env false xs p).ptr = p.ptr := by
  induction xs generalizing p with
  | nil => rfl
  | cons x xs ih =>
    rw [disturb, ih]
    cases x <;> cases env <;> rfl

/-- The registers after disturbances do not depend on where the pointer was before them. -/
theorem disturb_regs_congr (env : Env) (ms : Bool) (xs : List Disturbance) {p q : Peripheral} (h : p.regs = q.regs) :
    (disturb env ms xs p).regs = (disturb env ms xs q).regs := by
  induction xs generalizing p q with
  | nil => exact h
  | cons x xs ih =>
    apply ih
    cases x with
    | peripheral e => cases env <;> simp [disturbOnce, envStep, h]
    | master t =>
      cases ms with
      | false => exact h
      | true =>
        cases t with
        | write b past => cases b <;> simp [disturbOnce, masterTxn, acceptWrite, h]
        | read n past => simp [disturbOnce, masterTxn, h]

/-- A relation that every environment step keeps is kept by disturbances without other masters. -/
theorem disturb_induct {P : Peripheral → Prop} (h : ∀ e p, P p → P (envStep e p)) (env : Env)
    (xs : List Disturbance) {p : Peripheral} (hp : P p) : P (disturb env false xs p) := by
  induction xs generalizing p with
  | nil => exact hp
  | cons x xs ih =>
    apply ih
    cases x with
    | peripheral e =>
      cases env with
      | storage => exact hp
      | live => exact h e p hp
    | master t => exact hp

end Sys2Proof.Machine
end

