-- ==== Sys2Proof/Laws/Run.lean ====
section
/-! SUPPORT. What running the transfers of a command can do, said once (spec/10_state.md R22, spec/60_exceptions.md R178,
spec/70_reset_and_hazards.md R216): one lemma for each way a transfer ends, what every run keeps, and how far a run gets. -/

namespace Sys2Proof.Machine

open Sys2Proof

/-! ## One transfer -/

/-- The peripheral right before a transfer, after what happens immediately before it. -/
def beforeTransfer (tr : Transfer) (s : State) : Peripheral :=
  disturb s.env (s.otherMasters && tr.opensTransaction) (s.upcoming 0).before s.per

/-- The state once a transfer has been issued and its draw taken. -/
def issued (already : Bool) (tr : Transfer) (buf : List Byte) (s : State) : State :=
  (if already then s else issue (tr.call buf) s).dropDraw

section
variable {fin : Finish} {tr : Transfer} {rest : List Transfer} {buf : List Byte} {after : List Disturbance}
  {al : Bool} {s : State}

theorem run_nil : run fin [] buf after al s =
    respond (.ok (fin.result buf)) { s with per := disturb s.env s.otherMasters after s.per } := rfl

/-- The transport does not answer: the command waits. -/
theorem run_waits (h : (s.upcoming 0).count = none) :
    run fin (tr :: rest) buf after al s =
      { issued al tr buf s with per := beforeTransfer tr s, busy := some ⟨tr :: rest, buf, fin⟩ } := by
  simp [run, h, issued, beforeTransfer]

/-- The requested count: the transfer took effect whole, and the next follows. -/
theorem run_answered (h : (s.upcoming 0).count = some (tr.size : Int)) :
    run fin (tr :: rest) buf after al s =
      run fin rest (carry tr buf (s.upcoming 0) tr.size (beforeTransfer tr s)).1 (s.upcoming 0).after false
        { issued al tr buf s with per := (carry tr buf (s.upcoming 0) tr.size (beforeTransfer tr s)).2 } := by
  simp [run, h, issued, beforeTransfer]

/-- Another count: a prefix took effect, and `TransportFailure` is raised. -/
theorem run_failed {c : Int} (h : (s.upcoming 0).count = some c) (hc : c ≠ tr.size) :
    run fin (tr :: rest) buf after al s =
      raise .transportFailure { issued al tr buf s with
        per := disturb s.env s.otherMasters (s.upcoming 0).after
          (carry tr buf (s.upcoming 0) (min (s.upcoming 0).reached tr.size) (beforeTransfer tr s)).2 } := by
  simp [run, h, hc, issued, beforeTransfer]

/-- A transfer ends in one of three ways. -/
theorem count_cases (tr : Transfer) (s : State) :
    (s.upcoming 0).count = none ∨ (s.upcoming 0).count = some (tr.size : Int) ∨
      ∃ c, (s.upcoming 0).count = some c ∧ c ≠ tr.size := by
  cases h : (s.upcoming 0).count with
  | none => exact .inl rfl
  | some c =>
    by_cases hc : c = tr.size
    · exact .inr (.inl (by rw [hc]))
    · exact .inr (.inr ⟨c, rfl, hc⟩)

@[simp] theorem issued_host : (issued al tr buf s).host = s.host := by cases al <;> simp [issued]
@[simp] theorem issued_command : (issued al tr buf s).command = s.command := by cases al <;> simp [issued]
@[simp] theorem issued_busy : (issued al tr buf s).busy = s.busy := by cases al <;> simp [issued]
@[simp] theorem issued_response : (issued al tr buf s).response = s.response := by cases al <;> simp [issued]
@[simp] theorem issued_per : (issued al tr buf s).per = s.per := by cases al <;> simp [issued]
@[simp] theorem issued_env : (issued al tr buf s).env = s.env := by cases al <;> simp [issued]
@[simp] theorem issued_otherMasters : (issued al tr buf s).otherMasters = s.otherMasters := by cases al <;> simp [issued]
@[simp] theorem issued_draws : (issued al tr buf s).draws = s.draws.tail := by cases al <;> simp [issued]
@[simp] theorem issued_drawCount : (issued al tr buf s).drawCount = s.drawCount + (1 - s.draws.length) := by
  cases al <;> simp [issued]
@[simp] theorem issued_bus : (issued al tr buf s).bus = if al then s.bus else s.bus ++ [tr.call buf] := by
  cases al <;> simp [issued]
@[simp] theorem issued_upcoming (k : Nat) : (issued al tr buf s).upcoming k = s.upcoming (k + 1) := by
  cases al
  · simp only [issued, Bool.false_eq_true, if_false, upcoming_dropDraw]
    exact upcoming_congr rfl rfl _
  · simp [issued]

end

/-- The draws ahead, once a transfer has taken one. -/
theorem next_upcoming (al : Bool) (tr : Transfer) (buf : List Byte) (s : State) (p : Peripheral) (k : Nat) :
    State.upcoming { issued al tr buf s with per := p } k = s.upcoming (k + 1) := by
  rw [← issued_upcoming (al := al) (tr := tr) (buf := buf)]
  exact upcoming_congr rfl rfl _

/-! ## What every run keeps -/

/-- A property of states that disturbances, the run's own transfers, and the block's own bookkeeping all keep holds after
the run. -/
theorem run_preserves {P : State → Prop} (fin : Finish) (todo : List Transfer)
    (hdisturb : ∀ (s : State) (ms : Bool) (xs : List Disturbance), (ms = true → s.otherMasters = true) → P s →
      P { s with per := disturb s.env ms xs s.per })
    (hcarry : ∀ tr ∈ todo, ∀ (buf : List Byte) (d : Draw) (e : Nat) (s : State), P s →
      P { s with per := (carry tr buf d e s.per).2 })
    (hissued : ∀ (tr : Transfer) (buf : List Byte) (al : Bool) (s : State), P s → P (issued al tr buf s))
    (hrespond : ∀ (r : Response) (s : State), P s → P (respond r s))
    (hbusy : ∀ (b : Option InProgress) (s : State), P s → P { s with busy := b })
    (buf : List Byte) (after : List Disturbance) (al : Bool) (s : State) (h : P s) :
    P (run fin todo buf after al s) := by
  induction todo generalizing buf after al s with
  | nil => exact hrespond _ _ (hdisturb s _ _ id h)
  | cons tr rest ih =>
    have hb : P { issued al tr buf s with per := beforeTransfer tr s } := by
      simpa [beforeTransfer] using hdisturb (issued al tr buf s) (s.otherMasters && tr.opensTransaction)
        (s.upcoming 0).before (by simpa using fun h _ => h) (hissued tr buf al s h)
    obtain hc | hc | ⟨c, hc, hne⟩ := count_cases tr s
    · rw [run_waits hc]
      exact hbusy _ _ hb
    · rw [run_answered hc]
      exact ih (fun tr' h' => hcarry tr' (by simp [h'])) _ _ _ _ (hcarry tr (by simp) buf (s.upcoming 0) tr.size _ hb)
    · rw [run_failed hc hne]
      refine hrespond _ _ ?_
      simpa using hdisturb _ s.otherMasters (s.upcoming 0).after (by simp)
        (hcarry tr (by simp) buf (s.upcoming 0) (min (s.upcoming 0).reached tr.size) _ hb)

@[simp] theorem run_host (fin todo buf after al) (s : State) : (run fin todo buf after al s).host = s.host :=
  run_preserves (P := fun t => t.host = s.host) fin todo (by simp) (by simp) (by simp) (by simp) (by simp)
    buf after al s rfl

@[simp] theorem run_env (fin todo buf after al) (s : State) : (run fin todo buf after al s).env = s.env :=
  run_preserves (P := fun t => t.env = s.env) fin todo (by simp) (by simp) (by simp) (by simp) (by simp)
    buf after al s rfl

@[simp] theorem run_otherMasters (fin todo buf after al) (s : State) :
    (run fin todo buf after al s).otherMasters = s.otherMasters :=
  run_preserves (P := fun t => t.otherMasters = s.otherMasters) fin todo (by simp) (by simp) (by simp) (by simp) (by simp)
    buf after al s rfl

theorem carry_wf {p : Peripheral} (h : p.regs.wf) (tr : Transfer) (buf : List Byte) (d : Draw) (e : Nat) :
    (carry tr buf d e p).2.regs.wf := by
  cases tr with
  | read n => simpa [carry] using h
  | address a => exact acceptWrite_wf h _ _
  | store a v => exact acceptWrite_wf h _ _
  | storeUpdated a m v => exact acceptWrite_wf h _ _

theorem run_wf (fin todo buf after al) (s : State) (h : s.per.regs.wf) :
    (run fin todo buf after al s).per.regs.wf :=
  run_preserves (P := fun t => t.per.regs.wf) fin todo (fun _ _ _ _ h => disturb_wf h _ _ _)
    (fun _ _ _ _ _ _ h => carry_wf h _ _ _ _) (fun _ _ _ _ h => by simpa using h) (fun _ _ h => h) (fun _ _ h => h)
    buf after al s h

/-- The offsets a transfer writes. -/
def Transfer.offsets : Transfer → List Nat
  | .address _ => []
  | .read _ => []
  | .store a v => List.range' a.toNat v.length
  | .storeUpdated a _ _ => [a.toNat]

/-- A transfer inside the map changes only the offsets it writes, however far it gets. -/
theorem byte?_carry {tr : Transfer} (h : tr.inMap = true) (buf : List Byte) (d : Draw) (e : Nat) (p : Peripheral)
    {x : Nat} (hx : x ∉ tr.offsets) : (carry tr buf d e p).2.regs.byte? x = p.regs.byte? x := by
  cases tr with
  | address a =>
    have ha : a.toNat ≤ 15 := of_decide_eq_true h
    exact byte?_acceptWrite_take _ a [] e p (by simpa using Nat.le_succ_of_le ha) (by simp; omega)
  | read n => simp [carry]
  | store a v =>
    refine byte?_acceptWrite_take _ a v e p (of_decide_eq_true h) ?_
    simp only [Transfer.offsets, List.mem_range'_1] at hx
    omega
  | storeUpdated a m v =>
    have ha : a.toNat ≤ 15 := of_decide_eq_true h
    refine byte?_acceptWrite_take _ a _ e p (by simp; omega) ?_
    simp only [Transfer.offsets, List.mem_singleton] at hx
    simp only [List.length_singleton]
    omega

/-- A run that starts without a response ends waiting with none, or with a response and an idle block; `IllegalCommand`
is never one. -/
theorem run_response (fin todo buf after al) (s : State) (h : s.response = none) :
    let t := run fin todo buf after al s
    (t.response = none ∧ t.command = s.command ∧ ∃ p, t.busy = some p) ∨
    (t.busy = none ∧ t.command = none ∧
      ((∃ r, t.response = some (.ok r)) ∨ t.response = some (.raised .transportFailure))) := by
  induction todo generalizing buf after al s with
  | nil => exact .inr ⟨rfl, rfl, .inl ⟨_, rfl⟩⟩
  | cons tr rest ih =>
    obtain hc | hc | ⟨c, hc, hne⟩ := count_cases tr s
    · rw [run_waits hc]; exact .inl ⟨by simpa using h, by simp, _, rfl⟩
    · rw [run_answered hc]; simpa using ih _ _ _ _ (by simpa using h)
    · rw [run_failed hc hne]; exact .inr ⟨rfl, rfl, .inr rfl⟩

/-- The block after a run: idle with no command, or waiting with transfers that are a tail of the run's own. -/
theorem run_busy (fin todo buf after al) (s : State) (hb : s.busy = none ∨ todo ≠ []) (p : InProgress)
    (h : (run fin todo buf after al s).busy = some p) : p.todo ≠ [] ∧ p.todo <:+ todo ∧ p.fin = fin := by
  induction todo generalizing buf after al s with
  | nil => simp [run_nil] at h
  | cons tr rest ih =>
    obtain hc | hc | ⟨c, hc, hne⟩ := count_cases tr s
    · rw [run_waits hc] at h
      simp only [Option.some.injEq] at h
      subst h
      exact ⟨by simp, List.suffix_refl _, rfl⟩
    · rw [run_answered hc] at h
      by_cases hr : rest = []
      · subst hr; simp [run_nil] at h
      · obtain ⟨h₁, h₂, h₃⟩ := ih _ _ _ _ (.inr hr) h
        exact ⟨h₁, h₂.trans (List.suffix_cons _ _), h₃⟩
    · rw [run_failed hc hne] at h; simp at h

/-- What `busy` held when a run starts has no part in it. -/
theorem run_setBusy (fin todo buf after al) (s : State) (b : Option InProgress) :
    run fin todo buf after al { s with busy := b } = run fin todo buf after al s := by
  induction todo generalizing buf after al s with
  | nil => rfl
  | cons tr rest ih =>
    have key : issued al tr buf { s with busy := b } = { issued al tr buf s with busy := b } := by
      cases al <;> simp [issued, dropDraw_eq, issue]
    obtain hc | hc | ⟨c, hc, hne⟩ := count_cases tr s
    · rw [run_waits hc, run_waits (s := { s with busy := b }) hc, key]; rfl
    · rw [run_answered hc, run_answered (s := { s with busy := b }) hc, key]
      exact ih _ _ _ { issued al tr buf s with per := (carry tr buf (s.upcoming 0) tr.size (beforeTransfer tr s)).2 }
    · rw [run_failed hc hne, run_failed (s := { s with busy := b }) hc hne, key]; rfl

/-- A transfer that has been issued already goes on as one that is issued now. -/
theorem run_issue (fin tr rest buf after) (s : State) :
    run fin (tr :: rest) buf after true (issue (tr.call buf) s) = run fin (tr :: rest) buf after false s := rfl

/-- Every call a run makes is the call of one of its transfers. -/
theorem run_bus (fin todo buf after al) (s : State) (c : BusCall) (h : c ∈ (run fin todo buf after al s).bus) :
    c ∈ s.bus ∨ ∃ tr ∈ todo, ∃ b, c = tr.call b := by
  induction todo generalizing buf after al s with
  | nil => exact .inl h
  | cons tr rest ih =>
    have key : c ∈ (if al then s.bus else s.bus ++ [tr.call buf]) → c ∈ s.bus ∨ c = tr.call buf := by
      cases al
      · simp
      · exact .inl
    have here : c ∈ (if al then s.bus else s.bus ++ [tr.call buf]) →
        c ∈ s.bus ∨ ∃ tr' ∈ tr :: rest, ∃ b, c = tr'.call b := fun h =>
      (key h).imp id fun h => ⟨tr, by simp, buf, h⟩
    obtain hc | hc | ⟨x, hc, hne⟩ := count_cases tr s
    · rw [run_waits hc] at h; exact here (by simpa using h)
    · rw [run_answered hc] at h
      obtain h | ⟨tr', h₁, b, h₂⟩ := ih _ _ _ _ h
      · exact here (by simpa using h)
      · exact .inr ⟨tr', by simp [h₁], b, h₂⟩
    · rw [run_failed hc hne] at h; exact here (by simpa using h)

/-- The three ways a run ends: every transfer is answered as requested, or one fails, or one is not answered; with the
response that each leaves. -/
theorem run_outcomes (fin : Finish) (todo : List Transfer) (buf : List Byte) (after : List Disturbance) (al : Bool)
    (s : State) (h : s.response = none) :
    let t := run fin todo buf after al s
    ((∃ r, t.response = some (.ok r)) ∧
      ∀ k (hk : k < todo.length), (s.upcoming k).count = some (todo[k].size : Int)) ∨
    (t.response = some (.raised .transportFailure) ∧
      ∃ k c, ∃ hk : k < todo.length, (∀ j (hj : j < k), (s.upcoming j).count = some (todo[j].size : Int)) ∧
        (s.upcoming k).count = some c ∧ c ≠ todo[k].size) ∨
    (t.response = none ∧
      ∃ k, k < todo.length ∧ (s.upcoming k).count = none ∧
        ∀ j, j < k → ∀ hl : j < todo.length, (s.upcoming j).count = some (todo[j].size : Int)) := by
  induction todo generalizing buf after al s with
  | nil => exact .inl ⟨⟨_, rfl⟩, fun k hk => absurd hk (by simp)⟩
  | cons tr rest ih =>
    obtain hc | hc | ⟨c, hc, hne⟩ := count_cases tr s
    · refine .inr (.inr ⟨by rw [run_waits hc]; simpa using h, 0, by simp, hc, fun j hj => absurd hj (by omega)⟩)
    · rw [run_answered hc]
      have hs := ih (carry tr buf (s.upcoming 0) tr.size (beforeTransfer tr s)).1 (s.upcoming 0).after false
        { issued al tr buf s with per := (carry tr buf (s.upcoming 0) tr.size (beforeTransfer tr s)).2 }
        (by simpa using h)
      simp only [next_upcoming] at hs
      obtain ⟨hr, hall⟩ | ⟨hr, k, c, hk, hall, hcc, hcn⟩ | ⟨hr, k, hk, hcc, hall⟩ := hs
      · refine .inl ⟨hr, fun k hk => ?_⟩
        cases k with
        | zero => exact hc
        | succ k => exact hall k (by simpa using hk)
      · refine .inr (.inl ⟨hr, k + 1, c, by simpa using hk, fun j hj => ?_, hcc, hcn⟩)
        cases j with
        | zero => exact hc
        | succ j => exact hall j (by omega)
      · refine .inr (.inr ⟨hr, k + 1, by simpa using hk, hcc, fun j hj hl => ?_⟩)
        cases j with
        | zero => exact hc
        | succ j => exact hall j (by omega) (by simpa using hl)
    · exact .inr (.inl ⟨by rw [run_failed hc hne]; rfl, 0, c, by simp, fun j hj => absurd hj (by omega), hc, hne⟩)

/-! ## How far a run gets -/

@[simp] theorem call_size (tr : Transfer) (buf : List Byte) : (tr.call buf).size = tr.size := by
  cases tr <;> rfl

@[simp] theorem call_dev (tr : Transfer) (buf : List Byte) : (tr.call buf).dev = 0x68 := by
  cases tr <;> rfl

/-- After `k` transfers answered as requested, the run goes on with the others: `k` calls have been made, `k` draws
taken, and the rest of the block is as it was. -/
theorem run_prefix (fin : Finish) (todo : List Transfer) (k : Nat) (hk : k ≤ todo.length) (buf : List Byte)
    (after : List Disturbance) (s : State)
    (h : ∀ j (hj : j < k), (s.upcoming j).count = some ((todo[j]'(by omega)).size : Int)) :
    ∃ buf' after' s' calls, run fin todo buf after false s = run fin (todo.drop k) buf' after' false s' ∧
      s'.bus = s.bus ++ calls ∧ List.Forall₂ (fun c tr => ∃ b, c = Transfer.call b tr) calls (todo.take k) ∧
      (∀ j, s'.upcoming j = s.upcoming (k + j)) ∧ s'.response = s.response ∧ s'.busy = s.busy := by
  induction k generalizing todo buf after s with
  | zero => exact ⟨buf, after, s, [], by simp, by simp, by simp, by simp, rfl, rfl⟩
  | succ k ih =>
    cases todo with
    | nil => simp at hk
    | cons tr rest =>
      have h0 : (s.upcoming 0).count = some (tr.size : Int) := h 0 (by omega)
      rw [run_answered h0]
      obtain ⟨buf', after', s', calls, h₁, h₂, h₃, h₄, h₅, h₆⟩ := ih rest (by simpa using hk)
        (carry tr buf (s.upcoming 0) tr.size (beforeTransfer tr s)).1 (s.upcoming 0).after
        { issued false tr buf s with per := (carry tr buf (s.upcoming 0) tr.size (beforeTransfer tr s)).2 }
        (fun j hj => by rw [next_upcoming]; exact h (j + 1) (by omega))
      refine ⟨buf', after', s', tr.call buf :: calls, by simpa using h₁, by simp [h₂],
        .cons ⟨buf, rfl⟩ h₃, ?_,
        by simpa using h₅, by simpa using h₆⟩
      intro j
      rw [h₄, next_upcoming]
      congr 1
      omega

end Sys2Proof.Machine
end

