-- ==== Sys2Proof/Laws/Exec.lean ====
section
/-! SUPPORT. What executing an instruction can do, said once: it completes without a transfer, or it runs the transfers of
a list, or it is refused for its offset. -/

namespace Sys2Proof.Machine

open Sys2Proof

/-- The transfers of an instruction (none for Tier A). -/
def transfersOf : Instr → List Transfer
  | .rdReg a => memRead a 1
  | .wrReg a v => memWrite a [v]
  | .updReg a m v => update a m v
  | .encBcd _ => []
  | .decBcd _ => []
  | .encTime _ _ _ _ _ _ _ => []
  | .decTime _ _ _ _ _ _ _ => []
  | .setTime s mi h w d mo y => memWrite 0x00 [enc s, enc mi, enc h, enc w, enc d, enc mo, enc y]
  | .readTime => memRead 0x00 7
  | .packA1 _ _ _ _ _ => []
  | .packA2 _ _ _ _ => []
  | .setAlarm1 m s mi h d => memWrite 0x07 (packAlarm1 m s mi h d) ++ update 0x0E 0x00 0x05
  | .setAlarm2 m mi h d => memWrite 0x0B (packAlarm2 m mi h d) ++ update 0x0E 0x00 0x06
  | .checkFlag _ => memRead 0x0F 1
  | .clearFlag c => update 0x0F (channelMask c) 0x00
  | .disableAlarm c => update 0x0E (channelMask c) 0x00
  | .en32k on => if on then update 0x0F 0x00 0x08 else update 0x0F 0x08 0x00
  | .enSqw f => update 0x0E 0x1C (freqBits f)
  | .enInt => update 0x0E 0x00 0x04

/-- What an instruction makes of what it has read. -/
def finishOf : Instr → Finish
  | .rdReg _ => .byte
  | .wrReg _ _ => .nothing
  | .updReg _ _ _ => .nothing
  | .encBcd _ => .nothing
  | .decBcd _ => .nothing
  | .encTime _ _ _ _ _ _ _ => .nothing
  | .decTime _ _ _ _ _ _ _ => .nothing
  | .setTime _ _ _ _ _ _ _ => .nothing
  | .readTime => .time
  | .packA1 _ _ _ _ _ => .nothing
  | .packA2 _ _ _ _ => .nothing
  | .setAlarm1 _ _ _ _ _ => .nothing
  | .setAlarm2 _ _ _ _ => .nothing
  | .checkFlag c => .flag c
  | .clearFlag _ => .nothing
  | .disableAlarm _ => .nothing
  | .en32k _ => .nothing
  | .enSqw _ => .nothing
  | .enInt => .nothing

theorem atOffset_ok {a : Byte} (h : offsetInMap a = true) (s : State) : atOffset a s = .next s := by simp [atOffset, h]

theorem atOffset_refused {a : Byte} (h : offsetInMap a = false) (s : State) :
    atOffset a s = .refused (.offsetAboveTop a) := by simp [atOffset, h]

/-- A command without transfers, or with them: what `exec` answers. -/
theorem exec_cases (i : Instr) (s : State) (h : i.wellFormed = true) :
    (transfersOf i = [] ∧ ∃ r, exec i s = .next (complete r s)) ∨
    (transfersOf i ≠ [] ∧ exec i s = .next (start (transfersOf i) (finishOf i) s)) := by
  cases i
  case rdReg a => exact .inr ⟨by simp [transfersOf, memRead], atOffset_ok h _⟩
  case wrReg a v => exact .inr ⟨by simp [transfersOf, memWrite], atOffset_ok h _⟩
  case updReg a m v => exact .inr ⟨by simp [transfersOf, update], atOffset_ok h _⟩
  case en32k on => exact .inr ⟨by cases on <;> simp [transfersOf, update], by cases on <;> rfl⟩
  all_goals first
    | exact .inl ⟨rfl, _, rfl⟩
    | exact .inr ⟨by simp [transfersOf, memRead, memWrite, update], rfl⟩

/-- A command that is not well formed is refused for its offset. -/
theorem exec_refused (i : Instr) (s : State) (h : i.wellFormed = false) :
    ∃ a : Byte, exec i s = .refused (.offsetAboveTop a) ∧ 0x0F < a.toNat ∧
      (i = .rdReg a ∨ (∃ v, i = .wrReg a v) ∨ (∃ m v, i = .updReg a m v)) := by
  have above : ∀ a : Byte, offsetInMap a = false → 0x0F < a.toNat := by
    intro a h; simpa [offsetInMap, regTop] using of_decide_eq_false h
  cases i
  case rdReg a => exact ⟨a, atOffset_refused h _, above a h, .inl rfl⟩
  case wrReg a v => exact ⟨a, atOffset_refused h _, above a h, .inr (.inl ⟨v, rfl⟩)⟩
  case updReg a m v => exact ⟨a, atOffset_refused h _, above a h, .inr (.inr ⟨m, v, rfl⟩)⟩
  all_goals exact absurd h (by simp [Instr.wellFormed])

/-- Whenever a command has a next state, it is well formed. -/
theorem wellFormed_of_next {i : Instr} {s t : State} (h : exec i s = .next t) : i.wellFormed = true := by
  by_contra hw
  obtain ⟨a, ha, -⟩ := exec_refused i s (by simpa using hw)
  rw [ha] at h
  cases h

/-- The sizes of an instruction's transfers are the counts it requests. -/
theorem transfers_sizes (i : Instr) : (transfersOf i).map Transfer.size = i.requested := by
  cases i
  case en32k on => cases on <;> rfl
  all_goals rfl

/-- Every transfer of a well-formed instruction stays inside the map (R55). -/
theorem transfers_inMap (i : Instr) (h : i.wellFormed = true) : (transfersOf i).all Transfer.inMap = true := by
  have above : ∀ a : Byte, offsetInMap a = true → a.toNat + 1 ≤ 16 := by
    intro a h; have := of_decide_eq_true h; unfold regTop at this; omega
  cases i
  case rdReg a =>
    have h' : offsetInMap a = true := h
    simp [transfersOf, memRead, Transfer.inMap, timeLen, h']
  case wrReg a v => simpa [transfersOf, memWrite, Transfer.inMap, regTop] using above a h
  case updReg a m v =>
    have h' : offsetInMap a = true := h
    simp [transfersOf, update, memRead, Transfer.inMap, timeLen, h']
  case en32k on => cases on <;> decide
  all_goals rfl

/-- What the transfers of an instruction write is what the instruction writes (R58). -/
theorem transfers_offsets (i : Instr) : (transfersOf i).flatMap Transfer.offsets = i.written := by
  cases i
  case en32k on => cases on <;> rfl
  all_goals rfl

/-- The three ways a command that has transfers ends, with its response. -/
theorem exec_outcomes {i : Instr} {s t : State} (h : exec i s = .next t) :
    ((∃ r, t.response = some (.ok r)) ∧ s.answered i.requested) ∨
    (t.response = some (.raised .transportFailure) ∧
      ∃ k c, ∃ hk : k < i.requested.length, s.answered (i.requested.take k) ∧ (s.upcoming k).count = some c ∧
        c ≠ i.requested[k]) ∨
    (t.response = none ∧
      ∃ k, k < i.requested.length ∧ s.answered (i.requested.take k) ∧ (s.upcoming k).count = none) := by
  have hsz := transfers_sizes i
  obtain ⟨hn, r, hr⟩ | ⟨-, hr⟩ := exec_cases i s (wellFormed_of_next h)
  · rw [hr] at h
    cases h
    refine .inl ⟨⟨r, rfl⟩, fun k hk => ?_⟩
    rw [hn] at hsz
    simp [← hsz] at hk
  · rw [hr] at h
    cases h
    have hl : i.requested.length = (transfersOf i).length := by rw [← hsz, List.length_map]
    have hget : ∀ k (hk : k < (transfersOf i).length), (i.requested[k]'(by omega)) = ((transfersOf i)[k]).size := by
      intro k hk; simp only [← hsz, List.getElem_map]
    have h := run_outcomes (finishOf i) (transfersOf i) [] [] false (begin s) rfl
    have hu : ∀ k, (begin s).upcoming k = s.upcoming k := fun _ => rfl
    simp only [hu] at h
    obtain ⟨hr, hall⟩ | ⟨hr, k, c, hk, hall, hc, hne⟩ | ⟨hr, k, hk, hc, hall⟩ := h
    · exact .inl ⟨hr, fun k hk => by rw [hall k (by omega), hget]⟩
    · refine .inr (.inl ⟨hr, k, c, by omega, fun j hj => ?_, hc, by rw [hget k hk]; exact hne⟩)
      simp only [List.length_take] at hj
      rw [hall j (by omega), List.getElem_take, hget]
    · refine .inr (.inr ⟨hr, k, by omega, fun j hj => ?_, hc⟩)
      simp only [List.length_take] at hj
      rw [hall j (by omega) (by omega), List.getElem_take, hget]

end Sys2Proof.Machine
end

