-- ==== Sys2Proof/Laws/Words.lean ====
section
/-! SUPPORT. The fields of a word that was packed, and of any word (spec/30_encoding.md R70, R72). -/

namespace Sys2Proof

/-- The number a packed word is. -/
theorem packWord_toNat (low : Byte) (p : Slots) :
    (packWord low p).toNat = low.toNat + p.b0.toNat * 2 ^ 8 + p.b1.toNat * 2 ^ 16 + p.b2.toNat * 2 ^ 24 +
      p.b3.toNat * 2 ^ 32 + p.b4.toNat * 2 ^ 40 + p.b5.toNat * 2 ^ 48 + p.b6.toNat * 2 ^ 56 := by
  rw [packWord, BitVec.toNat_ofNat]
  apply Nat.mod_eq_of_lt
  omega

/-- The number a byte field of a word is. -/
theorem field_toNat (w : Word) (k : Nat) : (w.extractLsb' k 8).toNat = w.toNat / 2 ^ k % 2 ^ 8 := by
  rw [BitVec.extractLsb'_toNat, Nat.shiftRight_eq_div_pow]

/-- The low byte of a packed word. -/
theorem opcodeField_packWord (low : Byte) (p : Slots) : opcodeField (packWord low p) = low := by
  apply BitVec.eq_of_toNat_eq
  rw [opcodeField, field_toNat, packWord_toNat]
  omega

/-- The seven slots of a packed word. -/
theorem slotFields_packWord (low : Byte) (p : Slots) : slotFields (packWord low p) = p := by
  obtain ⟨b0, b1, b2, b3, b4, b5, b6⟩ := p
  simp only [slotFields, Slots.mk.injEq]
  refine ⟨?_, ?_, ?_, ?_, ?_, ?_, ?_⟩ <;>
  · apply BitVec.eq_of_toNat_eq
    rw [field_toNat, packWord_toNat]
    dsimp only
    omega

/-- The operation code is the low five bits of the opcode byte. -/
theorem opField_toNat (w : Word) : (opField w).toNat = (opcodeField w).toNat % 32 := by
  simp only [opField, opcodeField, BitVec.extractLsb'_toNat, Nat.shiftRight_eq_div_pow]
  omega

/-- The selector is the high three bits of the opcode byte. -/
theorem selField_toNat (w : Word) : (selField w).toNat = (opcodeField w).toNat / 32 := by
  simp only [selField, opcodeField, BitVec.extractLsb'_toNat, Nat.shiftRight_eq_div_pow]
  omega

/-- The fields of an encoded instruction are the ones it was encoded from. -/
theorem opcodeByte_toNat (i : Instr) : i.opcodeByte.toNat = i.sel.toNat * 32 + i.op.toNat := by
  simp only [Instr.opcodeByte, BitVec.toNat_ofNat]
  omega

theorem opcodeField_encode (i : Instr) : opcodeField (encode i) = i.opcodeByte := opcodeField_packWord _ _

theorem slotFields_encode (i : Instr) : slotFields (encode i) = i.operands := slotFields_packWord _ _

theorem opField_encode (i : Instr) : opField (encode i) = i.op := by
  apply BitVec.eq_of_toNat_eq
  rw [opField_toNat, opcodeField_encode, opcodeByte_toNat]
  omega

theorem selField_encode (i : Instr) : selField (encode i) = i.sel := by
  apply BitVec.eq_of_toNat_eq
  rw [selField_toNat, opcodeField_encode, opcodeByte_toNat]
  omega

/-- Packing the fields of a word gives the word back. -/
theorem packWord_fields (w : Word) : packWord (opcodeField w) (slotFields w) = w := by
  apply BitVec.eq_of_toNat_eq
  simp only [opcodeField, slotFields, packWord, BitVec.extractLsb'_toNat, BitVec.toNat_ofNat,
    Nat.shiftRight_eq_div_pow]
  omega

/-! ## What decoding can answer -/

theorem selected_ok {α : Type} {op sel : Nat} {choice : Option α} {make : α → Instr} {i : Instr}
    (h : selected op sel choice make = .ok i) : ∃ x, choice = some x ∧ i = make x := by
  cases choice with
  | none => simp [selected] at h
  | some x => exact ⟨x, rfl, by simpa [selected] using h.symm⟩

theorem noSel_some {sel : Nat} {x : Unit} (h : noSel sel = some x) : sel = 0 := by
  unfold noSel at h; split at h <;> simp_all

theorem Mode1.ofSel_some {sel : Nat} {m : Mode1} (h : Mode1.ofSel sel = some m) : m.sel.toNat = sel := by
  unfold Mode1.ofSel at h; split at h <;> simp_all <;> (subst h; rfl)

theorem Mode2.ofSel_some {sel : Nat} {m : Mode2} (h : Mode2.ofSel sel = some m) : m.sel.toNat = sel := by
  unfold Mode2.ofSel at h; split at h <;> simp_all <;> (subst h; rfl)

theorem Channel.ofSel_some {sel : Nat} {c : Channel} (h : Channel.ofSel sel = some c) : c.sel.toNat = sel := by
  unfold Channel.ofSel at h; split at h <;> simp_all <;> (subst h; rfl)

theorem enableOfSel_some {sel : Nat} {b : Bool} (h : enableOfSel sel = some b) : (enableSel b).toNat = sel := by
  unfold enableOfSel at h; split at h <;> simp_all <;> (subst h; rfl)

theorem Freq.ofSel_some {sel : Nat} {f : Freq} (h : Freq.ofSel sel = some f) : f.sel.toNat = sel := by
  unfold Freq.ofSel at h; split at h <;> simp_all <;> (subst h; rfl)

/-- The first `n` slots, the others cleared. -/
def Slots.keep (n : Nat) (p : Slots) : Slots :=
  ⟨if 0 < n then p.b0 else 0, if 1 < n then p.b1 else 0, if 2 < n then p.b2 else 0, if 3 < n then p.b3 else 0,
    if 4 < n then p.b4 else 0, if 5 < n then p.b5 else 0, if 6 < n then p.b6 else 0⟩

/-- A decoded instruction has the operation code, the selector and the used operand slots of the fields it was decoded
from. -/
theorem decodeFields_ok {op sel : Nat} {p : Slots} {i : Instr} (h : decodeFields op sel p = .ok i) :
    i.op.toNat = op ∧ i.sel.toNat = sel ∧ i.operands = p.keep i.operandCount := by
  unfold decodeFields at h
  split at h
  case h_20 => simp at h
  all_goals
    obtain ⟨x, hx, rfl⟩ := selected_ok h
    refine ⟨rfl, ?_, rfl⟩
    first
    | exact (noSel_some hx).symm
    | exact Mode1.ofSel_some hx
    | exact Mode2.ofSel_some hx
    | exact Channel.ofSel_some hx
    | exact enableOfSel_some hx
    | exact Freq.ofSel_some hx

end Sys2Proof
end

