-- ==== Sys2Proof/Laws/PerInstr.lean ====
section
/-! SUPPORT. For every instruction: its command word carries its opcode byte, one of the 44 legal ones, and its operand
slots, and the slots it does not use are 0x00 (spec/30_encoding.md R70, R71, R84, R87). -/

namespace Sys2Proof.Laws.OpcodeByte

open Sys2Proof

/-- What the family says of an instruction. -/
def Statement (i : Instr) : Prop :=
  i.opcodeByte.toNat ∈ legalOpcodeBytes ∧ opcodeField (encode i) = i.opcodeByte ∧
    slotFields (encode i) = i.operands ∧ i.operands = i.operands.keep i.operandCount

theorem of_legal {i : Instr} (h : i.sel.toNat * 32 + i.op.toNat ∈ legalOpcodeBytes)
    (h' : i.operands = i.operands.keep i.operandCount) : Statement i :=
  ⟨by rw [opcodeByte_toNat]; exact h, opcodeField_encode i, slotFields_encode i, h'⟩

theorem rdReg (a : Byte) : Statement (.rdReg a) := of_legal (by simp only [Instr.sel, Instr.op]; decide) rfl

theorem wrReg (a v : Byte) : Statement (.wrReg a v) := of_legal (by simp only [Instr.sel, Instr.op]; decide) rfl

theorem updReg (a m v : Byte) : Statement (.updReg a m v) := of_legal (by simp only [Instr.sel, Instr.op]; decide) rfl

theorem encBcd (v : Byte) : Statement (.encBcd v) := of_legal (by simp only [Instr.sel, Instr.op]; decide) rfl

theorem decBcd (b : Byte) : Statement (.decBcd b) := of_legal (by simp only [Instr.sel, Instr.op]; decide) rfl

theorem encTime (s mi h w d mo y : Byte) : Statement (.encTime s mi h w d mo y) :=
  of_legal (by simp only [Instr.sel, Instr.op]; decide) rfl

theorem decTime (b0 b1 b2 b3 b4 b5 b6 : Byte) : Statement (.decTime b0 b1 b2 b3 b4 b5 b6) :=
  of_legal (by simp only [Instr.sel, Instr.op]; decide) rfl

theorem setTime (s mi h w d mo y : Byte) : Statement (.setTime s mi h w d mo y) :=
  of_legal (by simp only [Instr.sel, Instr.op]; decide) rfl

theorem readTime : Statement .readTime := of_legal (by simp only [Instr.sel, Instr.op]; decide) rfl

theorem packA1 (m : Mode1) (s mi h d : Byte) : Statement (.packA1 m s mi h d) :=
  of_legal (by cases m <;> simp only [Instr.sel, Instr.op] <;> decide) rfl

theorem packA2 (m : Mode2) (mi h d : Byte) : Statement (.packA2 m mi h d) :=
  of_legal (by cases m <;> simp only [Instr.sel, Instr.op] <;> decide) rfl

theorem setAlarm1 (m : Mode1) (s mi h d : Byte) : Statement (.setAlarm1 m s mi h d) :=
  of_legal (by cases m <;> simp only [Instr.sel, Instr.op] <;> decide) rfl

theorem setAlarm2 (m : Mode2) (mi h d : Byte) : Statement (.setAlarm2 m mi h d) :=
  of_legal (by cases m <;> simp only [Instr.sel, Instr.op] <;> decide) rfl

theorem checkFlag (c : Channel) : Statement (.checkFlag c) := of_legal (by cases c <;> simp only [Instr.sel, Instr.op] <;> decide) rfl

theorem clearFlag (c : Channel) : Statement (.clearFlag c) := of_legal (by cases c <;> simp only [Instr.sel, Instr.op] <;> decide) rfl

theorem disableAlarm (c : Channel) : Statement (.disableAlarm c) := of_legal (by cases c <;> simp only [Instr.sel, Instr.op] <;> decide) rfl

theorem en32k (on : Bool) : Statement (.en32k on) := of_legal (by cases on <;> simp only [Instr.sel, Instr.op] <;> decide) rfl

theorem enSqw (f : Freq) : Statement (.enSqw f) := of_legal (by cases f <;> simp only [Instr.sel, Instr.op] <;> decide) rfl

theorem enInt : Statement .enInt := of_legal (by simp only [Instr.sel, Instr.op]; decide) rfl

end Sys2Proof.Laws.OpcodeByte
end

