-- ==== Sys2Proof/Laws/Quiet.lean ====
section
/-! SUPPORT. What the transfers of a command do, from the state after the earlier ones, in any setting and in the quiet setting of the document's own properties (spec/00_scope.md R10,
R18): one lemma for each kind of transfer that is answered as requested, and one for a transfer that fails. -/

namespace Sys2Proof.Machine

open Sys2Proof

/-! ## The state after some transfers -/

/-- The state after `n` draws, with the calls made and the peripheral as given. -/
def State.moved (s : State) (n : Nat) (calls : List BusCall) (per : Peripheral) : State :=
  { s with
    bus := s.bus ++ calls, per := per, draws := s.draws.drop n, drawCount := s.drawCount + (n - s.draws.length) }

section
variable (s : State) (n : Nat) (calls : List BusCall) (per : Peripheral)

@[simp] theorem moved_host : (s.moved n calls per).host = s.host := rfl
@[simp] theorem moved_command : (s.moved n calls per).command = s.command := rfl
@[simp] theorem moved_busy : (s.moved n calls per).busy = s.busy := rfl
@[simp] theorem moved_response : (s.moved n calls per).response = s.response := rfl
@[simp] theorem moved_bus : (s.moved n calls per).bus = s.bus ++ calls := rfl
@[simp] theorem moved_per : (s.moved n calls per).per = per := rfl
@[simp] theorem moved_env : (s.moved n calls per).env = s.env := rfl
@[simp] theorem moved_otherMasters : (s.moved n calls per).otherMasters = s.otherMasters := rfl

@[simp] theorem moved_moved (m : Nat) (calls' : List BusCall) (per' : Peripheral) :
    (s.moved n calls per).moved m calls' per' = s.moved (n + m) (calls ++ calls') per' := by
  simp only [State.moved, List.append_assoc, List.drop_drop, List.length_drop, State.mk.injEq, true_and]
  omega

@[simp] theorem moved_upcoming (k : Nat) : (s.moved n calls per).upcoming k = s.upcoming (n + k) := by
  simp only [State.upcoming, State.moved, List.getElem?_drop, List.length_drop]
  split
  · rfl
  · rename_i h
    congr 1
    have := List.getElem?_eq_none_iff.1 h
    omega

theorem respond_moved (r : Response) :
    respond r ((begin s).moved n calls per) = s.finished n calls r per := rfl

theorem issued_moved (tr : Transfer) (buf : List Byte) :
    { issued false tr buf s with per := per } = s.moved 1 [tr.call buf] per := by
  simp [issued, dropDraw_eq, State.moved, issue]

@[simp] theorem begin_upcoming (k : Nat) : (begin s).upcoming k = s.upcoming k := rfl

end

@[simp] theorem finished_upcoming (s : State) (n : Nat) (calls : List BusCall) (r : Response) (per : Peripheral) (k : Nat) :
    (s.finished n calls r per).upcoming k = s.upcoming (n + k) := by
  rw [← respond_moved]
  exact moved_upcoming (begin s) n calls per k

/-! ## Counts -/

theorem answered_cons {s : State} {n : Nat} {ns : List Nat} (h : s.answered (n :: ns)) :
    (s.upcoming 0).count = some (n : Int) := h 0 (by simp)

theorem answered_get {s : State} {ns : List Nat} (h : s.answered ns) {k n : Nat} (hk : ns[k]? = some n) :
    (s.upcoming k).count = some (n : Int) := by
  obtain ⟨hl, rfl⟩ := List.getElem?_eq_some_iff.1 hk
  exact h k hl

/-! ## One transfer in the quiet setting -/

section
variable {fin : Finish} {rest : List Transfer} {buf : List Byte} {after : List Disturbance} {s : State}

/-- A transfer answered as requested, in any setting. -/
theorem moved_answered {tr : Transfer} (hc : (s.upcoming 0).count = some (tr.size : Int)) :
    run fin (tr :: rest) buf after false s =
      run fin rest (carry tr buf (s.upcoming 0) tr.size (beforeTransfer tr s)).1 (s.upcoming 0).after false
        (s.moved 1 [tr.call buf] (carry tr buf (s.upcoming 0) tr.size (beforeTransfer tr s)).2) := by
  rw [run_answered hc, issued_moved]

/-- A transfer that fails, in any setting. -/
theorem moved_failed {tr : Transfer} {c : Int} (hc : (s.upcoming 0).count = some c) (hne : c ≠ tr.size) :
    run fin (tr :: rest) buf after false s =
      raise .transportFailure (s.moved 1 [tr.call buf] (disturb s.env s.otherMasters (s.upcoming 0).after
        (carry tr buf (s.upcoming 0) (min (s.upcoming 0).reached tr.size) (beforeTransfer tr s)).2)) := by
  rw [run_failed hc hne, issued_moved]

theorem quiet_nil (h : s.quiet) : run fin [] buf after false s = respond (.ok (fin.result buf)) s := by
  rw [run_nil]
  congr 1
  rw [show disturb s.env s.otherMasters after s.per = s.per by rw [h.1, h.2, disturb_storage]]

theorem quiet_before (h : s.quiet) (tr : Transfer) : beforeTransfer tr s = s.per := by
  rw [beforeTransfer, h.1, h.2, Bool.false_and, disturb_storage]

theorem quiet_answered (h : s.quiet) {tr : Transfer} (hc : (s.upcoming 0).count = some (tr.size : Int)) :
    run fin (tr :: rest) buf after false s =
      run fin rest (carry tr buf (s.upcoming 0) tr.size s.per).1 (s.upcoming 0).after false
        (s.moved 1 [tr.call buf] (carry tr buf (s.upcoming 0) tr.size s.per).2) := by
  rw [moved_answered hc, quiet_before h]

theorem quiet_failed (h : s.quiet) {tr : Transfer} {c : Int} (hc : (s.upcoming 0).count = some c) (hne : c ≠ tr.size) :
    run fin (tr :: rest) buf after false s =
      raise .transportFailure (s.moved 1 [tr.call buf]
        (carry tr buf (s.upcoming 0) (min (s.upcoming 0).reached tr.size) s.per).2) := by
  rw [moved_failed hc hne, quiet_before h, h.1, h.2, disturb_storage]

/-- The address phase of a read (R48, R50). -/
theorem quiet_address (h : s.quiet) (a : Byte) (hc : (s.upcoming 0).count = some 1) :
    run fin (.address a :: rest) buf after false s =
      run fin rest buf (s.upcoming 0).after false (s.moved 1 [.write 0x68 [a] true] ⟨s.per.regs, a⟩) :=
  quiet_answered h hc

/-- The data phase of a one-byte read (R48, R51). -/
theorem quiet_read_one (h : s.quiet) {b : Byte} (hb : s.per.regs.byte? s.per.ptr.toNat = some b)
    (hc : (s.upcoming 0).count = some 1) :
    run fin (.read 1 :: rest) buf after false s =
      run fin rest [b] (s.upcoming 0).after false
        (s.moved 1 [.read 0x68 1] ⟨s.per.regs, nextPtr (s.upcoming 0).ptrPast s.per.ptr⟩) := by
  rw [quiet_answered (tr := .read 1) h hc]
  simp [carry, supply, Transfer.size, hb, Transfer.call]

/-- The write transfer of a block (R49, R50). -/
theorem quiet_store (h : s.quiet) (a : Byte) (v : List Byte) (hc : (s.upcoming 0).count = some ((v.length + 1 : Nat) : Int)) :
    run fin (.store a v :: rest) buf after false s =
      run fin rest buf (s.upcoming 0).after false
        (s.moved 1 [.write 0x68 (a :: v) false] (acceptWrite (s.upcoming 0).ptrPast (a :: v) s.per)) := by
  rw [quiet_answered (tr := .store a v) h hc]
  simp [carry, Transfer.size, Transfer.call, Transfer.bytes]

/-- The write transfer of a read-modify-write (R102). -/
theorem quiet_storeUpdated (h : s.quiet) (a m v : Byte) {b : Byte} (hc : (s.upcoming 0).count = some 2) :
    run fin (.storeUpdated a m v :: rest) [b] after false s =
      run fin rest [b] (s.upcoming 0).after false
        (s.moved 1 [.write 0x68 [a, updated b m v] false]
          ⟨s.per.regs.write a.toNat (updated b m v), nextPtr (s.upcoming 0).ptrPast a⟩) :=
  quiet_answered h hc

/-- `MemRead(a, 1)` whole (R48). -/
theorem quiet_memRead_one (h : s.quiet) (a : Byte) {b : Byte} (hb : s.per.regs.byte? a.toNat = some b)
    (h0 : (s.upcoming 0).count = some 1) (h1 : (s.upcoming 1).count = some 1) :
    run fin (memRead a 1) buf after false s =
      respond (.ok (fin.result [b])) (s.moved 2 [.write 0x68 [a] true, .read 0x68 1]
        ⟨s.per.regs, nextPtr (s.upcoming 1).ptrPast a⟩) := by
  rw [show memRead a 1 = [.address a, .read 1] from rfl, quiet_address h a h0,
    quiet_read_one (s := s.moved 1 [.write 0x68 [a] true] ⟨s.per.regs, a⟩) h hb (by simpa using h1),
    moved_moved]
  refine (quiet_nil (s := State.moved _ _ _ _) h).trans ?_
  simp

/-- `Update(a, m, s)` whole: one read and one write of the register (R102). -/
theorem quiet_update (h : s.quiet) (a m v : Byte) {old : Byte} (hb : s.per.regs.byte? a.toNat = some old)
    (h0 : (s.upcoming 0).count = some 1) (h1 : (s.upcoming 1).count = some 1) (h2 : (s.upcoming 2).count = some 2) :
    run fin (update a m v) buf after false s =
      respond (.ok (fin.result [old])) (s.moved 3
        [.write 0x68 [a] true, .read 0x68 1, .write 0x68 [a, updated old m v] false]
        ⟨s.per.regs.write a.toNat (updated old m v), nextPtr (s.upcoming 2).ptrPast a⟩) := by
  rw [show update a m v = [.address a, .read 1, .storeUpdated a m v] from rfl, quiet_address h a h0,
    quiet_read_one (s := s.moved 1 [.write 0x68 [a] true] ⟨s.per.regs, a⟩) h hb (by simpa using h1),
    moved_moved]
  refine (quiet_storeUpdated (s := State.moved _ _ _ _) h a m v ?_).trans ?_
  · simpa using h2
  · rw [moved_moved]
    refine (quiet_nil (s := State.moved _ _ _ _) h).trans ?_
    simp

/-- A command that is one `MemWrite` (R49). -/
theorem quiet_start_memWrite (h : s.quiet) (a : Byte) (v : List Byte)
    (hc : (s.upcoming 0).count = some ((v.length + 1 : Nat) : Int)) :
    start (memWrite a v) fin s = s.finished 1 [.write 0x68 (a :: v) false] (.ok (fin.result []))
      (acceptWrite (s.upcoming 0).ptrPast (a :: v) s.per) := by
  rw [start, show memWrite a v = [.store a v] from rfl, quiet_store (s := begin s) h a v hc]
  refine (quiet_nil (s := State.moved (begin s) _ _ _) h).trans ?_
  rfl

/-- A command whose first transfer fails (R178). -/
theorem quiet_start_failed (h : s.quiet) {tr : Transfer} {c : Int} (hc : (s.upcoming 0).count = some c)
    (hne : c ≠ tr.size) :
    start (tr :: rest) fin s = s.finished 1 [tr.call []] (.raised .transportFailure)
      (carry tr [] (s.upcoming 0) (min (s.upcoming 0).reached tr.size) s.per).2 := by
  rw [start, quiet_failed (s := begin s) h hc hne]
  rfl

end

/-! ## The map a read meets -/

theorem mapAtRead_wf {s : State} {k : Nat} {p : Peripheral} (h : p.regs.wf) : (s.mapAtRead k p).wf :=
  disturb_wf (disturb_wf h _ _ _) _ _ _

theorem mapAtRead_quiet {s : State} (h : s.quiet) (k : Nat) (p : Peripheral) : s.mapAtRead k p = p.regs := by
  rw [State.mapAtRead, h.1, h.2, disturb_storage, disturb_storage]

/-- The peripheral right before the data phase of a read at `a`. -/
theorem before_data_phase (s : State) (k : Nat) (p : Peripheral) (a : Byte) :
    disturb s.env false (s.upcoming (k + 1)).before ⟨(disturb s.env s.otherMasters (s.upcoming k).before p).regs, a⟩ =
      ⟨s.mapAtRead k p, a⟩ := by
  have regs := disturb_regs_congr s.env false (s.upcoming (k + 1)).before
    (p := ⟨(disturb s.env s.otherMasters (s.upcoming k).before p).regs, a⟩)
    (q := disturb s.env s.otherMasters (s.upcoming k).before p) rfl
  have ptr := disturb_ptr s.env (s.upcoming (k + 1)).before
    ⟨(disturb s.env s.otherMasters (s.upcoming k).before p).regs, a⟩
  exact congrArg₂ Peripheral.mk regs ptr

/-- `MemRead(a, n)` answered as requested, in any setting (R48, R51). -/
theorem run_memRead_answered {fin : Finish} {rest : List Transfer} {buf : List Byte} {after : List Disturbance}
    {s : State} (a : Byte) (n : Nat) (h₀ : (s.upcoming 0).count = some 1) (h₁ : (s.upcoming 1).count = some (n : Int)) :
    run fin (.address a :: .read n :: rest) buf after false s =
      run fin rest (supply (s.upcoming 1).stray (s.upcoming 1).ptrPast n ⟨s.mapAtRead 0 s.per, a⟩).1
        (s.upcoming 1).after false (s.moved 2 [.write 0x68 [a] true, .read 0x68 n]
          (supply (s.upcoming 1).stray (s.upcoming 1).ptrPast n ⟨s.mapAtRead 0 s.per, a⟩).2) := by
  rw [moved_answered (tr := .address a) h₀, moved_answered (tr := .read n) (by simpa [Transfer.size] using h₁),
    moved_moved]
  simp only [beforeTransfer, moved_upcoming, moved_per, moved_env, moved_otherMasters, Transfer.opensTransaction,
    Bool.and_false, Bool.and_true, carry, Transfer.size, Transfer.bytes, acceptWrite, storeBytes, List.take]
  rw [show 1 + 0 = 0 + 1 from rfl, before_data_phase]
  rfl

/-! ## One more draw -/

section
variable (s : State) (k : Nat) (d : Draw)

@[simp] theorem insertDraw_host : (s.insertDraw k d).host = s.host := rfl
@[simp] theorem insertDraw_command : (s.insertDraw k d).command = s.command := rfl
@[simp] theorem insertDraw_busy : (s.insertDraw k d).busy = s.busy := rfl
@[simp] theorem insertDraw_response : (s.insertDraw k d).response = s.response := rfl
@[simp] theorem insertDraw_bus : (s.insertDraw k d).bus = s.bus := rfl
@[simp] theorem insertDraw_per : (s.insertDraw k d).per = s.per := rfl
@[simp] theorem insertDraw_env : (s.insertDraw k d).env = s.env := rfl
@[simp] theorem insertDraw_otherMasters : (s.insertDraw k d).otherMasters = s.otherMasters := rfl

theorem insertDraw_upcoming_lt {j : Nat} (h : j < k) : (s.insertDraw k d).upcoming j = s.upcoming j := by
  simp [State.insertDraw, State.upcoming, List.getElem?_append_left, h]

theorem insertDraw_upcoming : (s.insertDraw k d).upcoming k = d := by
  simp [State.insertDraw, State.upcoming]

end

end Sys2Proof.Machine
end

