-- ==== Sys2Proof/Tests/Slice0.lean ====
section
/-! SUPPORT. The model's own tests. Every expected value is a vector of spec/95_test_vectors.md (the section is named at each
theorem), and every witness shows a concrete input that meets the hypotheses of one statement. -/

namespace Sys2Proof.Tests

open Sys2Proof Sys2Proof.Machine

/-! ## The check on terms refuses -/

theorem test_wellFormed_refuses_rdReg : (Instr.rdReg 0x10).wellFormed = false := by decide
theorem test_wellFormed_refuses_wrReg : (Instr.wrReg 0x10 0x00).wellFormed = false := by decide
theorem test_wellFormed_refuses_updReg : (Instr.updReg 0xFF 0x00 0x00).wellFormed = false := by decide
theorem test_wellFormed_accepts : (Instr.rdReg 0x0F).wellFormed = true ∧ (Instr.wrReg 0x0F 0xFF).wellFormed = true ∧
    (Instr.updReg 0x00 0xFF 0xFF).wellFormed = true := by decide

/-! ## Decoding words written out from R70, R71 and R84 -/

theorem test_decode_register_access :
    decode 0x0000000000000F01 = .ok (.rdReg 0x0F) ∧ decode 0x00000000001C0E02 = .ok (.wrReg 0x0E 0x1C) ∧
    decode 0x0000000004FF0E03 = .ok (.updReg 0x0E 0xFF 0x04) := by decide

theorem test_decode_bcd :
    decode 0x0000000000001904 = .ok (.encBcd 25) ∧ decode 0x0000000000005905 = .ok (.decBcd 0x59) := by decide

theorem test_decode_time :
    decode 0x630C1F07173B3B06 = .ok (.encTime 59 59 23 7 31 12 99) ∧
    decode 0x9912310723595907 = .ok (.decTime 0x59 0x59 0x23 0x07 0x31 0x12 0x99) ∧
    decode 0x190A0C010E1E0008 = .ok (.setTime 0 30 14 1 12 10 25) ∧
    decode 0x0000000000000009 = .ok .readTime := by decide

theorem test_decode_packA1 :
    decode 0x0000000F072D1E0A = .ok (.packA1 .everySecond 30 45 7 15) ∧
    decode 0x0000000F072D1E2A = .ok (.packA1 .secondsMatch 30 45 7 15) ∧
    decode 0x0000000F072D1E4A = .ok (.packA1 .minutesSecondsMatch 30 45 7 15) ∧
    decode 0x0000000F072D1E6A = .ok (.packA1 .hoursMinutesSecondsMatch 30 45 7 15) ∧
    decode 0x0000000F072D1E8A = .ok (.packA1 .dateHourMinuteSecondMatch 30 45 7 15) ∧
    decode 0x0000000F072D1EAA = .ok (.packA1 .dayOfWeekHourMinuteSecondMatch 30 45 7 15) := by decide

theorem test_decode_packA2 :
    decode 0x000000000F072D0B = .ok (.packA2 .everyMinute 45 7 15) ∧
    decode 0x000000000F072D2B = .ok (.packA2 .minutesMatch 45 7 15) ∧
    decode 0x000000000F072D4B = .ok (.packA2 .hoursMinutesMatch 45 7 15) ∧
    decode 0x000000000F072D6B = .ok (.packA2 .dateHourMinuteMatch 45 7 15) ∧
    decode 0x000000000F072D8B = .ok (.packA2 .dayOfWeekHourMinuteMatch 45 7 15) := by decide

theorem test_decode_setAlarm1 :
    decode 0x000000000000000C = .ok (.setAlarm1 .everySecond 0 0 0 0) ∧
    decode 0x0000000000001E2C = .ok (.setAlarm1 .secondsMatch 30 0 0 0) ∧
    decode 0x000000000000004C = .ok (.setAlarm1 .minutesSecondsMatch 0 0 0 0) ∧
    decode 0x000000000000006C = .ok (.setAlarm1 .hoursMinutesSecondsMatch 0 0 0 0) ∧
    decode 0x000000000000008C = .ok (.setAlarm1 .dateHourMinuteSecondMatch 0 0 0 0) ∧
    decode 0x00000002061E00AC = .ok (.setAlarm1 .dayOfWeekHourMinuteSecondMatch 0 30 6 2) := by decide

theorem test_decode_setAlarm2 :
    decode 0x000000000000000D = .ok (.setAlarm2 .everyMinute 0 0 0) ∧
    decode 0x000000000000002D = .ok (.setAlarm2 .minutesMatch 0 0 0) ∧
    decode 0x000000000000004D = .ok (.setAlarm2 .hoursMinutesMatch 0 0 0) ∧
    decode 0x000000000000006D = .ok (.setAlarm2 .dateHourMinuteMatch 0 0 0) ∧
    decode 0x000000000206008D = .ok (.setAlarm2 .dayOfWeekHourMinuteMatch 0 6 2) := by decide

theorem test_decode_control :
    decode 0x0E = .ok (.checkFlag .first) ∧ decode 0x2E = .ok (.checkFlag .second) ∧
    decode 0x0F = .ok (.clearFlag .first) ∧ decode 0x2F = .ok (.clearFlag .second) ∧
    decode 0x10 = .ok (.disableAlarm .first) ∧ decode 0x30 = .ok (.disableAlarm .second) ∧
    decode 0x31 = .ok (.en32k true) ∧ decode 0x11 = .ok (.en32k false) ∧
    decode 0x12 = .ok (.enSqw .hz1) ∧ decode 0x32 = .ok (.enSqw .hz1024) ∧
    decode 0x52 = .ok (.enSqw .hz4096) ∧ decode 0x72 = .ok (.enSqw .hz8192) ∧ decode 0x13 = .ok .enInt := by decide

/-- Section 2.9. -/
theorem test_decode_rejects_by_name :
    decode 0x00 = .error (.reservedOp 0x00) ∧ decode 0x14 = .error (.reservedOp 0x14) ∧
    decode 0xFFFFFFFFFFFFFFFF = .error (.reservedOp 0x1F) ∧ decode 0x00000004030201CA = .error (.reservedSel 0x0A 6) ∧
    decode 0x00000000030201AB = .error (.reservedSel 0x0B 5) ∧ decode 0x4E = .error (.reservedSel 0x0E 2) ∧
    decode 0x92 = .error (.reservedSel 0x12 4) ∧ decode 0x0E21 = .error (.reservedSel 0x01 1) ∧
    decode 0x33 = .error (.reservedSel 0x13 1) ∧ decode 0xAD = .error (.reservedSel 0x0D 5) ∧
    decode 0xCC = .error (.reservedSel 0x0C 6) := by decide

/-- Of the 256 opcode bytes exactly the 44 listed decode (R84). -/
theorem test_decode_legal_bytes :
    ((List.range 256).filter fun b => (decodeTableWord 8 b).isSome).length = 44 ∧
    legalOpcodeBytes.all (fun b => (decodeTableWord 8 b).isSome) = true := by decide

theorem test_encode :
    encode (.updReg 0x0E 0x1C 0x10) = 0x00000000101C0E03 ∧ encode (.encTime 0 30 14 1 12 10 25) = 0x190A0C010E1E0006 ∧
    encode (.setAlarm2 .dayOfWeekHourMinuteMatch 0 6 2) = 0x000000000206008D ∧ encode (.enSqw .hz4096) = 0x52 := by decide

/-- The examples of R89 and R90. -/
theorem test_assemble :
    assemble ⟨"EN_SQW", none, [.word "4096Hz"]⟩ = some (.enSqw .hz4096) ∧
    assemble ⟨"CHECK_FLAG", none, [.num 2]⟩ = some (.checkFlag .second) ∧
    assemble ⟨"ENC_BCD", none, [.num 256]⟩ = none := by decide

/-! ## One step on a small state -/

/-- An idle block in the quiet setting whose next transfers report these counts (a failed one carries no byte), beside a
peripheral with these registers. -/
def calm (regs : List Byte) (counts : List Int) : State where
  host := []
  command := none
  busy := none
  response := none
  bus := []
  per := ⟨mapOffsets.zip regs, 0x0C⟩
  env := .storage
  otherMasters := false
  draws := counts.map fun c => ⟨[], some c, 0, 0xEE, 0x00, []⟩
  drawCount := 0

/-- Fourteen bytes that no test writes, then the control and the status byte. -/
def regs (ctrl stat : Byte) : List Byte :=
  [0x59, 0x59, 0x23, 0x07, 0x31, 0x92, 0x99, 0xFF, 0xFE, 0xFD, 0xFC, 0x11, 0x22, 0x33, ctrl, stat]

/-- The host presents a command word to a state. -/
def present (w : Word) (s : State) : State := { s with host := [.command w] }

/-- The response word after an outcome, if there is one. -/
def reply : Host.Outcome State Fault Refusal → Option Word
  | .next t => t.response.map Response.word
  | .fault _ => none
  | .refused _ => none

/-- The registers after an outcome, from an offset on. -/
def from? (a : Nat) : Host.Outcome State Fault Refusal → List Byte
  | .next t => (t.per.regs.drop a).map Prod.snd
  | .fault _ => []
  | .refused _ => []

/-- How many calls an outcome's command has made. -/
def calls : Host.Outcome State Fault Refusal → List BusCall
  | .next t => t.bus
  | .fault _ => []
  | .refused _ => []

/-- Sections 2.1, 2.2. -/
theorem test_encBcd : reply (step (present 0xFFFFFFFFFFFF1904 (calm [] []))) = some 0x0000000000002500 ∧
    reply (step (present 0xFF04 (calm [] []))) = some 0x9500 ∧ reply (step (present 0x9F04 (calm [] []))) = some 0xF900 := by
  decide
theorem test_decBcd : reply (step (present 0x1A05 (calm [] []))) = some 0x1400 ∧
    reply (step (present 0xFF05 (calm [] []))) = some 0xA500 := by decide

/-- Section 2.3. -/
theorem test_encTime : reply (step (present 0x190A0C010E1E0006 (calm [] []))) = some 0x2510120114300000 := by decide
theorem test_encTime_no_check : reply (step (present 0x640D200818643C06 (calm [] []))) = some 0xA013320824A06000 := by decide
theorem test_decTime : reply (step (present 0x9992310723595907 (calm [] []))) = some 0x630C1F07173B3B00 := by decide
theorem test_decTime_month_lane : reply (step (present 0x8080808080808007 (calm [] []))) = some 0x5000505050505000 := by
  decide

/-- Sections 2.4, 2.5. -/
theorem test_packA1 : reply (step (present 0x0000000000001E2A (calm [] []))) = some 0x0000008080803000 ∧
    reply (step (present 0x0000000F072D1EAA (calm [] []))) = some 0x0000005507453000 := by decide
theorem test_packA1_collides : reply (step (present 0x000000C8FFA0640A (calm [] []))) = some 0x000000C09580A000 := by decide
theorem test_packA2 : reply (step (present 0x000000000F072D6B (calm [] []))) = some 0x0000000015074500 ∧
    reply (step (present 0x000000000206008B (calm [] []))) = some 0x0000000042060000 := by decide

/-- Section 2.6. -/
theorem test_rdReg : reply (step (present 0x0F01 (calm (regs 0x00 0x8A) [1, 1]))) = some 0x8A00 ∧
    calls (step (present 0x0F01 (calm (regs 0x00 0x8A) [1, 1]))) = [.write 0x68 [0x0F] true, .read 0x68 1] := by decide
theorem test_wrReg : from? 13 (step (present 0x001C0E02 (calm (regs 0xA5 0x8A) [2]))) = [0x33, 0x1C, 0x8A] ∧
    calls (step (present 0x001C0E02 (calm (regs 0xA5 0x8A) [2]))) = [.write 0x68 [0x0E, 0x1C] false] := by decide
theorem test_updReg : from? 13 (step (present 0x101C0E03 (calm (regs 0x07 0x8A) [1, 1, 2]))) = [0x33, 0x13, 0x8A] := by decide
theorem test_updReg_set_wins : from? 13 (step (present 0x03030F03 (calm (regs 0x07 0x00) [1, 1, 2]))) = [0x33, 0x07, 0x03] :=
  by decide
theorem test_checkFlag : reply (step (present 0x0E (calm (regs 0x00 0x8A) [1, 1]))) = some 0x0000 ∧
    reply (step (present 0x2E (calm (regs 0x00 0x8A) [1, 1]))) = some 0x0100 := by decide
theorem test_clearFlag : from? 14 (step (present 0x0F (calm (regs 0x00 0x0B) [1, 1, 2]))) = [0x00, 0x0A] ∧
    from? 14 (step (present 0x2F (calm (regs 0x00 0x0B) [1, 1, 2]))) = [0x00, 0x09] := by decide
theorem test_disableAlarm : from? 14 (step (present 0x10 (calm (regs 0x07 0x00) [1, 1, 2]))) = [0x06, 0x00] ∧
    from? 14 (step (present 0x30 (calm (regs 0x07 0x00) [1, 1, 2]))) = [0x05, 0x00] := by decide
theorem test_en32k : from? 14 (step (present 0x31 (calm (regs 0x00 0x03) [1, 1, 2]))) = [0x00, 0x0B] ∧
    from? 14 (step (present 0x11 (calm (regs 0x00 0x0B) [1, 1, 2]))) = [0x00, 0x03] := by decide
theorem test_enSqw : from? 14 (step (present 0x52 (calm (regs 0x07 0x00) [1, 1, 2]))) = [0x13, 0x00] ∧
    from? 14 (step (present 0x12 (calm (regs 0xFF 0x00) [1, 1, 2]))) = [0xE3, 0x00] := by decide
theorem test_enInt : from? 14 (step (present 0x13 (calm (regs 0x13 0x00) [1, 1, 2]))) = [0x17, 0x00] := by decide

/-- Section 2.7. -/
theorem test_setTime : from? 0 (step (present 0x190A0C010E1E0008 (calm (regs 0x00 0x00) [8]))) =
    [0x00, 0x30, 0x14, 0x01, 0x12, 0x10, 0x25, 0xFF, 0xFE, 0xFD, 0xFC, 0x11, 0x22, 0x33, 0x00, 0x00] := by decide
theorem test_readTime : reply (step (present 0x09 (calm (regs 0x00 0x00) [1, 7]))) = some 0x630C1F07173B3B00 := by decide
theorem test_setAlarm1 : from? 6 (step (present 0x00000002061E00AC (calm (regs 0x18 0x00) [5, 1, 1, 2]))) =
    [0x99, 0x00, 0x30, 0x06, 0x42, 0x11, 0x22, 0x33, 0x1D, 0x00] := by decide
theorem test_setAlarm2 : from? 10 (step (present 0x000000000206008D (calm (regs 0x01 0x00) [4, 1, 1, 2]))) =
    [0xFC, 0x00, 0x06, 0x42, 0x07, 0x00] := by decide

/-- Section 2.8. -/
theorem test_checkFlag_fails : reply (step (present 0x0E (calm (regs 0x00 0x03) [0]))) = some 0x01 ∧
    calls (step (present 0x0E (calm (regs 0x00 0x03) [0]))) = [.write 0x68 [0x0F] true] := by decide
theorem test_enSqw_write_fails : reply (step (present 0x52 (calm (regs 0x07 0x00) [1, 1, 1]))) = some 0x01 ∧
    from? 14 (step (present 0x52 (calm (regs 0x07 0x00) [1, 1, 1]))) = [0x07, 0x00] := by decide
theorem test_wrReg_count_too_large : reply (step (present 0x00040E02 (calm (regs 0x07 0x00) [3]))) = some 0x01 := by decide

/-- Section 3, P4: the five prefixes of a failed alarm write, with the pointer. -/
theorem test_setAlarm2_prefixes :
    (List.range 6).map (fun e => match step (present 0x000000000206008D
        { calm (regs 0x00 0x00) [] with draws := [⟨[], some 2, e, 0xEE, 0x00, []⟩] }) with
      | .next t => ((t.per.regs.drop 11).map Prod.snd, t.per.ptr)
      | _ => ([], 0)) =
    [([0x11, 0x22, 0x33, 0x00, 0x00], 0x0C), ([0x11, 0x22, 0x33, 0x00, 0x00], 0x0B),
      ([0x00, 0x22, 0x33, 0x00, 0x00], 0x0C), ([0x00, 0x06, 0x33, 0x00, 0x00], 0x0D),
      ([0x00, 0x06, 0x42, 0x00, 0x00], 0x0E), ([0x00, 0x06, 0x42, 0x00, 0x00], 0x0E)] := by decide

/-- Section 3, P6: the lost flag. -/
def lostFlag : State :=
  { calm (regs 0x00 0x01) [1, 1] with
    env := .live
    draws := [⟨[], some 1, 0, 0, 0, []⟩, ⟨[], some 1, 0, 0, 0, []⟩,
      ⟨[.peripheral ⟨none, false, true, none, none⟩], some 2, 0, 0, 0, []⟩] }

theorem test_lost_flag : reply (step (present 0x0F lostFlag)) = some 0x00 ∧
    from? 15 (step (present 0x0F lostFlag)) = [0x00] := by decide

theorem test_illegal : step (present 0x33 (calm (regs 0x07 0x00) [])) =
    .next { calm (regs 0x07 0x00) [] with response := some (.raised .illegalCommand) } ∧
    reply (step (present 0x33 (calm [] []))) = some 0x02 := ⟨rfl, by decide⟩

/-! ## Witnesses: the hypotheses of each statement can be met together

A witness is named after its statement. Those of statements whose hypotheses are on operands alone stand at the ends of the
ranges that the statement's clauses name. -/

/-- Sixteen registers with control 0x1D and status 0x8B, and transfers answered with these counts. -/
def demo (counts : List Int) : State := calm (regs 0x1D 0x8B) counts

theorem witness_CommandIsDecodedFromItsOpcodeByte :
    decode 0x52 = .ok (.enSqw .hz4096) ∧ (opcodeField 0x52).toNat ∈ legalOpcodeBytes := by decide

theorem witness_UnusedOperandBytesAreIgnored :
    decode 0x1904 = .ok (.encBcd 25) ∧
    0xFFFFFFFFFFFF1904 &&& (Instr.encBcd 25).usedMask = 0x1904 &&& (Instr.encBcd 25).usedMask ∧
    decode 0x52 = .ok (.enSqw .hz4096) ∧
    0xFFFFFFFFFFFFFF52 &&& (Instr.enSqw .hz4096).usedMask = 0x52 &&& (Instr.enSqw .hz4096).usedMask := by decide

theorem witness_FailureResponsesCarryNoData :
    (Response.raised .transportFailure).status ≠ 0x00 ∧ (Response.raised .illegalCommand).status ≠ 0x00 := by decide

theorem witness_StepRunsTheDecodedCommand :
    (present 0x09 (demo [])).busy = none ∧ (present 0x09 (demo [])).host = .command 0x09 :: [] ∧
    decode 0x09 = .ok .readTime := by decide

theorem witness_IllegalCommandChangesNothing :
    (present 0x14 (demo [])).busy = none ∧ (present 0x14 (demo [])).host = .command 0x14 :: [] ∧
    (opcodeField 0x14).toNat ∉ legalOpcodeBytes ∧ (opcodeField 0xCA).toNat ∉ legalOpcodeBytes := by decide

theorem witness_IllegalCommandChangesNothing_legal : ∃ t, exec (.encBcd 1) (demo []) = .next t := ⟨_, rfl⟩

theorem witness_ResetLeavesTheBlockIdle :
    ({ demo [] with host := [.reset] } : State).busy = none ∧
    ({ demo [] with host := [.reset] } : State).host = .reset :: [] ∧
    (demo []).busy = none ∧ (demo []).host = [] ∧ decode 0x13 = .ok .enInt := by decide

/-- A read of register 0x05 waits for the answer to its data phase. -/
def waiting : InProgress := ⟨[.read 1], [], .byte⟩

/-- The block waits, and one more draw is known. -/
def stalled (count : Option Int) (host : List HostInput) : State :=
  { demo [] with
    host := host, busy := some waiting, command := some 0x0501, bus := [.write 0x68 [0x05] true]
    draws := [⟨[], count, 1, 0, 0, []⟩] }

theorem witness_ResetCutsACommandOffLikeAFailure :
    (stalled none [.reset]).busy = some waiting ∧ waiting.todo = .read 1 :: [] ∧
    (stalled none [.reset]).draws = ⟨[], none, 1, 0, 0, []⟩ :: [] ∧ (stalled none [.reset]).host = .reset :: [] ∧
    (0 : Int) ≠ (Transfer.read 1).size := by decide

theorem witness_EveryStepKeepsTheInvariant :
    (stalled (some 1) []).Inv ∧ (present 0x13 (demo [1, 1, 2])).Inv := by decide

theorem witness_EveryStepKeepsTheInvariant_next :
    (∃ t, step (stalled (some 1) []) = .next t) ∧ (∃ t, step (present 0x13 (demo [1, 1, 2])) = .next t) :=
  ⟨⟨_, rfl⟩, ⟨_, rfl⟩⟩

theorem witness_NoStepChangesTheParameters : ∃ t, step (present 0x13 (demo [1, 1, 2])) = .next t := ⟨_, rfl⟩

theorem witness_OnlyOffsetsAboveTheMapAreRefused :
    exec (.rdReg 0x10) (demo []) = .refused (.offsetAboveTop 0x10) ∧ 0x0F < (0x10 : Byte).toNat ∧
    (∃ t, exec (.wrReg 0x0F 0xAA) (demo [2]) = .next t ∧ BusCall.write 0x68 (0x0F :: [0xAA]) false ∈ t.bus) ∧
    ∃ t, exec (.rdReg 0x0F) (demo [1, 1]) = .next t ∧ t.bus = [.write 0x68 [0x0F] true] ++ .read 0x68 1 :: [] :=
  ⟨rfl, by decide, ⟨_, rfl, by decide⟩, _, rfl, by decide⟩

theorem witness_EveryTransferNamesDevice68 :
    (∀ c ∈ (stalled (some 1) []).bus, c.dev = 0x68) ∧ ∃ t, step (stalled (some 1) []) = .next t := ⟨by decide, _, rfl⟩

theorem witness_NothingLeaksBetweenCommands :
    ∃ t, exec .readTime (demo [1, 7]) = .next t ∧
      t.response = some (.ok ⟨59, 59, 23, 7, 31, 12, 99⟩) := ⟨_, rfl, by decide⟩

theorem witness_NoCommandDependsOnThePointer :
    (∃ t, exec (.rdReg 0x05) (demo [1, 1]) = .next t) ∧
    ∃ u, exec (.rdReg 0x05) { demo [1, 1] with per := ⟨(demo []).per.regs, 0x77⟩ } = .next u := ⟨⟨_, rfl⟩, ⟨_, rfl⟩⟩

/-- Some answered transfers, then one that is not answered. -/
def unanswered (counts : List Int) : State :=
  { demo [] with draws := counts.map (fun c => ⟨[], some c, 0, 0, 0, []⟩) ++ [⟨[], none, 0, 0, 0, []⟩] }

theorem witness_UnansweredTransferKeepsTheCommandWaiting :
    Instr.enInt.wellFormed = true ∧ 0 < Instr.enInt.requested.length ∧
    (unanswered []).answered (Instr.enInt.requested.take 0) ∧ ((unanswered []).upcoming 0).count = none ∧
    2 < Instr.enInt.requested.length ∧ (unanswered [1, 1]).answered (Instr.enInt.requested.take 2) ∧
    ((unanswered [1, 1]).upcoming 2).count = none := by decide

theorem witness_UnansweredTransferKeepsTheCommandWaiting_step :
    (stalled none []).quiet ∧ (stalled none []).busy = some waiting ∧ waiting.todo ≠ [] ∧
    (∀ rest, (stalled none []).host ≠ .reset :: rest) ∧ ((stalled none []).upcoming 0).count = none :=
  ⟨by decide, rfl, by decide, by simp [stalled], rfl⟩

theorem witness_LateAnswerChangesNothing :
    Instr.enInt.wellFormed = true ∧ 0 < Instr.enInt.requested.length ∧ 2 < Instr.enInt.requested.length ∧
    (demo [1, 1, 2]).quiet ∧ (∀ rest, (demo [1, 1, 2]).host ≠ .reset :: rest) ∧
    (demo [1, 1, 2]).answered (Instr.enInt.requested.take 2) ∧
    (∃ t, exec .enInt ((demo [1, 1, 2]).insertDraw 0 ⟨[], none, 0, 0, 0, []⟩) = .next t) ∧
    ∃ t, exec .enInt ((demo [1, 1, 2]).insertDraw 2 ⟨[], none, 0, 0, 0, []⟩) = .next t ∧ t.bus.length = 3 :=
  ⟨by decide, by decide, by decide, by decide, by simp [demo, calm], by decide, ⟨_, rfl⟩, _, rfl, by decide⟩

theorem witness_EncBcdAnswersTheFormula :
    opcodeField 0x6304 = 0x04 ∧ (99 : Byte).toNat ≤ 99 ∧ 100 ≤ (100 : Byte).toNat ∧ (100 : Byte).toNat ≤ 159 ∧
    100 ≤ (159 : Byte).toNat ∧ (159 : Byte).toNat ≤ 159 ∧ 160 ≤ (160 : Byte).toNat ∧ 160 ≤ (255 : Byte).toNat := by decide

theorem witness_DecBcdAnswersTheFormula :
    opcodeField 0x9905 = 0x05 ∧ validBcd 0x00 ∧ validBcd 0x99 ∧ ¬ validBcd 0x9A ∧ ¬ validBcd 0xA0 := by decide

theorem witness_BcdRoundTrip : (159 : Byte).toNat ≤ 159 ∧ 160 ≤ (160 : Byte).toNat := by decide

theorem witness_EncTimeEncodesEachLane : opcodeField 0x190A0C010E1E0006 = 0x06 ∧ (79 : Byte).toNat ≤ 79 := by decide

theorem witness_DecTimeMasksTheCenturyFlag : opcodeField 0x8080808080808007 = 0x07 := by decide

theorem witness_TimeRoundTrip_lanes :
    (∃ t, exec (.encTime 59 59 23 7 31 12 99) (demo []) = .next t ∧
      t.response = some (.ok ⟨0x59, 0x59, 0x23, 0x07, 0x31, 0x12, 0x99⟩)) ∧
    validCalendar 59 59 23 7 31 12 99 ∧ validCalendar 0 0 0 1 1 1 0 ∧ (159 : Byte).toNat ≤ 159 ∧ (79 : Byte).toNat ≤ 79 ∧
    80 ≤ (80 : Byte).toNat ∧ (80 : Byte).toNat ≤ 159 ∧ 80 ≤ (159 : Byte).toNat :=
  ⟨⟨_, rfl, by decide⟩, by decide⟩

theorem witness_TimeRoundTrip_registers :
    (demo [8, 1, 7]).quiet ∧ (demo [8, 1, 7]).per.regs.wf ∧ validCalendar 59 59 23 7 31 12 99 ∧
    (demo [8, 1, 7]).answered [8, 1, 7] ∧ ∃ t, exec (.setTime 59 59 23 7 31 12 99) (demo [8, 1, 7]) = .next t :=
  ⟨by decide, by decide, by decide, by decide, _, rfl⟩

theorem witness_SetTimeWritesTheEncodedBlock :
    (demo [8]).quiet ∧ (demo [8]).per.regs.wf ∧ (demo [8]).answered [8] ∧ (6 : Nat) < 7 ∧ (7 : Nat) ≤ 7 := by decide

theorem witness_ReadTimeAnswersTheDecodedBlock :
    (demo [1, 7]).quiet ∧ (demo [1, 7]).answered [1, 7] ∧ (demo [1, 7]).per.regs.byte? 0 = some 0x59 ∧
    (demo [1, 7]).per.regs.byte? 1 = some 0x59 ∧ (demo [1, 7]).per.regs.byte? 2 = some 0x23 ∧
    (demo [1, 7]).per.regs.byte? 3 = some 0x07 ∧ (demo [1, 7]).per.regs.byte? 4 = some 0x31 ∧
    (demo [1, 7]).per.regs.byte? 5 = some 0x92 ∧ (demo [1, 7]).per.regs.byte? 6 = some 0x99 := by decide

theorem witness_FailedSetTimeWritesAPrefix :
    (demo [3]).quiet ∧ (demo [3]).per.regs.wf ∧ ((demo [3]).upcoming 0).count = some 3 ∧ (3 : Int) ≠ 8 := by decide

theorem witness_PackA1AnswersTheAlarmBlock :
    (opcodeField 0x0A).toNat = Mode1.everySecond.sel.toNat * 32 + 0x0A ∧
    (opcodeField 0xAA).toNat = Mode1.dayOfWeekHourMinuteSecondMatch.sel.toNat * 32 + 0x0A ∧
    opcodeField 0x00000004030201CA = 0xCA ∧ opcodeField 0xEA = 0xEA := by decide

theorem witness_PackA2AnswersTheAlarmBlock :
    (opcodeField 0x0B).toNat = Mode2.everyMinute.sel.toNat * 32 + 0x0B ∧
    (opcodeField 0x8B).toNat = Mode2.dayOfWeekHourMinuteMatch.sel.toNat * 32 + 0x0B ∧
    opcodeField 0x00000000030201AB = 0xAB ∧ opcodeField 0xCB = 0xCB ∧ opcodeField 0xEB = 0xEB := by decide

theorem witness_AlarmMaskTableFidelity :
    validAlarm1 59 59 23 31 ∧ validAlarm2 59 23 31 ∧
    (∃ t, exec (.packA1 .secondsMatch 59 59 23 31) (demo []) = .next t ∧
      t.response = some (.ok ⟨0x59, 0xD9, 0xA3, 0xB1, 0, 0, 0⟩)) ∧
    ∃ t, exec (.packA2 .minutesMatch 59 23 31) (demo []) = .next t ∧
      t.response = some (.ok ⟨0x59, 0xA3, 0xB1, 0, 0, 0, 0⟩) :=
  ⟨by decide, by decide, ⟨_, rfl, by decide⟩, _, rfl, by decide⟩

theorem witness_FieldValuesThatReachTheFlagBits :
    (enc 80).getLsbD 7 = true ∧ (enc 159).getLsbD 7 = true ∧ (enc 240).getLsbD 7 = true ∧ (enc 255).getLsbD 7 = true ∧
    (enc 79).getLsbD 7 = false ∧ (enc 160).getLsbD 7 = false ∧ (enc 40).getLsbD 6 = true ∧ (enc 39).getLsbD 6 = false ∧
    validAlarm1 59 59 23 31 := by decide

theorem witness_SetAlarm1WritesTheBlockAndEnables :
    (demo [5, 1, 1, 2]).quiet ∧ (demo [5, 1, 1, 2]).per.regs.wf ∧ (demo [5, 1, 1, 2]).answered [5, 1, 1, 2] ∧
    (demo [5, 1, 1, 2]).per.regs.byte? 0x0E = some 0x1D := by decide

theorem witness_SetAlarm2WritesTheBlockAndEnables :
    (demo [4, 1, 1, 2]).quiet ∧ (demo [4, 1, 1, 2]).per.regs.wf ∧ (demo [4, 1, 1, 2]).answered [4, 1, 1, 2] ∧
    (demo [4, 1, 1, 2]).per.regs.byte? 0x0E = some 0x1D := by decide

theorem witness_FailedSetAlarmLeavesWhatWasDone :
    (packAlarm1 .secondsMatch 30 0 0 0).length = 4 ∧ (packAlarm2 .minutesMatch 30 0 0).length = 3 ∧
    (demo [3]).quiet ∧ (demo [3]).per.regs.wf ∧ (demo [3]).per.regs.byte? 0x0E = some 0x1D ∧
    ((demo [3]).upcoming 0).count = some 3 ∧ (3 : Int) ≠ 4 + 1 ∧
    (demo [5, 0]).answered ([4 + 1, 1].take 1) ∧ ((demo [5, 0]).upcoming 1).count = some 0 ∧
    (demo [5, 1, 0]).answered ([4 + 1, 1].take 2) ∧ ((demo [5, 1, 0]).upcoming 2).count = some 0 ∧
    (demo [5, 1, 1, 1]).answered [4 + 1, 1, 1] ∧ ((demo [5, 1, 1, 1]).upcoming 3).count = some 1 ∧
    (demo [4, 1, 1, 1]).answered [3 + 1, 1, 1] ∧ (demo [1, 1, 2]).answered [1, 1, 2] := by decide

theorem witness_RdRegAnswersTheRegister :
    (demo [1, 1]).quiet ∧ (0x0F : Byte).toNat ≤ 0x0F ∧ (demo [1, 1]).answered [1, 1] ∧
    (demo [1, 1]).per.regs.byte? (0x0F : Byte).toNat = some 0x8B ∧
    (demo [1, 1]).per.regs.byte? (0x00 : Byte).toNat = some 0x59 := by decide

theorem witness_RdRegAnswersTheRegister_failed :
    (demo [1, 3]).answered ((Instr.rdReg 0x0F).requested.take 1) ∧ 1 < (Instr.rdReg 0x0F).requested.length ∧
    ((demo [1, 3]).upcoming 1).count = some 3 ∧ (3 : Int) ≠ (1 : Nat) ∧ opcodeField 0x0F01 = 0x01 ∧
    (∃ t, exec (.rdReg 0x0F) (demo [1, 3]) = .next t) := ⟨by decide, by decide, by decide, by decide, by decide, _, rfl⟩

theorem witness_WrRegWritesTheRegister :
    (demo [2]).quiet ∧ (0x0F : Byte).toNat ≤ 0x0F ∧ (demo [2]).answered [2] ∧ (demo [2]).per.regs.wf ∧
    0x0E ≠ (0x0F : Byte).toNat := by decide

theorem witness_WrRegWritesTheRegister_failed :
    (demo [1]).quiet ∧ (0x0F : Byte).toNat ≤ 0x0F ∧ ((demo [1]).upcoming 0).count = some 1 ∧ (1 : Int) ≠ 2 ∧
    0 < (Instr.wrReg 0x0F 1).requested.length ∧ opcodeField 0x0F02 = 0x02 := by decide

theorem witness_UpdRegWritesTheUpdatedByte :
    (demo [1, 1, 2]).quiet ∧ (0x0E : Byte).toNat ≤ 0x0F ∧ (demo [1, 1, 2]).answered [1, 1, 2] ∧
    (demo [1, 1, 2]).per.regs.byte? (0x0E : Byte).toNat = some 0x1D := by decide

theorem witness_UpdateFormulaLaws :
    (0x0F : Byte).toNat ≤ 0x0F ∧ (demo [1, 1, 2]).per.regs.wf ∧ (demo [1, 1, 2]).answered [1, 1, 2] ∧
    (demo [1, 1, 2]).quiet ∧ lostFlag.per.regs.wf ∧ lostFlag.answered [1, 1, 2] ∧ ¬ lostFlag.quiet := by decide

theorem witness_FailedUpdateLeavesOldOrNew :
    (Instr.updReg 0x0E 0x1C 0x10).updateArgs = some (0x0E, 0x1C, 0x10) ∧
    Instr.enInt.updateArgs = some (0x0E, 0x00, 0x04) ∧ (demo [0]).quiet ∧ (0x0E : Byte).toNat ≤ 0x0F ∧
    (demo [0]).per.regs.byte? (0x0E : Byte).toNat = some 0x1D ∧
    (demo [0]).answered ([1].take 0) ∧ ((demo [0]).upcoming 0).count = some 0 ∧
    (demo [1, 0]).answered ([1].take 1) ∧ ((demo [1, 0]).upcoming 1).count = some 0 ∧
    (demo [1, 1, 1]).answered [1, 1] ∧ ((demo [1, 1, 1]).upcoming 2).count = some 1 := by decide

theorem witness_UpdateOverwritesWhatHappenedInBetween :
    (Instr.clearFlag .first).updateArgs = some (0x0F, 0x01, 0x00) ∧
    (0x0F : Byte).toNat ≤ 0x0F ∧ lostFlag.per.regs.wf ∧ lostFlag.answered [1, 1, 2] ∧
    lostFlag.per.regs.byte? (0x0F : Byte).toNat = some 0x01 ∧ (lostFlag.upcoming 0).before = [] ∧
    (lostFlag.upcoming 1).before = [] ∧ (lostFlag.upcoming 2).after = [] := by decide

/-- Another master writes register `a` before the address phase of the block's read, and again before its data phase. -/
def shared (a : Byte) (lead : List Draw) (counts : List Int) : State :=
  { demo [] with
    otherMasters := true
    draws := lead ++
      [⟨[.master (.write [a, 0xAA] 0)], some 1, 0, 0, 0, []⟩, ⟨[.master (.write [a, 0xBB] 0)], counts.head?, 0, 0, 0, []⟩] ++
      counts.tail.map fun c => ⟨[], some c, 0, 0, 0, []⟩ }

theorem witness_NoMasterActsInsideARead :
    (shared 0x0F [] [1]).answered [1, 1] ∧
    ((shared 0x0F [] [1]).mapAtRead 0 (shared 0x0F [] [1]).per).byte? (0x0F : Byte).toNat = some 0xAA ∧
    (shared 0x00 [] [7]).answered [1, 7] ∧
    (∀ k < 7, ((shared 0x00 [] [7]).mapAtRead 0 (shared 0x00 [] [7]).per).byte? k =
      [0xAA, 0x59, 0x23, 0x07, 0x31, 0x92, 0x99][k]?) := by decide

theorem witness_NoMasterActsInsideARead_update :
    Instr.enInt.updateArgs = some (0x0E, 0x00, 0x04) ∧ (shared 0x0E [] [1, 2]).answered [1, 1, 2] ∧
    ((shared 0x0E [] [1, 2]).mapAtRead 0 (shared 0x0E [] [1, 2]).per).byte? (0x0E : Byte).toNat = some 0xAA := by decide

theorem witness_NoMasterActsInsideARead_alarm :
    (shared 0x0E [⟨[], some 5, 0, 0, 0, []⟩] [1, 2]).answered
      [(packAlarm1 .everySecond 0 0 0 0).length + 1, 1, 1, 2] ∧
    ((shared 0x0E [⟨[], some 5, 0, 0, 0, []⟩] [1, 2]).mapAtRead 1
      (acceptWrite 0 (0x07 :: packAlarm1 .everySecond 0 0 0 0) (demo []).per)).byte? 0x0E = some 0xAA := by decide

theorem witness_RdRegAnswersTheRegister_shared :
    (shared 0x05 [] [1]).answered [1, 1] ∧ (shared 0x05 [] [1]).otherMasters = true ∧
    ((shared 0x05 [] [1]).mapAtRead 0 (shared 0x05 [] [1]).per).byte? (0x05 : Byte).toNat = some 0xAA := by decide

theorem witness_CheckFlagAnswersTheFlag :
    (demo [1, 1]).quiet ∧ (demo [1, 1]).answered [1, 1] ∧ (demo [1, 1]).per.regs.byte? 0x0F = some 0x8B ∧
    (opcodeField 0x2E).toNat = Channel.second.sel.toNat * 32 + 0x0E ∧ 1 < (Instr.checkFlag .second).requested.length ∧
    (demo [1, 3]).answered ((Instr.checkFlag .second).requested.take 1) ∧ ((demo [1, 3]).upcoming 1).count = some 3 ∧
    (∃ t, exec (.checkFlag .second) (demo [1, 3]) = .next t) :=
  ⟨by decide, by decide, by decide, by decide, by decide, by decide, by decide, _, rfl⟩

theorem witness_ClearFlagClearsOneFlag :
    (demo [1, 1, 2]).quiet ∧ (demo [1, 1, 2]).answered [1, 1, 2] ∧ (demo [1, 1, 2]).per.regs.byte? 0x0F = some 0x8B := by
  decide

theorem witness_DisableAlarmClearsOneEnable :
    (demo [1, 1, 2]).quiet ∧ (demo [1, 1, 2]).answered [1, 1, 2] ∧ (demo [1, 1, 2]).per.regs.byte? 0x0E = some 0x1D ∧
    (opcodeField 0x30).toNat = Channel.second.sel.toNat * 32 + 0x10 ∧
    2 < (Instr.disableAlarm .second).requested.length ∧
    (demo [1, 1, 3]).answered ((Instr.disableAlarm .second).requested.take 2) ∧
    ((demo [1, 1, 3]).upcoming 2).count = some 3 := by decide

theorem witness_En32kWritesStatusBit3 :
    (demo [1, 1, 2]).quiet ∧ (demo [1, 1, 2]).answered [1, 1, 2] ∧ (demo [1, 1, 2]).per.regs.byte? 0x0F = some 0x8B := by
  decide

theorem witness_EnSqwSelectsTheFrequency :
    (demo [1, 1, 2]).quiet ∧ (demo [1, 1, 2]).answered [1, 1, 2] ∧ (demo [1, 1, 2]).per.regs.byte? 0x0E = some 0x1D ∧
    (opcodeField 0x72).toNat = Freq.hz8192.sel.toNat * 32 + 0x12 ∧ opField 0x92 = 0x12 ∧ 4 ≤ (selField 0x92).toNat ∧
    (demo [1, 1, 3]).answered ((Instr.enSqw .hz1).requested.take 2) ∧ ((demo [1, 1, 3]).upcoming 2).count = some 3 := by
  decide

theorem witness_EnIntSetsIntcn :
    (demo [1, 1, 2]).quiet ∧ (demo [1, 1, 2]).answered [1, 1, 2] ∧ (demo [1, 1, 2]).per.regs.byte? 0x0E = some 0x1D ∧
    ctrlIntcn 0x1D = true ∧ opcodeField 0x13 = 0x13 ∧
    (demo [1, 1, 3]).answered (Instr.enInt.requested.take 2) ∧ ((demo [1, 1, 3]).upcoming 2).count = some 3 := by decide

theorem witness_PinModeLastWriterWins :
    (demo [1, 1, 2]).quiet ∧ (demo []).per.regs.byte? 0x0E = some 0x1D ∧
    (∃ t, exec (.enSqw .hz1) (demo [1, 1, 2]) = .next t ∧ t.response = some (.ok ⟨0, 0, 0, 0, 0, 0, 0⟩) ∧
      t.per.regs.byte? 0x0E = some 0x01) ∧
    (∃ t, exec .enInt (demo [1, 1, 2]) = .next t ∧ t.response = some (.ok ⟨0, 0, 0, 0, 0, 0, 0⟩) ∧
      t.per.regs.byte? 0x0E = some 0x1D) ∧
    (∃ t, exec (.wrReg 0x0E 0x00) (demo [2]) = .next t ∧ t.response = some (.ok ⟨0, 0, 0, 0, 0, 0, 0⟩) ∧
      t.per.regs.byte? 0x0E = some 0x00) ∧
    (∃ t, exec (.updReg 0x0E 0x04 0x00) (demo [1, 1, 2]) = .next t ∧ t.response = some (.ok ⟨0, 0, 0, 0, 0, 0, 0⟩) ∧
      t.per.regs.byte? 0x0E = some 0x19) ∧
    (∃ t, exec (.disableAlarm .first) (demo [1, 1, 2]) = .next t ∧ t.response = some (.ok ⟨0, 0, 0, 0, 0, 0, 0⟩) ∧
      t.per.regs.byte? 0x0E = some 0x1C) ∧
    0x0E ∉ (Instr.en32k true).written :=
  ⟨by decide, by decide, ⟨_, rfl, rfl, by decide⟩, ⟨_, rfl, rfl, by decide⟩, ⟨_, rfl, rfl, by decide⟩,
    ⟨_, rfl, rfl, by decide⟩, ⟨_, rfl, rfl, by decide⟩, by decide⟩

theorem witness_ClearFlagCanLoseTheOtherFlag :
    lostFlag.env = .live ∧ lostFlag.otherMasters = false ∧ lostFlag.answered [1, 1, 2] ∧
    (lostFlag.upcoming 0).before = [] ∧ (lostFlag.upcoming 1).before = [] ∧
    (lostFlag.upcoming 2).before = [.peripheral ⟨none, false, true, none, none⟩] ∧ (lostFlag.upcoming 2).after = [] ∧
    lostFlag.per.regs.byte? 0x0F = some 0x01 ∧ Channel.second ≠ Channel.first := by decide

theorem witness_TransfersWhenNothingFails :
    (Instr.setAlarm1 .everySecond 0 0 0 0).wellFormed = true ∧
    (demo [5, 1, 1, 2]).answered (Instr.setAlarm1 .everySecond 0 0 0 0).requested ∧
    (Instr.encBcd 7).wellFormed = true ∧ (demo []).answered (Instr.encBcd 7).requested := by decide

theorem witness_StopAtTheFirstFailure :
    Instr.enInt.wellFormed = true ∧ 0 < Instr.enInt.requested.length ∧ (demo [0]).answered (Instr.enInt.requested.take 0) ∧
    ((demo [0]).upcoming 0).count = some 0 ∧ (0 : Int) ≠ (1 : Nat) ∧ 2 < Instr.enInt.requested.length ∧
    (demo [1, 1, 3]).answered (Instr.enInt.requested.take 2) ∧ ((demo [1, 1, 3]).upcoming 2).count = some 3 ∧
    (3 : Int) ≠ (2 : Nat) := by decide

theorem witness_CommandsChangeOnlyTheirRegisters :
    (demo [1, 7]).quiet ∧ 0x00 ∉ Instr.readTime.written ∧ Instr.readTime.written = [] ∧ (Instr.encBcd 7).requested = [] ∧
    0x0D ∉ Instr.enInt.written ∧ 0x0F ∉ Instr.enInt.written := by decide

theorem witness_CommandsChangeOnlyTheirRegisters_next :
    (∃ t, exec .readTime (demo [1, 7]) = .next t) ∧ (∃ t, exec (.encBcd 7) (demo []) = .next t) ∧
    ∃ t, exec .enInt (demo [1, 0]) = .next t := ⟨⟨_, rfl⟩, ⟨_, rfl⟩, _, rfl⟩

theorem witness_EnvironmentStepsKeepTheirLimits :
    (demo []).per.regs.wf ∧ (demo []).per.regs.byte? 0x0E = some 0x1D ∧ (demo []).per.regs.byte? 0x0F = some 0x8B ∧
    (envStep ⟨none, true, false, some 0xE0, some 0x04⟩ (demo []).per).regs.byte? 0x0E = some 0xFD ∧
    (envStep ⟨none, true, false, some 0xE0, some 0x04⟩ (demo []).per).regs.byte? 0x0F = some 0x0F := by decide

theorem witness_LivePeripheralKeepsConfiguration :
    lostFlag.otherMasters = false ∧ 0x0E ∉ (Instr.clearFlag .first).written ∧ 0x0D ∉ (Instr.clearFlag .first).written ∧
    0x07 ∉ (Instr.clearFlag .first).written ∧ 0x0F ∉ Instr.enInt.written ∧ lostFlag.per.regs.byte? 0x0E = some 0x00 ∧
    lostFlag.per.regs.byte? 0x0F = some 0x01 := by decide

theorem witness_LivePeripheralKeepsConfiguration_next :
    (∃ t, exec (.clearFlag .first) lostFlag = .next t ∧ t.per.regs.byte? 0x0E = some 0x00) ∧
    ∃ t, exec .enInt lostFlag = .next t ∧ t.per.regs.byte? 0x0F = some 0x03 := ⟨⟨_, rfl, by decide⟩, _, rfl, by decide⟩

theorem witness_TransfersFollowThePointer :
    (supply 0 0 2 ⟨(demo []).per.regs, 0x0D⟩).2.regs.byte? (supply 0 0 2 ⟨(demo []).per.regs, 0x0D⟩).2.ptr.toNat =
      some 0x8B := by decide

theorem witness_RetryLeavesWhatOneSuccessWouldHave :
    (demo []).quiet ∧ (demo []).per.regs.wf ∧
    (∃ t, exec .enInt (demo [1, 1, 1, 1, 1, 2]) = .next t ∧ t.response = some (.raised .transportFailure) ∧
      ∃ u, exec .enInt t = .next u ∧ u.response = some (.ok ⟨0, 0, 0, 0, 0, 0, 0⟩)) ∧
    (∃ v, exec .enInt ((demo [1, 1, 1, 1, 1, 2]).withDraws (demo [1, 1, 2]).draws 0) = .next v ∧
      v.response = some (.ok ⟨0, 0, 0, 0, 0, 0, 0⟩)) ∧
    decode 0x13 = .ok .enInt ∧ (stalled none [.command 0x13]).busy = some waiting ∧
    (stalled none [.command 0x13]).host = .command 0x13 :: [] :=
  ⟨by decide, by decide, ⟨_, rfl, rfl, _, rfl, by decide⟩, ⟨_, rfl, by decide⟩, by decide, rfl, rfl⟩

end Sys2Proof.Tests
end

