-- ==== Sys2Proof/Proofs/State.lean ====
section
/-! PROOFS. What a step can do, said once (spec/10_state.md R23, R44), and two statements about the state: a reset that cuts a
command off (R44), and the device address of every transfer (R42). -/

namespace Sys2Proof.Machine

open Sys2Proof

/-! ## What a step can do -/

theorem step_reset {s : State} {rest : List HostInput} (h : s.host = .reset :: rest) :
    step s = .next (resetBlock (s.takeInput s.command)) := by
  simp [step, h]

theorem step_resume {s : State} {p : InProgress} (hb : s.busy = some p) (hh : ∀ rest, s.host ≠ .reset :: rest) :
    step s = .next (resume p s) := by
  unfold step
  split
  case h_1 rest h => exact absurd h (hh rest)
  all_goals rw [hb]

theorem step_idle {s : State} (hb : s.busy = none) (hh : s.host = []) : step s = .next s := by
  simp [step, hb, hh]

theorem step_command {s : State} {w : Word} {rest : List HostInput} {i : Instr} (hb : s.busy = none)
    (hh : s.host = .command w :: rest) (hd : decode w = .ok i) : step s = exec i (s.takeInput (some w)) := by
  simp [step, hb, hh, hd]

theorem step_illegal {s : State} {w : Word} {rest : List HostInput} {e : DecodeError} (hb : s.busy = none)
    (hh : s.host = .command w :: rest) (hd : decode w = .error e) :
    step s = .next (rejectCommand (s.takeInput (some w))) := by
  simp [step, hb, hh, hd]

/-- A step resets the block, goes on with a command in progress, executes a command, rejects a word, or waits. -/
theorem step_cases {s t : State} (h : step s = .next t) :
    (∃ rest, s.host = .reset :: rest ∧ t = resetBlock (s.takeInput s.command)) ∨
    (∃ p, s.busy = some p ∧ (∀ rest, s.host ≠ .reset :: rest) ∧ t = resume p s) ∨
    (∃ w rest i, s.busy = none ∧ s.host = .command w :: rest ∧ decode w = .ok i ∧
      exec i (s.takeInput (some w)) = .next t) ∨
    (∃ w rest e, s.busy = none ∧ s.host = .command w :: rest ∧ decode w = .error e ∧
      t = rejectCommand (s.takeInput (some w))) ∨
    (s.busy = none ∧ s.host = [] ∧ t = s) := by
  by_cases hr : ∃ rest, s.host = .reset :: rest
  · obtain ⟨rest, hr⟩ := hr
    rw [step_reset hr] at h
    exact .inl ⟨rest, hr, (Host.Outcome.next.inj h).symm⟩
  have hr : ∀ rest, s.host ≠ .reset :: rest := not_exists.1 hr
  cases hb : s.busy with
  | some p =>
    rw [step_resume hb hr] at h
    exact .inr (.inl ⟨p, rfl, hr, (Host.Outcome.next.inj h).symm⟩)
  | none =>
    rcases hh : s.host with _ | ⟨w | _, rest⟩
    · rw [step_idle hb hh] at h
      exact .inr (.inr (.inr (.inr ⟨rfl, rfl, (Host.Outcome.next.inj h).symm⟩)))
    · cases hd : decode w with
      | ok i => exact .inr (.inr (.inl ⟨w, rest, i, rfl, rfl, hd, step_command hb hh hd ▸ h⟩))
      | error e =>
        rw [step_illegal hb hh hd] at h
        exact .inr (.inr (.inr (.inl ⟨w, rest, e, rfl, rfl, hd, (Host.Outcome.next.inj h).symm⟩)))
    · exact absurd hh (hr rest)

/-! ## A reset in mid-command (R44) -/

/-- The peripheral after a transfer that did not complete, under a given draw: a drawn prefix took effect, between what
happens before the transfer and after it (R46, R52, R63). The draw's count has no part in it. -/
def cutOff (tr : Transfer) (buf : List Byte) (d : Draw) (s : State) : Peripheral :=
  disturb s.env s.otherMasters d.after (carry tr buf d (min d.reached tr.size)
    (disturb s.env (s.otherMasters && tr.opensTransaction) d.before s.per)).2

theorem upcoming_zero {s : State} {d : Draw} {ds : List Draw} (h : s.draws = d :: ds) : s.upcoming 0 = d := by
  simp [State.upcoming, h]

/-- What a cut-off transfer leaves depends on the two parameters, the peripheral and the draw, but not on its count. -/
theorem cutOff_congr (tr : Transfer) (buf : List Byte) (d : Draw) (count : Option Int) {s t : State}
    (henv : t.env = s.env) (hmasters : t.otherMasters = s.otherMasters) (hper : t.per = s.per) :
    cutOff tr buf { d with count := count } t = cutOff tr buf d s := by
  have hcarry : ∀ e p, carry tr buf { d with count := count } e p = carry tr buf d e p := by
    intro e p; cases tr <;> rfl
  simp only [cutOff, hcarry, henv, hmasters, hper]

/-- A failing transfer leaves the peripheral cut off there. -/
theorem run_failed_per {fin : Finish} {tr : Transfer} {rest : List Transfer} {buf : List Byte}
    {after : List Disturbance} {al : Bool} {s : State} {c : Int} (h : (s.upcoming 0).count = some c)
    (hc : c ≠ tr.size) : (run fin (tr :: rest) buf after al s).per = cutOff tr buf (s.upcoming 0) s := by
  rw [run_failed h hc]
  rfl

/-- A reset leaves the peripheral with the transfer in flight cut off. -/
theorem resetBlock_per {s : State} {p : InProgress} {tr : Transfer} {todo : List Transfer} (hb : s.busy = some p)
    (ht : p.todo = tr :: todo) : (resetBlock s).per = cutOff tr p.buf (s.upcoming 0) s := by
  simp [resetBlock, hb, abandon, ht, cutOff]

@[simp] theorem abandon_host (p : InProgress) (s : State) : (abandon p s).host = s.host := by
  unfold abandon; split <;> simp
@[simp] theorem resetBlock_host (s : State) : (resetBlock s).host = s.host := by
  unfold resetBlock; cases s.busy <;> simp
@[simp] theorem resetBlock_command (s : State) : (resetBlock s).command = none := rfl
@[simp] theorem resetBlock_busy (s : State) : (resetBlock s).busy = none := rfl
@[simp] theorem resetBlock_response (s : State) : (resetBlock s).response = none := rfl
@[simp] theorem resetBlock_bus (s : State) : (resetBlock s).bus = [] := rfl

/-- Settles O11: the reset and the failure leave the same cut-off transfer, since nothing but its ending reads the
count. -/
theorem resetCutsACommandOffLikeAFailure : Obligations.ResetCutsACommandOffLikeAFailure := by
  intro s p tr todo d ds rest c hb ht hd hh hc
  refine ⟨resetBlock (s.takeInput s.command), resume p { s with host := [], draws := { d with count := some c } :: ds },
    step_reset hh, step_resume hb (by simp), ?_, ?_, resetBlock_response _, resetBlock_busy _, resetBlock_command _,
    resetBlock_bus _, by simp [hh]⟩
  · rw [resetBlock_per (s := s.takeInput s.command) hb ht, upcoming_zero (s := s.takeInput s.command) hd, resume, ht,
      run_failed_per rfl hc]
    exact (cutOff_congr tr p.buf d (some c) rfl rfl rfl).symm
  · rw [resume, ht, run_failed (c := c) rfl hc]
    rfl

/-! ## The device address (R42) -/

/-- Every call a command has made when its step ends is the call of one of its transfers. -/
theorem exec_bus {i : Instr} {s t : State} (h : exec i s = .next t) {c : BusCall} (hc : c ∈ t.bus) :
    ∃ tr ∈ transfersOf i, ∃ b, c = tr.call b := by
  obtain ⟨-, r, hr⟩ | ⟨-, hr⟩ := exec_cases i s (wellFormed_of_next h)
  · obtain rfl : complete r s = t := Host.Outcome.next.inj (hr.symm.trans h)
    simp [complete] at hc
  · obtain rfl : start (transfersOf i) (finishOf i) s = t := Host.Outcome.next.inj (hr.symm.trans h)
    exact (run_bus _ _ _ _ _ _ c hc).resolve_left List.not_mem_nil

/-- Every call in the record after a step was there before, or is the call of a transfer. -/
theorem step_bus {s t : State} (h : step s = .next t) {c : BusCall} (hc : c ∈ t.bus) :
    c ∈ s.bus ∨ ∃ (tr : Transfer) (b : List Byte), c = tr.call b := by
  obtain ⟨_, -, rfl⟩ | ⟨p, -, -, rfl⟩ | ⟨_, _, i, -, -, -, hx⟩ | ⟨_, _, _, -, -, -, rfl⟩ | ⟨-, -, rfl⟩ := step_cases h
  · simp at hc
  · exact (run_bus _ _ _ _ _ _ c hc).imp_right fun ⟨tr, _, b, hb⟩ => ⟨tr, b, hb⟩
  · obtain ⟨tr, -, b, hb⟩ := exec_bus hx hc
    exact .inr ⟨tr, b, hb⟩
  · simp [rejectCommand] at hc
  · exact .inl hc

/-- Settles O16: a call is an earlier one, or a transfer's, and every transfer names 0x68. -/
theorem everyTransferNamesDevice68 : Obligations.EveryTransferNamesDevice68 := by
  intro s t hs h c hc
  obtain hc | ⟨tr, b, rfl⟩ := step_bus h hc
  · exact hs c hc
  · exact call_dev tr b

end Sys2Proof.Machine
end

