-- ==== Sys2Proof/Proofs/Memory.lean ====
section
/-! PROOFS. The transfers a command makes when nothing fails (spec/20_memory.md R67). -/

namespace Sys2Proof.Machine

open Sys2Proof

/-! ## The calls of a list of transfers -/

/-- The calls are those of the transfers, in order, each with the bytes that had been read by then. -/
abbrev CallsOf (calls : List BusCall) (todo : List Transfer) : Prop :=
  List.Forall₂ (fun c tr => ∃ b, c = Transfer.call b tr) calls todo

/-- The calls of the transfers as they would be if nothing had been read. -/
def plannedCalls (todo : List Transfer) : List BusCall := todo.map (Transfer.call [])

/-- What a call says apart from the bytes read is what the planned call says. -/
theorem CallsOf.map_eq {calls : List BusCall} {todo : List Transfer} (h : CallsOf calls todo) {γ : Type}
    (f : BusCall → γ) (hf : ∀ (tr : Transfer) (b : List Byte), f (tr.call b) = f (tr.call [])) :
    calls.map f = (plannedCalls todo).map f := by
  induction h with
  | nil => rfl
  | cons hc _ ih =>
    obtain ⟨b, rfl⟩ := hc
    simp only [plannedCalls, List.map_cons, hf _ b] at ih ⊢
    rw [ih]

theorem CallsOf.filterMap_eq {calls : List BusCall} {todo : List Transfer} (h : CallsOf calls todo) {γ : Type}
    (f : BusCall → Option γ) (hf : ∀ (tr : Transfer) (b : List Byte), f (tr.call b) = f (tr.call [])) :
    calls.filterMap f = (plannedCalls todo).filterMap f := by
  simpa [List.filterMap_map] using congrArg (List.filterMap id) (h.map_eq f hf)

theorem CallsOf.countP_eq {calls : List BusCall} {todo : List Transfer} (h : CallsOf calls todo)
    (p : BusCall → Bool) (hp : ∀ (tr : Transfer) (b : List Byte), p (tr.call b) = p (tr.call [])) :
    calls.countP p = (plannedCalls todo).countP p := by
  simpa [List.countP_map] using congrArg (List.countP id) (h.map_eq p hp)

/-! ## What a call says apart from the bytes read -/

theorem call_memRead? (tr : Transfer) (b : List Byte) : (tr.call b).memRead? = (tr.call []).memRead? := by
  cases tr <;> rfl

theorem call_memWrite? (tr : Transfer) (b : List Byte) : (tr.call b).memWrite? = (tr.call []).memWrite? := by
  cases tr <;> rfl

theorem call_isWrite (tr : Transfer) (b : List Byte) : (tr.call b).isWrite = (tr.call []).isWrite := by
  cases tr <;> rfl

/-! ## The table of R67 for the planned calls -/

/-- Each `MemRead` is a write of its address and a read of its data, and each `MemWrite` is one write
(R48, R49). -/
theorem plannedCalls_table (i : Instr) :
    (plannedCalls (transfersOf i)).filterMap BusCall.memRead? = i.memReads ∧
    (plannedCalls (transfersOf i)).filterMap BusCall.memWrite? = i.memWrites ∧
    (plannedCalls (transfersOf i)).countP BusCall.isWrite = i.memReads.length + i.memWrites.length ∧
    (plannedCalls (transfersOf i)).countP (fun c => !c.isWrite) = i.memReads.length := by
  cases i
  case en32k on => cases on <;> exact ⟨rfl, rfl, rfl, rfl⟩
  all_goals exact ⟨rfl, rfl, rfl, rfl⟩

theorem plannedCalls_sizes (i : Instr) : (plannedCalls (transfersOf i)).map BusCall.size = i.requested := by
  rw [← transfers_sizes, plannedCalls, List.map_map]
  exact List.map_congr_left fun tr _ => call_size tr []

/-! ## A command whose transfers are all answered as requested -/

/-- The answers an instruction asks for are those its transfers ask for. -/
theorem answered_transfers {i : Instr} {s : State} (h : s.answered i.requested) (k : Nat)
    (hk : k < (transfersOf i).length) : (s.upcoming k).count = some ((transfersOf i)[k].size : Int) :=
  answered_get h (by simp [← transfers_sizes, hk])

/-- A run whose transfers are all answered as requested makes every one of them and answers `OK`. -/
theorem run_all_answered (fin : Finish) (todo : List Transfer) (buf : List Byte) (after : List Disturbance) (s : State)
    (h : ∀ k (hk : k < todo.length), (s.upcoming k).count = some (todo[k].size : Int)) :
    let t := run fin todo buf after false s
    (∃ r, t.response = some (.ok r)) ∧ (∃ calls, t.bus = s.bus ++ calls ∧ CallsOf calls todo) ∧
      ∀ k, t.upcoming k = s.upcoming (todo.length + k) := by
  obtain ⟨buf', after', s', calls, hrun, hbus, hcalls, hdraws, -, -⟩ :=
    run_prefix fin todo todo.length le_rfl buf after s h
  rw [List.drop_length, run_nil] at hrun
  rw [List.take_length] at hcalls
  rw [hrun]
  exact ⟨⟨_, rfl⟩, ⟨calls, hbus, hcalls⟩, fun k => (upcoming_congr rfl rfl k).trans (hdraws k)⟩

/-- Such a command makes the calls of all its transfers and no other, takes one draw for each, and answers `OK`. -/
theorem exec_answered {i : Instr} {s : State} (hw : i.wellFormed = true) (h : s.answered i.requested) :
    ∃ t r, exec i s = .next t ∧ t.response = some (.ok r) ∧ CallsOf t.bus (transfersOf i) ∧
      ∀ k, t.upcoming k = s.upcoming (i.requested.length + k) := by
  rw [← transfers_sizes, List.length_map]
  obtain ⟨hnone, r, hexec⟩ | ⟨-, hexec⟩ := exec_cases i s hw
  · rw [hnone]
    exact ⟨complete r s, r, hexec, rfl, .nil, fun k => by rw [List.length_nil, Nat.zero_add]; rfl⟩
  · obtain ⟨⟨r, hr⟩, ⟨calls, hbus, hcalls⟩, hdraws⟩ :=
      run_all_answered (finishOf i) (transfersOf i) [] [] (begin s) (answered_transfers h)
    rw [begin_bus, List.nil_append] at hbus
    exact ⟨_, r, hexec, hr, hbus ▸ hcalls, hdraws⟩

/-- Settles O52: the calls are the planned ones but for the bytes read, and those are in the table of R67. -/
theorem transfersWhenNothingFails : Obligations.TransfersWhenNothingFails := by
  intro i s hw h
  obtain ⟨t, r, hexec, hr, hcalls, hdraws⟩ := exec_answered hw h
  obtain ⟨hreads, hwrites, hwriteCalls, hreadCalls⟩ := plannedCalls_table i
  refine ⟨t, r, hexec, hr, ?_, ?_, ?_, ?_, ?_, hdraws⟩
  · rw [hcalls.filterMap_eq _ call_memRead?, hreads]
  · rw [hcalls.filterMap_eq _ call_memWrite?, hwrites]
  · rw [← List.countP_eq_length_filter, hcalls.countP_eq _ call_isWrite, hwriteCalls]
  · rw [← List.countP_eq_length_filter, hcalls.countP_eq _ fun tr b => congrArg not (call_isWrite tr b), hreadCalls]
  · rw [hcalls.map_eq BusCall.size fun tr b => by rw [call_size, call_size], plannedCalls_sizes]

end Sys2Proof.Machine
end

/-! PROOFS. The fields of a command word, its legal opcode bytes, and the operand bytes a command does not use
(spec/30_encoding.md R70, R84, R87). -/

namespace Sys2Proof

/-! ## The fields of a command word (R70) -/

/-- The opcode byte is the selector times 32 plus the operation code. -/
theorem opcodeField_eq_sel_op (w : Word) : (opcodeField w).toNat = (selField w).toNat * 32 + (opField w).toNat := by
  rw [opField_toNat, selField_toNat, Nat.div_add_mod']

/-- Settles O3: a field is the word's number divided and cut off at the field's place, and packing the fields gives the
word back. -/
theorem commandWordLayout : Obligations.CommandWordLayout := by
  intro w
  refine ⟨?_, ?_, opcodeField_eq_sel_op w, field_toNat w 8, field_toNat w 16, field_toNat w 24, field_toNat w 32,
    field_toNat w 40, field_toNat w 48, field_toNat w 56, packWord_fields w⟩
  · rw [opField_toNat, opcodeField, field_toNat]
    omega
  · rw [selField_toNat, opcodeField, field_toNat]
    omega

/-! ## What a decoded command says of its word (R84) -/

theorem op_of_decode {w : Word} {i : Instr} (h : decode w = .ok i) : i.op = opField w :=
  BitVec.eq_of_toNat_eq (decodeFields_ok h).1

theorem sel_of_decode {w : Word} {i : Instr} (h : decode w = .ok i) : i.sel = selField w :=
  BitVec.eq_of_toNat_eq (decodeFields_ok h).2.1

theorem operands_of_decode {w : Word} {i : Instr} (h : decode w = .ok i) :
    i.operands = (slotFields w).keep i.operandCount :=
  (decodeFields_ok h).2.2

theorem opcodeByte_of_decode {w : Word} {i : Instr} (h : decode w = .ok i) : i.opcodeByte = opcodeField w := by
  apply BitVec.eq_of_toNat_eq
  rw [opcodeByte_toNat, op_of_decode h, sel_of_decode h, opcodeField_eq_sel_op]

/-! ## The legal opcode bytes (R84) -/

/-- Every instruction's opcode byte is one of the 44. -/
theorem opcodeByte_legal (i : Instr) : i.opcodeByte.toNat ∈ legalOpcodeBytes := by
  suffices h : Laws.OpcodeByte.Statement i from h.1
  cases i with
  | rdReg a => exact Laws.OpcodeByte.rdReg a
  | wrReg a v => exact Laws.OpcodeByte.wrReg a v
  | updReg a m v => exact Laws.OpcodeByte.updReg a m v
  | encBcd v => exact Laws.OpcodeByte.encBcd v
  | decBcd b => exact Laws.OpcodeByte.decBcd b
  | encTime s mi h w d mo y => exact Laws.OpcodeByte.encTime s mi h w d mo y
  | decTime b0 b1 b2 b3 b4 b5 b6 => exact Laws.OpcodeByte.decTime b0 b1 b2 b3 b4 b5 b6
  | setTime s mi h w d mo y => exact Laws.OpcodeByte.setTime s mi h w d mo y
  | readTime => exact Laws.OpcodeByte.readTime
  | packA1 m s mi h d => exact Laws.OpcodeByte.packA1 m s mi h d
  | packA2 m mi h d => exact Laws.OpcodeByte.packA2 m mi h d
  | setAlarm1 m s mi h d => exact Laws.OpcodeByte.setAlarm1 m s mi h d
  | setAlarm2 m mi h d => exact Laws.OpcodeByte.setAlarm2 m mi h d
  | checkFlag c => exact Laws.OpcodeByte.checkFlag c
  | clearFlag c => exact Laws.OpcodeByte.clearFlag c
  | disableAlarm c => exact Laws.OpcodeByte.disableAlarm c
  | en32k on => exact Laws.OpcodeByte.en32k on
  | enSqw f => exact Laws.OpcodeByte.enSqw f
  | enInt => exact Laws.OpcodeByte.enInt

/-- Each of the 44 bytes decodes, whatever stands in the operand slots. -/
theorem decodeFields_legal (p : Slots) :
    ∀ b ∈ legalOpcodeBytes, (decodeFields (b % 32) (b / 32) p).isOk = true :=
  List.all_eq_true.1 rfl

theorem decode_of_legal {w : Word} (h : (opcodeField w).toNat ∈ legalOpcodeBytes) : ∃ i, decode w = .ok i := by
  have hok : (decode w).isOk = true := by
    rw [decode, opField_toNat, selField_toNat]
    exact decodeFields_legal _ _ h
  cases hd : decode w with
  | ok i => exact ⟨i, rfl⟩
  | error e => simp [hd, Except.isOk, Except.toBool] at hok

/-- Settles O4: a decoded command has its word's opcode byte, which is legal for every command; and each legal byte
decodes. -/
theorem commandIsDecodedFromItsOpcodeByte : Obligations.CommandIsDecodedFromItsOpcodeByte := by
  refine ⟨fun w => ⟨?_, decode_of_legal⟩, fun w i h => ⟨op_of_decode h, sel_of_decode h⟩, rfl, by decide⟩
  rintro ⟨i, h⟩
  exact opcodeByte_of_decode h ▸ opcodeByte_legal i

/-! ## The unused operand bytes (R87) -/

theorem operandCount_le (i : Instr) : i.operandCount ≤ 7 := by cases i <;> simp [Instr.operandCount]

/-- Cutting a packed word off behind its low byte and `n` slots clears the other slots. -/
theorem packWord_keep (low : Byte) (p : Slots) {n : Nat} (hn : n ≤ 7) :
    packWord low (p.keep n) = packWord low p &&& BitVec.ofNat 64 (2 ^ (8 * (n + 1)) - 1) := by
  have hmask : 2 ^ (8 * (n + 1)) - 1 < 2 ^ 64 :=
    lt_of_lt_of_le (Nat.sub_lt (by positivity) one_pos) (Nat.pow_le_pow_right two_pos (by omega))
  apply BitVec.eq_of_toNat_eq
  rw [BitVec.toNat_and, BitVec.toNat_ofNat, Nat.mod_eq_of_lt hmask, Nat.and_two_pow_sub_one_eq_mod, packWord_toNat,
    packWord_toNat]
  interval_cases n <;> simp [Slots.keep] <;> omega

/-- The bits an instruction uses are the opcode byte and its first operand slots. -/
theorem and_usedMask (w : Word) (i : Instr) :
    w &&& i.usedMask = packWord (opcodeField w) ((slotFields w).keep i.operandCount) := by
  rw [packWord_keep _ _ (operandCount_le i), packWord_fields, Instr.usedMask]

/-- The slots an instruction does not use have no part in decoding it. -/
theorem decodeFields_congr {op sel : Nat} {p p' : Slots} {i : Instr} (h : decodeFields op sel p = .ok i)
    (hp : p'.keep i.operandCount = p.keep i.operandCount) : decodeFields op sel p' = .ok i := by
  unfold decodeFields at h
  split at h
  case h_20 => simp at h
  all_goals
    obtain ⟨x, hx, rfl⟩ := selected_ok h
    simp [Slots.keep, Instr.operandCount] at hp
    simp [decodeFields, selected, hx, hp]

/-- Settles O5: the used bits of a word are its opcode byte and the used slots, which are all that encoding writes and
all that decoding reads. -/
theorem unusedOperandBytesAreIgnored : Obligations.UnusedOperandBytesAreIgnored := by
  refine ⟨fun w i h => ?_, fun w w' i h hused => ?_⟩
  · rw [and_usedMask, encode, opcodeByte_of_decode h, operands_of_decode h]
  · rw [and_usedMask, and_usedMask] at hused
    have hbyte : opcodeField w' = opcodeField w := by
      simpa only [opcodeField_packWord] using congrArg opcodeField hused
    have hslots : (slotFields w').keep i.operandCount = (slotFields w).keep i.operandCount := by
      simpa only [slotFields_packWord] using congrArg slotFields hused
    rw [decode, opField_toNat, selField_toNat, hbyte, ← opField_toNat, ← selField_toNat]
    exact decodeFields_congr h hslots

end Sys2Proof

/-! PROOFS. Register access (spec/40_register_access.md): how a command with transfers starts and fails, and `WR_REG`
(R101). -/

namespace Sys2Proof.Machine

open Sys2Proof

/-! ## Decoding by the opcode byte (R84) -/

/-- The opcode byte gives the operation code and the selector. -/
theorem decode_of_opcodeField {w : Word} {b : Byte} (h : opcodeField w = b) :
    decode w = decodeFields (b.toNat % 32) (b.toNat / 32) (slotFields w) := by
  rw [decode, opField_toNat, selField_toNat, h]

/-! ## A command that has transfers -/

theorem exec_start {i : Instr} (s : State) (hw : i.wellFormed = true) (hne : transfersOf i ≠ []) :
    exec i s = .next (start (transfersOf i) (finishOf i) s) :=
  ((exec_cases i s hw).resolve_left fun h => hne h.1).2

theorem CallsOf.map_size {calls : List BusCall} {todo : List Transfer} (h : CallsOf calls todo) :
    calls.map BusCall.size = todo.map Transfer.size := by
  rw [h.map_eq BusCall.size fun tr b => by rw [call_size, call_size], plannedCalls, List.map_map]
  exact List.map_congr_left fun tr _ => call_size tr []

/-- A run whose first wrong count is its `k`-th answers `TransportFailure`, with the calls up to that one made. -/
theorem run_fails_at (fin : Finish) (todo : List Transfer) {k : Nat} (hk : k < todo.length) (buf : List Byte)
    (after : List Disturbance) {s : State} {c : Int}
    (hbefore : ∀ j (hj : j < k), (s.upcoming j).count = some (todo[j].size : Int))
    (hc : (s.upcoming k).count = some c) (hne : c ≠ todo[k].size) :
    let t := run fin todo buf after false s
    t.response = some (.raised .transportFailure) ∧
      t.bus.map BusCall.size = s.bus.map BusCall.size ++ (todo.take (k + 1)).map Transfer.size := by
  obtain ⟨buf', after', s', calls, hrun, hbus, hcalls, hdraws, -, -⟩ :=
    run_prefix fin todo k hk.le buf after s hbefore
  have hcount : (s'.upcoming 0).count = some c := by rw [hdraws, Nat.add_zero, hc]
  rw [List.drop_eq_getElem_cons hk, moved_failed hcount hne] at hrun
  rw [hrun, List.take_succ_eq_append_getElem hk]
  exact ⟨rfl, by simp only [raise_bus, moved_bus, hbus, List.map_append, CallsOf.map_size hcalls, List.map_singleton,
    call_size, List.append_assoc]⟩

/-- A well-formed command makes no transfer after the first wrong count (R178). -/
theorem failsAtAnyTransfer_of_wellFormed {i : Instr} (hw : i.wellFormed = true) : failsAtAnyTransfer i := by
  intro s k c hk hbefore hc hne
  simp only [← transfers_sizes, List.length_map, List.getElem_map, ← List.map_take] at hk hbefore hne ⊢
  have hstart := exec_start s hw (List.ne_nil_of_length_pos (by omega))
  obtain ⟨hresponse, hbus⟩ := run_fails_at (s := begin s) (finishOf i) (transfersOf i) hk [] []
    (fun j hj => by simpa using hbefore j (by simp; omega)) hc hne
  exact ⟨_, hstart, hresponse, hbus⟩

/-! ## One byte written to a register (R101) -/

theorem nextPtr_of_inMap (past : Byte) {a : Byte} (ha : a.toNat ≤ 0x0F) :
    nextPtr past a = if a = 0x0F then past else a + 1 := by
  have hiff : a.toNat < regTop ↔ a ≠ 0x0F := by unfold regTop; bv_omega
  rw [nextPtr, if_congr hiff rfl rfl, ite_not]

/-- Of a one-byte write the register takes nothing, unless both the offset and the byte reached the peripheral. -/
theorem carry_store_one_regs (a v : Byte) (buf : List Byte) (d : Draw) (p : Peripheral) (ha : a.toNat ≤ 0x0F) :
    (carry (.store a [v]) buf d (min d.reached 2) p).2.regs =
      if 2 ≤ d.reached then p.regs.write a.toNat v else p.regs := by
  have hregs : (carry (.store a [v]) buf d (min d.reached 2) p).2.regs =
      p.regs.writeBlock a.toNat ([v].take (min d.reached 2 - 1)) :=
    acceptWrite_take_regs d.ptrPast a [v] _ p (by simp; omega)
  rw [hregs]
  split
  case isTrue h => rw [min_eq_right h]; rfl
  case isFalse h => rw [show min d.reached 2 - 1 = 0 by omega]; rfl

theorem exec_wrReg {a : Byte} (ha : a.toNat ≤ 0x0F) (v : Byte) (s : State) :
    exec (.wrReg a v) s = .next (start (memWrite a [v]) .nothing s) :=
  exec_start s (decide_eq_true ha) (List.cons_ne_nil _ _)

/-- Settles O38: the command is one write of one byte, which the register takes whole or not at all. -/
theorem wrRegWritesTheRegister : Obligations.WrRegWritesTheRegister := by
  refine ⟨fun w hw => decode_of_opcodeField hw, fun s a v hq ha hc => ⟨?_, fun hwf => ?_, fun x hx => ?_⟩,
    fun a v ha => failsAtAnyTransfer_of_wellFormed (decide_eq_true ha), fun s a v c hq ha hc hne => ?_⟩
  · rw [exec_wrReg ha, quiet_start_memWrite hq a [v] (answered_cons hc), ← nextPtr_of_inMap _ ha]
    rfl
  · rw [byte?_write, if_pos rfl, byte?_of_wf hwf ha, Option.map_some]
  · rw [byte?_write, if_neg hx]
  · have hfail := quiet_start_failed (fin := .nothing) (rest := []) (tr := .store a [v]) hq hc hne
    exact ⟨_, exec_wrReg ha v s, congrArg State.response hfail,
      (congrArg (·.per.regs) hfail).trans (carry_store_one_regs a v [] _ s.per ha)⟩

end Sys2Proof.Machine

/-! PROOFS. The BCD encoder and decoder (spec/41_bcd_codec.md): the two digits as nibbles, the round trip, and the
commands `ENC_BCD` and `DEC_BCD` (R112 to R114). -/

namespace Sys2Proof.Machine

open Sys2Proof

/-! ## The digits as nibbles (R111, R113) -/

theorem enc_highNibble (v : Byte) : (enc v).toNat / 16 = v.toNat / 10 % 16 := by
  rw [enc_toNat]
  omega

theorem enc_highNibble_of_le {v : Byte} (h : v.toNat ≤ 159) : (enc v).toNat / 16 = v.toNat / 10 := by
  rw [enc_highNibble, Nat.mod_eq_of_lt (by omega)]

theorem enc_highNibble_of_wrap {v : Byte} (h : 160 ≤ v.toNat) : (enc v).toNat / 16 = v.toNat / 10 - 16 := by
  have := v.isLt
  rw [enc_highNibble]
  omega

theorem enc_lowNibble (v : Byte) : (enc v).toNat % 16 = v.toNat % 10 := by
  rw [enc_toNat]
  omega

/-- R111's truncation loses 16 from the high nibble, which is 160 in the decoded value. -/
theorem dec_enc_toNat_of_wrap {v : Byte} (h : 160 ≤ v.toNat) : (dec (enc v)).toNat = v.toNat - 160 := by
  rw [dec_toNat, enc_highNibble_of_wrap h, enc_lowNibble]
  omega

/-- A low nibble above 9 carries into the tens; any other comes back. -/
theorem enc_dec_iff (b : Byte) : enc (dec b) = b ↔ b.toNat % 16 ≤ 9 := by
  have hlow : (enc (dec b)).toNat % 16 = b.toNat % 16 % 10 := by
    rw [enc_lowNibble, dec_toNat]
    omega
  constructor
  · intro h
    rw [h] at hlow
    omega
  · intro h
    have hhigh : (enc (dec b)).toNat / 16 = b.toNat / 16 := by
      have := b.isLt
      rw [enc_highNibble, dec_toNat]
      omega
    apply BitVec.eq_of_toNat_eq
    omega

/-! ## The two commands -/

/-- A command of Tier A takes no draw, makes no call and leaves the peripheral alone. -/
theorem complete_eq_finished (results : Slots) (s : State) :
    complete results s = s.finished 0 [] (.ok results) s.per := by
  simp [complete, respond, begin, State.finished]

theorem exec_encBcd (v : Byte) (s : State) :
    exec (.encBcd v) s = .next (s.finished 0 [] (.ok ⟨enc v, 0, 0, 0, 0, 0, 0⟩) s.per) :=
  congrArg Host.Outcome.next (complete_eq_finished _ s)

theorem exec_decBcd (b : Byte) (s : State) :
    exec (.decBcd b) s = .next (s.finished 0 [] (.ok ⟨dec b, 0, 0, 0, 0, 0, 0⟩) s.per) :=
  congrArg Host.Outcome.next (complete_eq_finished _ s)

/-- Settles O21: the high nibble of the answer is the tens cut off at 16, the low nibble the units. -/
theorem encBcdAnswersTheFormula : Obligations.EncBcdAnswersTheFormula := by
  refine ⟨fun w hw => decode_of_opcodeField hw, fun s v => ?_⟩
  have hlow := enc_lowNibble v
  refine ⟨enc v, exec_encBcd v s, enc_toNat v, fun h => ?_, fun h₁ h₂ => ?_, fun h => ?_⟩
  · have hhigh := enc_highNibble_of_le (v := v) (by omega)
    exact ⟨hhigh, hlow, by omega, by omega⟩
  · have hhigh := enc_highNibble_of_le h₂
    exact ⟨hhigh, hlow, fun ⟨hdigit, _⟩ => by omega⟩
  · have hv := v.isLt
    have hhigh := enc_highNibble_of_wrap h
    exact ⟨hhigh, hlow, by omega, by omega⟩

/-- Settles O22: two nibbles of at most 15 make at most 165, two decimal digits at most 99. -/
theorem decBcdAnswersTheFormula : Obligations.DecBcdAnswersTheFormula := by
  refine ⟨fun w hw => decode_of_opcodeField hw, fun s b => ?_⟩
  have hb := b.isLt
  have hdec := dec_toNat b
  refine ⟨dec b, exec_decBcd b s, hdec, by omega, ?_⟩
  rintro ⟨hhigh, hlow⟩
  omega

/-- Settles O23: each command answers its function's value, so the second one answers the composition's. -/
theorem bcdRoundTrip : Obligations.BcdRoundTrip :=
  ⟨fun s v => ⟨enc v, _, dec (enc v), exec_encBcd v s, rfl, ⟨_, exec_decBcd _ _, rfl⟩, dec_enc v,
      dec_enc_toNat_of_wrap⟩,
    fun s b => ⟨dec b, _, enc (dec b), exec_decBcd b s, rfl, ⟨_, exec_encBcd _ _, rfl⟩, enc_dec_iff b⟩⟩

end Sys2Proof.Machine

/-! PROOFS. The time codec (spec/42_time_codec.md): the month lane and its century flag, `ENC_TIME` and `DEC_TIME` (R126,
R127), and the round trip in the codec and through the registers (R130). -/

namespace Sys2Proof.Machine

open Sys2Proof

/-! ## The month lane and its century flag (R127, R131) -/

theorem maskCentury_toNat (b : Byte) : (b &&& ~~~century).toNat = b.toNat % 128 := by
  rw [BitVec.toNat_and, show (~~~century).toNat = 2 ^ 7 - 1 from rfl, Nat.and_two_pow_sub_one_eq_mod]

theorem dec_maskCentury_toNat (b : Byte) :
    (dec (b &&& ~~~century)).toNat = b.toNat % 128 / 16 * 10 + b.toNat % 16 := by
  rw [dec_toNat, maskCentury_toNat, Nat.mod_mod_of_dvd _ (by decide)]

theorem enc_century_of_le {v : Byte} (h : v.toNat ≤ 79) : (enc v).getLsbD 7 = false := by
  have hhigh := enc_highNibble_of_le (v := v) (by omega)
  exact Nat.testBit_lt_two_pow (by omega)

/-- The masked flag is 8 in the high nibble, which is 80 in the decoded month. -/
theorem dec_maskCentury_enc_toNat (v : Byte) : (dec (enc v &&& ~~~century)).toNat = v.toNat % 80 := by
  have hhigh := enc_highNibble v
  have hlow := enc_lowNibble v
  rw [dec_maskCentury_toNat]
  omega

theorem dec_maskCentury_enc {v : Byte} (h : v.toNat ≤ 79) : dec (enc v &&& ~~~century) = v :=
  BitVec.eq_of_toNat_eq ((dec_maskCentury_enc_toNat v).trans (Nat.mod_eq_of_lt (by omega)))

/-- R130 on a valid record: six lanes come back by themselves, and the month does so without its flag. -/
theorem decLanes_encLanes {sec mi h w d mo y : Byte} (hv : validCalendar sec mi h w d mo y) :
    decLanes (encLanes ⟨sec, mi, h, w, d, mo, y⟩) = ⟨sec, mi, h, w, d, mo, y⟩ := by
  obtain ⟨hsec, hmi, hh, ⟨-, hw⟩, ⟨-, hd⟩, ⟨-, hmo⟩, hy⟩ := hv
  simp only [decLanes, encLanes]
  rw [dec_enc sec (by omega), dec_enc mi (by omega), dec_enc h (by omega), dec_enc w (by omega),
    dec_enc d (by omega), dec_maskCentury_enc (v := mo) (by omega), dec_enc y (by omega)]

/-! ## The codec's two commands (R126, R127) -/

theorem exec_encTime (sec mi h w d mo y : Byte) (s : State) :
    exec (.encTime sec mi h w d mo y) s =
      .next (s.finished 0 [] (.ok (encLanes ⟨sec, mi, h, w, d, mo, y⟩)) s.per) :=
  congrArg Host.Outcome.next (complete_eq_finished _ s)

theorem exec_decTime (b0 b1 b2 b3 b4 b5 b6 : Byte) (s : State) :
    exec (.decTime b0 b1 b2 b3 b4 b5 b6) s =
      .next (s.finished 0 [] (.ok (decLanes ⟨b0, b1, b2, b3, b4, b5, b6⟩)) s.per) :=
  congrArg Host.Outcome.next (complete_eq_finished _ s)

/-- Settles O24: each lane is R111's formula, and a month of at most 79 has a high nibble below 8. -/
theorem encTimeEncodesEachLane : Obligations.EncTimeEncodesEachLane :=
  ⟨fun _ hw => decode_of_opcodeField hw, fun s sec mi h w d mo y =>
    ⟨encLanes ⟨sec, mi, h, w, d, mo, y⟩, exec_encTime sec mi h w d mo y s, enc_toNat sec, enc_toNat mi, enc_toNat h,
      enc_toNat w, enc_toNat d, enc_toNat mo, enc_toNat y, enc_century_of_le⟩⟩

/-- Settles O25: each lane is R113's formula, the month's on its low seven bits, so at most `Dec(0x7F)`. -/
theorem decTimeMasksTheCenturyFlag : Obligations.DecTimeMasksTheCenturyFlag := by
  refine ⟨fun w hw => decode_of_opcodeField hw, fun s b0 b1 b2 b3 b4 b5 b6 => ?_⟩
  have hmonth := dec_maskCentury_toNat b5
  exact ⟨decLanes ⟨b0, b1, b2, b3, b4, b5, b6⟩, exec_decTime b0 b1 b2 b3 b4 b5 b6 s, dec_toNat b0, dec_toNat b1,
    dec_toNat b2, dec_toNat b3, dec_toNat b4, hmonth, hmonth.trans_le (by omega), dec_toNat b6⟩

/-! ## The time block in the registers (R128, R129) -/

/-- The first seven registers hold these bytes. -/
abbrev Memory.holdsTime (m : Memory) (p : Slots) : Prop := ∀ k < 7, m.byte? k = (slotsList p)[k]?

theorem writeBlock_holdsTime {m : Memory} (hwf : m.wf) (p : Slots) : (m.writeBlock 0x00 (slotsList p)).holdsTime p := by
  intro k hk
  have hsome : (m.byte? k).isSome := by rw [byte?_of_wf hwf (by omega)]; rfl
  exact byte?_writeBlock_inside m 0x00 (slotsList p) (Nat.zero_le k) (by simpa [slotsList] using hk) hsome

/-- A read of seven bytes from the first register takes the time block. -/
theorem supply_holdsTime {m : Memory} {p : Slots} (h : m.holdsTime p) (stray past : Byte) :
    (supply stray past 7 ⟨m, 0x00⟩).1 = slotsList p := by
  apply List.ext_getElem?
  intro k
  by_cases hk : k < 7
  · have hbyte : m.byte? k = some (slotsList p)[k] := (h k hk).trans (List.getElem?_eq_getElem hk)
    rw [supply_byte stray past 7 ⟨m, 0x00⟩ (by simp) hk, List.getElem?_eq_getElem hk]
    simp [hbyte]
  · rw [List.getElem?_eq_none (by rw [supply_length]; omega), List.getElem?_eq_none (by simp [slotsList]; omega)]

/-- After a command has taken `n` draws, the next ones are answered with the counts that are left. -/
theorem answered_finished {s : State} {ns : List Nat} (h : s.answered ns) (n : Nat) {calls : List BusCall}
    {r : Response} {per : Peripheral} : (s.finished n calls r per).answered (ns.drop n) := by
  intro k hk
  rw [finished_upcoming, List.getElem_drop]
  exact h (n + k) _

theorem exec_setTime_quiet {s : State} (hq : s.quiet) (hc : (s.upcoming 0).count = some 8)
    (sec mi h w d mo y : Byte) :
    let block := slotsList (encLanes ⟨sec, mi, h, w, d, mo, y⟩)
    exec (.setTime sec mi h w d mo y) s =
      .next (s.finished 1 [.write 0x68 (0x00 :: block) false] (.ok Slots.zero)
        ⟨s.per.regs.writeBlock 0x00 block, 0x07⟩) := by
  intro block
  have hblock := acceptWrite_block (s.upcoming 0).ptrPast 0x00 block s.per (by simp [block, slotsList])
  have hstart := quiet_start_memWrite (fin := .nothing) hq 0x00 block hc
  rw [hblock] at hstart
  exact congrArg Host.Outcome.next hstart

/-- In any setting `READ_TIME` decodes the time block its data phase meets. -/
theorem exec_readTime_answered {s : State} {p : Slots} (ha : s.answered [1, 7])
    (hp : (s.mapAtRead 0 s.per).holdsTime p) :
    ∃ t, exec .readTime s = .next t ∧ t.response = some (.ok (decLanes p)) := by
  refine ⟨_, exec_start s rfl (List.cons_ne_nil _ _), ?_⟩
  have hbuf := supply_holdsTime (m := (begin s).mapAtRead 0 (begin s).per) hp
  rw [start, show transfersOf .readTime = [.address 0x00, .read 7] from rfl,
    run_memRead_answered (s := begin s) 0x00 7 (answered_cons ha) (answered_get ha rfl), run_nil, respond_response, hbuf]
  rfl

/-! ## The round trip (R130) -/

theorem exec_decTime_of_encTime (s t : State) (e : Slots) (sec mi h w d mo y : Byte)
    (hexec : exec (.encTime sec mi h w d mo y) s = .next t) (hr : t.response = some (.ok e)) :
    exec (.decTime e.b0 e.b1 e.b2 e.b3 e.b4 e.b5 e.b6) t =
      .next (t.finished 0 [] (.ok (decLanes (encLanes ⟨sec, mi, h, w, d, mo, y⟩))) t.per) := by
  obtain rfl := Host.Outcome.next.inj ((exec_encTime sec mi h w d mo y s).symm.trans hexec)
  obtain rfl := Response.ok.inj (Option.some.inj hr)
  exact exec_decTime _ _ _ _ _ _ _ _

theorem exec_readTime_of_setTime {s t : State} {sec mi h w d mo y : Byte} (hq : s.quiet) (hwf : s.per.regs.wf)
    (hv : validCalendar sec mi h w d mo y) (ha : s.answered [8, 1, 7])
    (hexec : exec (.setTime sec mi h w d mo y) s = .next t) :
    ∃ u, exec .readTime t = .next u ∧ u.response = some (.ok ⟨sec, mi, h, w, d, mo, y⟩) := by
  have ht := Host.Outcome.next.inj (hexec.symm.trans (exec_setTime_quiet hq (answered_cons ha) sec mi h w d mo y))
  have hquiet : t.quiet := by rw [ht]; exact hq
  have hanswered : t.answered [1, 7] := by rw [ht]; exact answered_finished ha 1
  have hblock : (t.mapAtRead 0 t.per).holdsTime (encLanes ⟨sec, mi, h, w, d, mo, y⟩) := by
    rw [mapAtRead_quiet hquiet, ht]
    exact writeBlock_holdsTime hwf _
  exact decLanes_encLanes hv ▸ exec_readTime_answered hanswered hblock

/-- Settles O26: the second command decodes what the first one encoded, and of the encoded month only the flag is
lost. -/
theorem timeRoundTrip : Obligations.TimeRoundTrip := by
  refine ⟨fun s t e sec mi h w d mo y hexec hr => ?_, fun s t sec mi h w d mo y => exec_readTime_of_setTime⟩
  have hmonth := dec_maskCentury_enc_toNat mo
  exact ⟨_, _, exec_decTime_of_encTime s t e sec mi h w d mo y hexec hr, rfl, decLanes_encLanes, dec_enc sec, dec_enc mi,
    dec_enc h, dec_enc w, dec_enc d, dec_maskCentury_enc, fun h₁ h₂ => hmonth.trans (by omega), dec_enc y⟩

end Sys2Proof.Machine

/-! PROOFS. The alarm packer (spec/43_alarm_packer.md): the masks as comparisons of the mode code, the commands `PACK_A1`
and `PACK_A2` (R144, R145), the values whose encoding reaches a flag bit (R146), and the table's row in the packed bytes
(R147). -/

namespace Sys2Proof

/-! ## Decoding a command with a mode (R84, R86) -/

/-- The opcode byte `sel * 32 + op` decodes as its operation code and its selector. -/
theorem decode_of_sel_op {w : Word} {sel : BitVec 3} {op : Nat} (hop : op < 32)
    (h : (opcodeField w).toNat = sel.toNat * 32 + op) : decode w = decodeFields op sel.toNat (slotFields w) := by
  have hmod : (sel.toNat * 32 + op) % 32 = op := by omega
  have hdiv : (sel.toNat * 32 + op) / 32 = sel.toNat := by omega
  rw [decode, opField_toNat, selField_toNat, h, hmod, hdiv]

theorem decode_ne_ok_of_illegal {w : Word} {b : Byte} (h : opcodeField w = b) (hb : b.toNat ∉ legalOpcodeBytes)
    (i : Instr) : decode w ≠ .ok i := by
  intro hi
  rw [← h, ← opcodeByte_of_decode hi] at hb
  exact hb (opcodeByte_legal i)

theorem Mode1.ofSel_sel (m : Mode1) : Mode1.ofSel m.sel.toNat = some m := by cases m <;> rfl

theorem Mode2.ofSel_sel (m : Mode2) : Mode2.ofSel m.sel.toNat = some m := by cases m <;> rfl

end Sys2Proof

namespace Sys2Proof.Machine

open Sys2Proof

/-! ## The multiplexers as comparisons of the mode code (R141, R142) -/

/-- A less specific mode masks every byte that a more specific one masks, so each mask is a bound on the mode code. -/
theorem mux1_eq_sel (m : Mode1) : mux1 m = ⟨m.sel = 0, m.sel ≤ 1, m.sel ≤ 2, m.sel ≤ 3, m.sel = 5⟩ := by
  cases m <;> rfl

theorem mux2_eq_sel (m : Mode2) : mux2 m = ⟨m.sel = 0, m.sel ≤ 1, m.sel ≤ 2, m.sel = 4⟩ := by
  cases m <;> rfl

theorem bitsIf_decide (p : Prop) [Decidable p] (mask : Byte) : bitsIf p mask = if p then mask else 0 := by
  simp [bitsIf]

theorem packAlarm1_eq_sel (m : Mode1) (sec mi h d : Byte) :
    packAlarm1 m sec mi h d =
      [enc sec ||| (if m.sel = 0 then 0x80 else 0), enc mi ||| (if m.sel ≤ 1 then 0x80 else 0),
        enc h ||| (if m.sel ≤ 2 then 0x80 else 0),
        enc d ||| (if m.sel ≤ 3 then 0x80 else 0) ||| (if m.sel = 5 then 0x40 else 0)] := by
  simp only [packAlarm1, mux1_eq_sel, alarmByte, alarmDayByte, bitsIf_decide, maskBit, dyDt]

theorem packAlarm2_eq_sel (m : Mode2) (mi h d : Byte) :
    packAlarm2 m mi h d =
      [enc mi ||| (if m.sel = 0 then 0x80 else 0), enc h ||| (if m.sel ≤ 1 then 0x80 else 0),
        enc d ||| (if m.sel ≤ 2 then 0x80 else 0) ||| (if m.sel = 4 then 0x40 else 0)] := by
  simp only [packAlarm2, mux2_eq_sel, alarmByte, alarmDayByte, bitsIf_decide, maskBit, dyDt]

/-! ## The two commands (R144, R145) -/

theorem exec_packA1 (m : Mode1) (sec mi h d : Byte) (s : State) :
    exec (.packA1 m sec mi h d) s =
      .next (s.finished 0 [] (.ok (slotsOfBuf (packAlarm1 m sec mi h d))) s.per) :=
  congrArg Host.Outcome.next (complete_eq_finished _ s)

theorem exec_packA2 (m : Mode2) (mi h d : Byte) (s : State) :
    exec (.packA2 m mi h d) s = .next (s.finished 0 [] (.ok (slotsOfBuf (packAlarm2 m mi h d))) s.per) :=
  congrArg Host.Outcome.next (complete_eq_finished _ s)

/-- Settles O30: the selector decodes to its mode, and the packed block has the comparisons for masks. -/
theorem packA1AnswersTheAlarmBlock : Obligations.PackA1AnswersTheAlarmBlock := by
  refine ⟨fun w m hw => ?_, fun w hw => ?_, fun s m sec mi h d => ?_⟩
  · rw [decode_of_sel_op (by decide) hw, decodeFields, Mode1.ofSel_sel, selected]
  · obtain hw | hw := hw
    · exact decode_ne_ok_of_illegal hw (by decide)
    · exact decode_ne_ok_of_illegal hw (by decide)
  · rw [exec_packA1, packAlarm1_eq_sel]
    rfl

/-- Settles O31: as for channel 1, with one operand and one mode less. -/
theorem packA2AnswersTheAlarmBlock : Obligations.PackA2AnswersTheAlarmBlock := by
  refine ⟨fun w m hw => ?_, fun w hw => ?_, fun s m mi h d => ?_⟩
  · rw [decode_of_sel_op (by decide) hw, decodeFields, Mode2.ofSel_sel, selected]
  · obtain hw | hw | hw := hw
    · exact decode_ne_ok_of_illegal hw (by decide)
    · exact decode_ne_ok_of_illegal hw (by decide)
    · exact decode_ne_ok_of_illegal hw (by decide)
  · rw [exec_packA2, packAlarm2_eq_sel]
    rfl

/-! ## The bits of an encoded byte (R146) -/

/-- Bit 7 of the encoding is bit 3 of the high nibble. -/
theorem enc_getLsbD_seven_iff (v : Byte) :
    (enc v).getLsbD 7 = true ↔ (80 ≤ v.toNat ∧ v.toNat ≤ 159) ∨ 240 ≤ v.toNat := by
  have hhigh := enc_highNibble v
  have hv := v.isLt
  rw [BitVec.getLsbD, Nat.testBit_eq_decide_div_mod_eq, decide_eq_true_iff]
  omega

/-- Bit 6 of the encoding is bit 2 of the high nibble. -/
theorem enc_getLsbD_six_iff (v : Byte) :
    (enc v).getLsbD 6 = true ↔
      (40 ≤ v.toNat ∧ v.toNat ≤ 79) ∨ (120 ≤ v.toNat ∧ v.toNat ≤ 159) ∨ (200 ≤ v.toNat ∧ v.toNat ≤ 239) := by
  have hhigh := enc_highNibble v
  have hv := v.isLt
  rw [BitVec.getLsbD, Nat.testBit_eq_decide_div_mod_eq, decide_eq_true_iff]
  omega

theorem enc_getLsbD_six_of_le {v : Byte} (h : v.toNat ≤ 39) : (enc v).getLsbD 6 = false := by
  rw [Bool.eq_false_iff, ne_eq, enc_getLsbD_six_iff]
  omega

/-- Below the value where the high nibble wraps, the encoding keeps the order. -/
theorem enc_le_enc {u v : Byte} (huv : u.toNat ≤ v.toNat) (hv : v.toNat ≤ 159) : enc u ≤ enc v := by
  have hhigh := enc_highNibble_of_le hv
  have hhigh' := enc_highNibble_of_le (huv.trans hv)
  have hlow := enc_lowNibble v
  have hlow' := enc_lowNibble u
  rw [BitVec.le_def]
  omega

/-! ## The bits of a packed byte (R143) -/

theorem alarmByte_getLsbD_seven (v : Byte) (m : Bool) :
    (alarmByte v m).getLsbD 7 = ((enc v).getLsbD 7 || m) := by
  cases m <;> simp [alarmByte, bitsIf, maskBit]

theorem alarmDayByte_getLsbD_seven (v : Byte) (m dy : Bool) :
    (alarmDayByte v m dy).getLsbD 7 = ((enc v).getLsbD 7 || m) := by
  cases m <;> cases dy <;> simp [alarmDayByte, bitsIf, maskBit, dyDt]

theorem alarmDayByte_getLsbD_six (v : Byte) (m dy : Bool) :
    (alarmDayByte v m dy).getLsbD 6 = ((enc v).getLsbD 6 || dy) := by
  cases m <;> cases dy <;> simp [alarmDayByte, bitsIf, maskBit, dyDt]

/-- Settles O33: the flag bits of a packed byte are those of the encoding or the mode's, and operands in their ranges
are too small to reach them. -/
theorem fieldValuesThatReachTheFlagBits : Obligations.FieldValuesThatReachTheFlagBits := by
  refine ⟨enc_getLsbD_seven_iff, enc_getLsbD_six_iff, fun v m h => ?_, fun v m dy => ⟨fun h => ?_, fun h => ?_⟩,
    fun v dy => ⟨?_, ?_, ?_⟩, ?_, by decide, by decide⟩
  · rw [alarmByte_getLsbD_seven, h, Bool.true_or]
  · rw [alarmDayByte_getLsbD_seven, h, Bool.true_or]
  · rw [alarmDayByte_getLsbD_six, h, Bool.true_or]
  · rw [alarmByte_getLsbD_seven, Bool.or_true]
  · rw [alarmDayByte_getLsbD_seven, Bool.or_true]
  · rw [alarmDayByte_getLsbD_six, Bool.or_true]
  · rintro s mi h d ⟨hs, hmi, hh, hd⟩
    exact ⟨enc_century_of_le (by omega), enc_century_of_le (by omega), enc_century_of_le (by omega),
      enc_century_of_le (by omega), enc_getLsbD_six_of_le (by omega), enc_le_enc (v := 59) hs (by decide),
      enc_le_enc (v := 59) hmi (by decide), enc_le_enc (v := 23) hh (by decide), enc_le_enc (v := 31) hd (by decide)⟩

/-! ## The table's row in the packed bytes (R147) -/

/-- A mask of low bits keeps a byte that has no bit above them. -/
theorem and_lowBits_of_lt {b : Byte} {n : Nat} (hn : n ≤ 8) (hb : b.toNat < 2 ^ n) :
    b &&& BitVec.ofNat 8 (2 ^ n - 1) = b := by
  have hmask : 2 ^ n - 1 < 2 ^ 8 := lt_of_lt_of_le (by simp) (Nat.pow_le_pow_right two_pos hn)
  apply BitVec.eq_of_toNat_eq
  rw [BitVec.toNat_and, BitVec.toNat_ofNat, Nat.mod_eq_of_lt hmask, Nat.and_two_pow_sub_one_of_lt_two_pow hb]

/-- Under its flag a second, minute or hour byte holds the encoded field. -/
theorem alarmByte_field {v : Byte} (h : v.toNat ≤ 79) (m : Bool) : alarmByte v m &&& 0x7F = enc v := by
  have hhigh := enc_highNibble_of_le (v := v) (by omega)
  have hflag : alarmByte v m &&& 0x7F = enc v &&& 0x7F := by
    cases m <;> simp [alarmByte, bitsIf, maskBit, BitVec.and_or_distrib_right]
  rw [hflag]
  exact and_lowBits_of_lt (n := 7) (by decide) (by omega)

/-- Under its two flags a day byte holds the encoded field. -/
theorem alarmDayByte_field {v : Byte} (h : v.toNat ≤ 39) (m dy : Bool) : alarmDayByte v m dy &&& 0x3F = enc v := by
  have hhigh := enc_highNibble_of_le (v := v) (by omega)
  have hflags : alarmDayByte v m dy &&& 0x3F = enc v &&& 0x3F := by
    cases m <;> cases dy <;> simp [alarmDayByte, bitsIf, maskBit, dyDt, BitVec.and_or_distrib_right]
  rw [hflags]
  exact and_lowBits_of_lt (n := 6) (by decide) (by omega)

/-- A second, minute or hour byte shows its mask and its field, if the encoding leaves the flag free. -/
theorem alarmByte_shows {v : Byte} (h : v.toNat ≤ 79) (m : Bool) :
    (alarmByte v m).getLsbD 7 = m ∧ alarmByte v m &&& 0x7F = enc v := by
  refine ⟨?_, alarmByte_field h m⟩
  rw [alarmByte_getLsbD_seven, enc_century_of_le h, Bool.false_or]

/-- A day byte shows its mask, the day/date select and its field, if the encoding leaves both flags free. -/
theorem alarmDayByte_shows {v : Byte} (h : v.toNat ≤ 39) (m dy : Bool) :
    (alarmDayByte v m dy).getLsbD 7 = m ∧ (alarmDayByte v m dy).getLsbD 6 = dy ∧
      alarmDayByte v m dy &&& 0x3F = enc v := by
  refine ⟨?_, ?_, alarmDayByte_field h m dy⟩
  · rw [alarmDayByte_getLsbD_seven, enc_century_of_le (by omega), Bool.false_or]
  · rw [alarmDayByte_getLsbD_six, enc_getLsbD_six_of_le h, Bool.false_or]

/-- Settles O32: each answered byte shows its own mask and field, for whatever row the mode selects. -/
theorem alarmMaskTableFidelity : Obligations.AlarmMaskTableFidelity := by
  constructor
  · rintro s t m sec mi h d r ⟨hsec, hmi, hh, hd⟩ hexec hr
    obtain rfl := Host.Outcome.next.inj ((exec_packA1 m sec mi h d s).symm.trans hexec)
    obtain rfl := Response.ok.inj (Option.some.inj hr)
    obtain ⟨hmaskS, hfieldS⟩ := alarmByte_shows (hsec.trans (by decide)) (mux1 m).maskS
    obtain ⟨hmaskM, hfieldM⟩ := alarmByte_shows (hmi.trans (by decide)) (mux1 m).maskM
    obtain ⟨hmaskH, hfieldH⟩ := alarmByte_shows (hh.trans (by decide)) (mux1 m).maskH
    obtain ⟨hmaskD, hdy, hfieldD⟩ := alarmDayByte_shows (hd.trans (by decide)) (mux1 m).maskD (mux1 m).dy
    exact ⟨hmaskS, hmaskM, hmaskH, hmaskD, hdy, hfieldS, hfieldM, hfieldH, hfieldD⟩
  · rintro s t m mi h d r ⟨hmi, hh, hd⟩ hexec hr
    obtain rfl := Host.Outcome.next.inj ((exec_packA2 m mi h d s).symm.trans hexec)
    obtain rfl := Response.ok.inj (Option.some.inj hr)
    obtain ⟨hmaskM, hfieldM⟩ := alarmByte_shows (hmi.trans (by decide)) (mux2 m).maskM
    obtain ⟨hmaskH, hfieldH⟩ := alarmByte_shows (hh.trans (by decide)) (mux2 m).maskH
    obtain ⟨hmaskD, hdy, hfieldD⟩ := alarmDayByte_shows (hd.trans (by decide)) (mux2 m).maskD (mux2 m).dy
    exact ⟨hmaskM, hmaskH, hmaskD, hdy, hfieldM, hfieldH, hfieldD⟩

end Sys2Proof.Machine

/-! PROOFS. Control and status (spec/44_control_status.md): the fields of an updated control byte, a command that is one
`Update(a, m, s)`, a command that writes no register, and `CHECK_FLAG`, `DISABLE_ALARM`, `EN_SQW` and `EN_INT` (R161,
R163, R165, R166). -/

namespace Sys2Proof

/-! ## Decoding a command with a channel or a frequency (R81, R83) -/

theorem Channel.ofSel_sel (c : Channel) : Channel.ofSel c.sel.toNat = some c := by cases c <;> rfl

theorem Freq.ofSel_sel (f : Freq) : Freq.ofSel f.sel.toNat = some f := by cases f <;> rfl

theorem Freq.sel_lt (f : Freq) : f.sel.toNat < 4 := by cases f <;> decide

/-- There are four frequency codes, so `EN_SQW` has no command for a larger selector. -/
theorem decode_enSqw_ne_ok {w : Word} (hop : opField w = 0x12) (hsel : 4 ≤ (selField w).toNat) (i : Instr) :
    decode w ≠ .ok i := by
  intro h
  rw [decode, hop] at h
  obtain ⟨f, hf, -⟩ := selected_ok (choice := Freq.ofSel (selField w).toNat) h
  have hlt := f.sel_lt
  have heq := Freq.ofSel_some hf
  omega

end Sys2Proof

namespace Sys2Proof.Machine

open Sys2Proof

/-! ## The fields of an updated byte (R103) -/

section
variable (old : Byte) {m s : Byte} {k start len : Nat}

theorem getLsbD_updated_kept (hk : k < 8) (hm : m.getLsbD k = false) (hs : s.getLsbD k = false) :
    (updated old m s).getLsbD k = old.getLsbD k := by
  rw [getLsbD_updated old m s hk, hm, hs, Bool.not_false, Bool.and_true, Bool.false_or]

theorem getLsbD_updated_cleared (hk : k < 8) (hm : m.getLsbD k = true) (hs : s.getLsbD k = false) :
    (updated old m s).getLsbD k = false := by
  rw [getLsbD_updated old m s hk, hm, hs, Bool.not_true, Bool.and_false, Bool.false_or]

theorem getLsbD_updated_set (hk : k < 8) (hs : s.getLsbD k = true) : (updated old m s).getLsbD k = true := by
  rw [getLsbD_updated old m s hk, hs, Bool.true_or]

/-- A field of an updated byte is the old byte's field, updated by the masks' fields. -/
theorem extractLsb'_updated (h : start + len ≤ 8) :
    (updated old m s).extractLsb' start len =
      (old.extractLsb' start len &&& ~~~m.extractLsb' start len) ||| s.extractLsb' start len := by
  apply BitVec.eq_of_getLsbD_eq
  intro k hk
  have hbit : start + k < 8 := by omega
  simp [getLsbD_updated _ _ _ hbit, hk, Bool.or_comm]

theorem extractLsb'_updated_kept (h : start + len ≤ 8) (hm : m.extractLsb' start len = 0#len)
    (hs : s.extractLsb' start len = 0#len) : (updated old m s).extractLsb' start len = old.extractLsb' start len := by
  rw [extractLsb'_updated old h, hm, hs, BitVec.not_zero, BitVec.and_allOnes, BitVec.or_zero]

theorem extractLsb'_updated_replaced (h : start + len ≤ 8) (hm : m.extractLsb' start len = BitVec.allOnes len) :
    (updated old m s).extractLsb' start len = s.extractLsb' start len := by
  rw [extractLsb'_updated old h, hm, BitVec.not_allOnes, BitVec.and_zero, BitVec.zero_or]

end

theorem or_twoPow_of_getLsbD {b : Byte} {k : Nat} (h : b.getLsbD k = true) : b ||| BitVec.twoPow 8 k = b := by
  apply BitVec.eq_of_getLsbD_eq
  intro j hj
  rw [BitVec.getLsbD_or, BitVec.getLsbD_twoPow]
  by_cases hjk : k = j
  · rw [← hjk, h, Bool.true_or]
  · rw [decide_eq_false hjk, Bool.and_false, Bool.or_false]

/-! ## A command that is one `Update(a, m, s)` (R83, R102, R160) -/

theorem channelMask_eq_shift (c : Channel) : channelMask c = 1#8 <<< c.sel.toNat := by cases c <;> rfl

theorem freqBits_eq_shift (f : Freq) : freqBits f = f.sel.zeroExtend 8 <<< 3 := by cases f <;> rfl

theorem transfersOf_of_updateArgs {i : Instr} {a m v : Byte} (h : i.updateArgs = some (a, m, v)) :
    transfersOf i = update a m v ∧ finishOf i = .nothing := by
  cases i
  case updReg => cases h; exact ⟨rfl, rfl⟩
  case clearFlag c => cases h; exact ⟨congrArg (update 0x0F · 0x00) (channelMask_eq_shift c), rfl⟩
  case disableAlarm c => cases h; exact ⟨congrArg (update 0x0E · 0x00) (channelMask_eq_shift c), rfl⟩
  case en32k on => cases on <;> cases h <;> exact ⟨rfl, rfl⟩
  case enSqw f => cases h; exact ⟨congrArg (update 0x0E 0x1C) (freqBits_eq_shift f), rfl⟩
  case enInt => cases h; exact ⟨rfl, rfl⟩
  all_goals cases h

/-- The only update that is refused is one of a register outside the map. -/
theorem wellFormed_of_updateArgs {i : Instr} {a m v : Byte} (h : i.updateArgs = some (a, m, v)) (ha : a.toNat ≤ 0x0F) :
    i.wellFormed = true := by
  cases i
  case rdReg => cases h
  case wrReg => cases h
  case updReg => cases h; exact decide_eq_true ha
  all_goals rfl

theorem exec_of_updateArgs {i : Instr} {a m v : Byte} (h : i.updateArgs = some (a, m, v)) (ha : a.toNat ≤ 0x0F)
    (s : State) : exec i s = .next (start (update a m v) .nothing s) := by
  obtain ⟨htransfers, hfinish⟩ := transfersOf_of_updateArgs h
  rw [exec_start s (wellFormed_of_updateArgs h ha) (htransfers ▸ List.cons_ne_nil _ _), htransfers, hfinish]

/-- In the quiet setting an answered update writes the updated byte back, and changes nothing else. -/
theorem exec_update_quiet {i : Instr} {s : State} {a m v old : Byte} (h : i.updateArgs = some (a, m, v)) (hq : s.quiet)
    (ha : a.toNat ≤ 0x0F) (hc : s.answered [1, 1, 2]) (hold : s.per.regs.byte? a.toNat = some old) :
    exec i s =
      .next (s.finished 3 [.write 0x68 [a] true, .read 0x68 1, .write 0x68 [a, updated old m v] false] (.ok Slots.zero)
        ⟨s.per.regs.write a.toNat (updated old m v), nextPtr (s.upcoming 2).ptrPast a⟩) := by
  rw [exec_of_updateArgs h ha, start, quiet_update (s := begin s) hq a m v hold (answered_cons hc) (answered_get hc rfl)
    (answered_get hc rfl)]
  rfl

/-! ## A command that writes no register (R58) -/

/-- The first byte of a write transfer sets the pointer and no register (R50). -/
theorem acceptWrite_take_singleton_regs (past a : Byte) (e : Nat) (p : Peripheral) :
    (acceptWrite past ([a].take e) p).regs = p.regs := by
  cases e with
  | zero => rfl
  | succ e => rw [List.take_succ_cons, List.take_nil]; rfl

/-- A transfer that writes nowhere changes no register, however far it gets. -/
theorem carry_regs_of_offsets_nil {tr : Transfer} (h : tr.offsets = []) (buf : List Byte) (d : Draw) (e : Nat)
    (p : Peripheral) : (carry tr buf d e p).2.regs = p.regs := by
  cases tr with
  | address a => exact acceptWrite_take_singleton_regs d.ptrPast a e p
  | read n => exact supply_regs d.stray d.ptrPast e p
  | store a v =>
    obtain rfl : v = [] := List.length_eq_zero_iff.1 (List.range'_eq_nil_iff.1 h)
    exact acceptWrite_take_singleton_regs d.ptrPast a e p
  | storeUpdated a m v => cases h

/-- In the quiet setting a run whose transfers write nowhere changes no register, whatever the answers are. -/
theorem run_quiet_regs (fin : Finish) {todo : List Transfer} (h : ∀ tr ∈ todo, tr.offsets = []) (buf : List Byte)
    (after : List Disturbance) (al : Bool) {s : State} (hq : s.quiet) :
    (run fin todo buf after al s).per.regs = s.per.regs := by
  have hkeep : (run fin todo buf after al s).quiet ∧ (run fin todo buf after al s).per.regs = s.per.regs := by
    refine run_preserves (P := fun t => t.quiet ∧ t.per.regs = s.per.regs) fin todo ?_ ?_ ?_ (fun _ _ ht => ht)
      (fun _ _ ht => ht) buf after al s ⟨hq, rfl⟩
    · rintro t ms xs hms ⟨⟨henv, hothers⟩, hregs⟩
      obtain rfl : ms = false := by simpa [hothers] using hms
      exact ⟨⟨henv, hothers⟩, by rw [henv, disturb_storage, hregs]⟩
    · rintro tr htr b d e t ⟨hquiet, hregs⟩
      exact ⟨hquiet, (carry_regs_of_offsets_nil (h tr htr) b d e t.per).trans hregs⟩
    · rintro tr b al t ⟨hquiet, hregs⟩
      exact ⟨by rwa [State.quiet, issued_env, issued_otherMasters], by rwa [issued_per]⟩
  exact hkeep.2

/-- In the quiet setting a command that writes no register changes none, whatever the answers are. -/
theorem exec_regs_of_written_nil {i : Instr} {s t : State} (hwritten : i.written = []) (hq : s.quiet)
    (h : exec i s = .next t) : t.per.regs = s.per.regs := by
  obtain ⟨-, r, hexec⟩ | ⟨-, hexec⟩ := exec_cases i s (wellFormed_of_next h)
  · obtain rfl := Host.Outcome.next.inj (hexec.symm.trans h)
    rfl
  · obtain rfl := Host.Outcome.next.inj (hexec.symm.trans h)
    have hoffsets : ∀ tr ∈ transfersOf i, tr.offsets = [] :=
      List.flatMap_eq_nil_iff.1 ((transfers_offsets i).trans hwritten)
    exact run_quiet_regs (s := begin s) (finishOf i) hoffsets [] [] false hq

/-! ## `CHECK_FLAG` (R161) -/

/-- The flag that is reported is the channel's bit of the status byte. -/
theorem flagBit_eq_ite (c : Channel) (b : Byte) : flagBit c b = if b.getLsbD c.sel.toNat then 1 else 0 := by
  have hshift : flagBit c b = (b >>> c.sel.toNat) &&& 1#8 := by cases c <;> simp [flagBit, Channel.sel]
  rw [hshift, BitVec.and_one_eq_setWidth_ofBool_getLsbD, BitVec.getLsbD_ushiftRight, Nat.add_zero]
  cases b.getLsbD c.sel.toNat <;> rfl

theorem exec_checkFlag_quiet {s : State} {b : Byte} (c : Channel) (hq : s.quiet) (hc : s.answered [1, 1])
    (hb : s.per.regs.byte? 0x0F = some b) :
    exec (.checkFlag c) s = .next (s.finished 2 [.write 0x68 [0x0F] true, .read 0x68 1]
      (.ok (oneResult (flagBit c b))) ⟨s.per.regs, (s.upcoming 1).ptrPast⟩) := by
  have hread := quiet_memRead_one (fin := .flag c) (buf := []) (after := []) (s := begin s) hq 0x0F hb (answered_cons hc)
    (answered_get hc rfl)
  exact congrArg Host.Outcome.next hread

/-- Settles O44: one read of the status byte, whose bit for the channel is the answer; neither phase of it writes. -/
theorem checkFlagAnswersTheFlag : Obligations.CheckFlagAnswersTheFlag := by
  refine ⟨fun w c hw => ?_, fun s c b hq hc hb => ?_, fun c => failsAtAnyTransfer_of_wellFormed rfl,
    fun s t c hq h => exec_regs_of_written_nil rfl hq h⟩
  · rw [decode_of_sel_op (by decide) hw, decodeFields, Channel.ofSel_sel, selected]
  · rw [exec_checkFlag_quiet c hq hc hb, flagBit_eq_ite]
    rfl

/-! ## The control byte's three commands (R163, R165, R166) -/

/-- Settles O46: the update's one cleared bit is the channel's own enable, and every other field of the byte is kept. -/
theorem disableAlarmClearsOneEnable : Obligations.DisableAlarmClearsOneEnable := by
  refine ⟨fun w c hw => ?_, fun s c old hq hc hold => ?_, fun c => failsAtAnyTransfer_of_wellFormed rfl⟩
  · rw [decode_of_sel_op (by decide) hw, decodeFields, Channel.ofSel_sel, selected]
  · have hnew : updated old (1#8 <<< c.sel.toNat) 0x00 = old &&& ~~~(1#8 <<< c.sel.toNat) := BitVec.or_zero
    rw [← hnew]
    refine ⟨exec_update_quiet rfl hq (by decide) hc hold, ?_, ?_,
      getLsbD_updated_kept old (by decide) (by cases c <;> rfl) rfl,
      extractLsb'_updated_kept old (by decide) (by cases c <;> rfl) rfl,
      extractLsb'_updated_kept old (by decide) (by cases c <;> rfl) rfl⟩
    · cases c with
      | first => exact (getLsbD_updated_cleared old (by decide) rfl rfl).trans (Bool.and_false _).symm
      | second => exact (getLsbD_updated_kept old (by decide) rfl rfl).trans (Bool.and_true _).symm
    · cases c with
      | first => exact (getLsbD_updated_kept old (by decide) rfl rfl).trans (Bool.and_true _).symm
      | second => exact (getLsbD_updated_cleared old (by decide) rfl rfl).trans (Bool.and_false _).symm

/-- Settles O48: the update clears `INTCN`, replaces `RS` by the frequency code, and keeps the other fields. -/
theorem enSqwSelectsTheFrequency : Obligations.EnSqwSelectsTheFrequency := by
  refine ⟨fun w f hw => ?_, fun w => decode_enSqw_ne_ok, fun s f old hq hc hold => ?_,
    fun f => failsAtAnyTransfer_of_wellFormed rfl⟩
  · rw [decode_of_sel_op (by decide) hw, decodeFields, Freq.ofSel_sel, selected]
  · have hrs : (ctrlRs (f.sel.zeroExtend 8 <<< 3)).toNat = f.sel.toNat := by cases f <;> rfl
    exact ⟨updated old 0x1C (f.sel.zeroExtend 8 <<< 3), exec_update_quiet rfl hq (by decide) hc hold, rfl,
      getLsbD_updated_cleared old (by decide) rfl (by cases f <;> rfl),
      (congrArg BitVec.toNat (extractLsb'_updated_replaced old (by decide) rfl)).trans hrs,
      getLsbD_updated_kept old (by decide) rfl (by cases f <;> rfl),
      getLsbD_updated_kept old (by decide) rfl (by cases f <;> rfl),
      extractLsb'_updated_kept old (by decide) rfl (by cases f <;> rfl)⟩

/-- Settles O49: the update sets bit 2 and clears nothing, so a byte that has the bit stays the same. -/
theorem enIntSetsIntcn : Obligations.EnIntSetsIntcn := by
  refine ⟨fun w hw => decode_of_opcodeField hw, fun s old hq hc hold => ?_, failsAtAnyTransfer_of_wellFormed rfl⟩
  have hset : ctrlIntcn old = true → old ||| 0x04 = old := or_twoPow_of_getLsbD
  rw [← updated_keep] at hset ⊢
  exact ⟨exec_update_quiet rfl hq (by decide) hc hold, getLsbD_updated_set old (by decide) rfl,
    extractLsb'_updated_kept old (by decide) rfl rfl, getLsbD_updated_kept old (by decide) rfl rfl,
    getLsbD_updated_kept old (by decide) rfl rfl, extractLsb'_updated_kept old (by decide) rfl rfl, hset⟩

end Sys2Proof.Machine

/-! PROOFS. Exceptions (spec/60_exceptions.md): the response word under an exception (R181), an illegal command word
(R177), the stop at the first failure (R178), and the retry of a command (R183). -/

namespace Sys2Proof.Machine

open Sys2Proof

/-! ## The status byte tells the responses apart (R175, R181) -/

theorem Exception.code_ne_zero (x : Exception) : x.code ≠ 0x00 := by cases x <;> decide

theorem Exception.code_injective : Function.Injective Exception.code := by
  intro x y h
  cases x <;> cases y <;> simp [Exception.code] at h ⊢

theorem status_eq_zero_iff (r : Response) : r.status = 0x00 ↔ ∃ results, r = .ok results := by
  cases r with
  | ok results => exact iff_of_true rfl ⟨results, rfl⟩
  | raised x => exact iff_of_false x.code_ne_zero (by simp)

theorem status_eq_code_iff (r : Response) (x : Exception) : r.status = x.code ↔ r = .raised x := by
  cases r with
  | ok results => exact iff_of_false x.code_ne_zero.symm (by simp)
  | raised y => rw [Response.raised.injEq]; exact Exception.code_injective.eq_iff

/-- Settles O6: the fields of the packed response word are its status and its slots, and each status byte belongs to one
kind of response. -/
theorem failureResponsesCarryNoData : Obligations.FailureResponsesCarryNoData := by
  refine ⟨fun r => ⟨opcodeField_packWord _ _, slotFields_packWord _ _⟩, status_eq_zero_iff,
    fun r => status_eq_code_iff r .transportFailure, fun r => status_eq_code_iff r .illegalCommand, fun r hr => ?_⟩
  cases r with
  | ok results => exact absurd rfl hr
  | raised x => rfl

/-! ## An illegal command word (R177) -/

theorem decode_error_of_illegal {w : Word} (h : (opcodeField w).toNat ∉ legalOpcodeBytes) :
    ∃ e, decode w = .error e := by
  cases hd : decode w with
  | ok i => exact absurd hd (decode_ne_ok_of_illegal rfl h i)
  | error e => exact ⟨e, rfl⟩

/-- Settles O9: an illegal word does not decode and is rejected at the port; a legal command ends in none of its three
ways with that response. -/
theorem illegalCommandChangesNothing : Obligations.IllegalCommandChangesNothing := by
  refine ⟨fun s w rest hb hh hw => ?_, fun i s t h => ?_⟩
  · obtain ⟨e, he⟩ := decode_error_of_illegal hw
    have hrest : s.host.tail = rest := by rw [hh, List.tail_cons]
    rw [step_illegal hb hh he, ← hrest]
    rfl
  · obtain ⟨⟨r, hr⟩, -⟩ | ⟨hr, -⟩ | ⟨hr, -⟩ := exec_outcomes h <;> simp [hr]

/-! ## What is left once a command has ended -/

/-- The next state of a command is that of a completion or of a run of its transfers. -/
theorem exec_next_cases {i : Instr} {s t : State} (h : exec i s = .next t) :
    (∃ r, t = complete r s) ∨ t = start (transfersOf i) (finishOf i) s := by
  obtain ⟨-, r, hexec⟩ | ⟨-, hexec⟩ := exec_cases i s (wellFormed_of_next h)
  · exact .inl ⟨r, Host.Outcome.next.inj (h.symm.trans hexec)⟩
  · exact .inr (Host.Outcome.next.inj (h.symm.trans hexec))

/-- Once a command has answered, failed or not, the block is idle (R22, R183). -/
theorem exec_idle_of_response {i : Instr} {s t : State} {r : Response} (h : exec i s = .next t)
    (hr : t.response = some r) : t.busy = none ∧ t.command = none := by
  obtain ⟨_, rfl⟩ | rfl := exec_next_cases h
  · exact ⟨rfl, rfl⟩
  · obtain ⟨hnone, -⟩ | ⟨hb, hc, -⟩ := run_response (finishOf i) (transfersOf i) [] [] false (begin s) rfl
    · cases hnone.symm.trans hr
    · exact ⟨hb, hc⟩

/-- Every command keeps the setting of the run. -/
theorem exec_quiet {i : Instr} {s t : State} (hq : s.quiet) (h : exec i s = .next t) : t.quiet := by
  obtain ⟨_, rfl⟩ | rfl := exec_next_cases h
  · exact hq
  · simpa [State.quiet, start] using hq

/-- Every command keeps the one form of the register map (R26). -/
theorem exec_wf {i : Instr} {s t : State} (hwf : s.per.regs.wf) (h : exec i s = .next t) : t.per.regs.wf := by
  obtain ⟨_, rfl⟩ | rfl := exec_next_cases h
  · exact hwf
  · exact run_wf _ _ _ _ _ (begin s) hwf

/-! ## The stop at the first failure (R178) -/

/-- A run takes one draw for each call it makes. -/
theorem run_draws (fin : Finish) (todo : List Transfer) (buf : List Byte) (after : List Disturbance) (s : State) :
    let t := run fin todo buf after false s
    ∃ n, t.bus.length = s.bus.length + n ∧ ∀ j, t.upcoming j = s.upcoming (n + j) := by
  induction todo generalizing buf after s with
  | nil => exact ⟨0, rfl, fun j => by rw [Nat.zero_add]; rfl⟩
  | cons tr rest ih =>
    obtain hc | hc | ⟨c, hc, hne⟩ := count_cases tr s
    · rw [run_waits hc]
      exact ⟨1, by simp, fun j => by rw [Nat.add_comm 1 j]; exact issued_upcoming j⟩
    · rw [moved_answered hc]
      obtain ⟨n, hbus, hdraws⟩ := ih _ _ (s.moved 1 [tr.call buf] _)
      exact ⟨1 + n, by rw [hbus, moved_bus, List.length_append, List.length_singleton, Nat.add_assoc],
        fun j => by rw [hdraws, moved_upcoming, Nat.add_assoc]⟩
    · rw [run_failed hc hne]
      exact ⟨1, by simp, fun j => by rw [Nat.add_comm 1 j]; exact issued_upcoming j⟩

/-- A command takes one draw for each call it makes. -/
theorem exec_draws {i : Instr} {s t : State} (h : exec i s = .next t) (j : Nat) :
    t.upcoming j = s.upcoming (t.bus.length + j) := by
  obtain ⟨_, rfl⟩ | rfl := exec_next_cases h
  · exact congrArg s.upcoming (Nat.zero_add j).symm
  · obtain ⟨n, hbus, hdraws⟩ := run_draws (finishOf i) (transfersOf i) [] [] (begin s)
    rw [begin_bus, List.length_nil, Nat.zero_add] at hbus
    rw [start, hdraws, hbus, begin_upcoming]

/-- Settles O53: the calls end with the first wrong count, and as many draws have been taken as calls made. -/
theorem stopAtTheFirstFailure : Obligations.StopAtTheFirstFailure := by
  intro i s k c hw hk hbefore hc hne
  obtain ⟨t, hexec, hresponse, hbus⟩ := failsAtAnyTransfer_of_wellFormed hw s k c hk hbefore hc hne
  have hcalls : t.bus.length = k + 1 := by
    rw [← List.length_map (f := BusCall.size), hbus, List.length_take, min_eq_left hk]
  obtain ⟨hidle, -⟩ := exec_idle_of_response hexec hresponse
  exact ⟨t, hexec, hresponse, hidle, hbus, fun j => hcalls ▸ exec_draws hexec j⟩

/-! ## Writing a register twice -/

theorem modify_modify (m : Memory) (a : Nat) (f g : Byte → Byte) :
    (m.modify a f).modify a g = m.modify a (g ∘ f) := by
  induction m with
  | nil => rfl
  | cons c m ih => by_cases hc : c.1 = a <;> simp [Memory.modify, hc, ih]

theorem modify_comm (m : Memory) {a b : Nat} (h : a ≠ b) (f g : Byte → Byte) :
    (m.modify a f).modify b g = (m.modify b g).modify a f := by
  induction m with
  | nil => rfl
  | cons c m ih =>
    by_cases ha : c.1 = a
    · simp [Memory.modify, ha, h]
    · by_cases hb : c.1 = b <;> simp [Memory.modify, ha, hb, h.symm, ih]

theorem modify_eq_write {m : Memory} {a : Nat} {b : Byte} (h : m.byte? a = some b) (f : Byte → Byte) :
    m.modify a f = m.write a (f b) := by
  induction m with
  | nil => cases h
  | cons c m ih =>
    by_cases hc : c.1 = a
    · obtain rfl : c.2 = b := by simpa [Memory.byte?, hc] using h
      simp [Memory.write, Memory.modify, hc]
    · have hm : Memory.byte? m a = some b := by simpa [Memory.byte?, hc] using h
      simpa [Memory.write, Memory.modify, hc] using ih hm

/-- A block write and a change outside the block may change places. -/
theorem writeBlock_modify_comm (m : Memory) (a : Nat) (v : List Byte) {b : Nat} (f : Byte → Byte)
    (h : b < a ∨ a + v.length ≤ b) : (m.writeBlock a v).modify b f = (m.modify b f).writeBlock a v := by
  induction v generalizing m a with
  | nil => rfl
  | cons x v ih =>
    simp only [List.length_cons] at h
    rw [Memory.writeBlock, ih _ _ (by omega), Memory.write, modify_comm m (show a ≠ b by omega)]
    rfl

/-- A block write makes up for an earlier write of the first bytes of the block. -/
theorem writeBlock_take_writeBlock (m : Memory) (a : Nat) (v : List Byte) (e : Nat) :
    (m.writeBlock a (v.take e)).writeBlock a v = m.writeBlock a v := by
  induction v generalizing m a e with
  | nil => rw [List.take_nil]; rfl
  | cons x v ih =>
    cases e with
    | zero => rfl
    | succ e =>
      have hfirst : ((m.write a x).writeBlock (a + 1) (v.take e)).write a x =
          (m.write a x).writeBlock (a + 1) (v.take e) := by
        rw [Memory.write, writeBlock_modify_comm _ _ _ _ (.inl (Nat.lt_succ_self a)), Memory.write, modify_modify]
        rfl
      rw [List.take_succ_cons, Memory.writeBlock, Memory.writeBlock, hfirst, ih]
      rfl

/-- What an update makes of the register map (R102). -/
def Memory.updatedAt (a m v : Byte) (n : Memory) : Memory := n.modify a.toNat (updated · m v)

theorem updatedAt_updatedAt (a m v : Byte) (n : Memory) :
    (n.updatedAt a m v).updatedAt a m v = n.updatedAt a m v := by
  rw [Memory.updatedAt, Memory.updatedAt, modify_modify]
  exact congrArg (n.modify a.toNat) (funext fun old => updated_updated old m v)

/-! ## An attempt and its retry (R183) -/

/-- `t` ends an attempt, from the map `m`, at a command whose success turns a map `n` into `G n`: success from whatever
map the attempt left is success from `m`, and if it answered `OK`, the map it left is that of the success. -/
def AttemptEnds (G : Memory → Memory) (m : Memory) (t : State) : Prop :=
  G t.per.regs = G m ∧ ∀ r, t.response = some (.ok r) → t.per.regs = G m

/-- In the quiet setting every run of these transfers is such an attempt. -/
def Retryable (G : Memory → Memory) (fin : Finish) (todo : List Transfer) : Prop :=
  ∀ (buf : List Byte) (after : List Disturbance) (s : State), s.quiet → s.per.regs.wf → s.response = none →
    AttemptEnds G s.per.regs (run fin todo buf after false s)

section
variable {G : Memory → Memory} {fin : Finish} {tr : Transfer} {rest : List Transfer} {buf : List Byte}
  {after : List Disturbance} {s : State}

/-- A run ends as an attempt if no part of its first transfer is in the way of a retry, and if it does so whenever
that transfer is answered as requested. -/
theorem attemptEnds_cons (hq : s.quiet) (hr : s.response = none)
    (hstop : ∀ e, G (carry tr buf (s.upcoming 0) e s.per).2.regs = G s.per.regs)
    (hgo : (s.upcoming 0).count = some (tr.size : Int) →
      AttemptEnds G s.per.regs (run fin (tr :: rest) buf after false s)) :
    AttemptEnds G s.per.regs (run fin (tr :: rest) buf after false s) := by
  obtain hc | hc | ⟨c, hc, hne⟩ := count_cases tr s
  · rw [run_waits hc, quiet_before hq]
    exact ⟨rfl, fun r h => by simp [hr] at h⟩
  · exact hgo hc
  · rw [quiet_failed hq hc hne]
    exact ⟨hstop _, fun r h => by simp at h⟩

/-- `MemRead(a, 1)` changes no register, so it is never in the way of a retry. -/
theorem attemptEnds_memRead_one {a b : Byte} (hq : s.quiet) (hr : s.response = none)
    (hb : s.per.regs.byte? a.toNat = some b)
    (hrest : ∀ (after : List Disturbance) (calls : List BusCall) (q : Byte),
      AttemptEnds G s.per.regs (run fin rest [b] after false (s.moved 2 calls ⟨s.per.regs, q⟩))) :
    AttemptEnds G s.per.regs (run fin (memRead a 1 ++ rest) buf after false s) := by
  refine attemptEnds_cons (tr := .address a) hq hr (fun e => by rw [carry_regs_of_offsets_nil rfl]) fun h₀ => ?_
  rw [quiet_address hq a h₀]
  refine attemptEnds_cons (tr := .read 1) (s := s.moved 1 [.write 0x68 [a] true] ⟨s.per.regs, a⟩) hq hr
    (fun e => by rw [carry_regs_of_offsets_nil rfl]) fun h₁ => ?_
  rw [quiet_read_one (s := s.moved 1 [.write 0x68 [a] true] ⟨s.per.regs, a⟩) hq hb h₁, moved_moved]
  exact hrest _ _ _

/-- The write of an update, when the byte read is the register's: it leaves the old byte or the updated one. -/
theorem attemptEnds_storeUpdated {a b : Byte} (m v : Byte) (hq : s.quiet) (hr : s.response = none) (ha : a.toNat ≤ 15)
    (hb : s.per.regs.byte? a.toNat = some b) :
    AttemptEnds (Memory.updatedAt a m v) s.per.regs (run fin [.storeUpdated a m v] [b] after false s) := by
  have hwrite : s.per.regs.updatedAt a m v = s.per.regs.write a.toNat (updated b m v) := modify_eq_write hb _
  refine attemptEnds_cons hq hr (fun e => ?_) fun hc => ?_
  · have hpart : (carry (.storeUpdated a m v) [b] (s.upcoming 0) e s.per).2.regs =
        s.per.regs.writeBlock a.toNat ([updated b m v].take (e - 1)) :=
      acceptWrite_take_regs _ a [updated b m v] e s.per (Nat.succ_le_succ ha)
    rw [hpart]
    cases e - 1 with
    | zero => rfl
    | succ k =>
      rw [List.take_succ_cons, List.take_nil, Memory.writeBlock, ← hwrite]
      exact updatedAt_updatedAt a m v s.per.regs
  · rw [quiet_storeUpdated hq a m v hc, quiet_nil (s := s.moved 1 _ _) hq, AttemptEnds, respond_per, moved_per,
      ← hwrite]
    exact ⟨updatedAt_updatedAt a m v s.per.regs, fun _ _ => rfl⟩

end

theorem retryable_nil (fin : Finish) : Retryable id fin [] := by
  intro buf after s hq _ _
  rw [quiet_nil hq]
  exact ⟨rfl, fun _ _ => rfl⟩

/-- A block write may be retried, if what follows it does not touch the block. -/
theorem retryable_memWrite {G : Memory → Memory} {fin : Finish} {rest : List Transfer} {a : Byte} {v : List Byte}
    (hfit : a.toNat + v.length ≤ 16) (hrest : Retryable G fin rest)
    (hcomm : ∀ m : Memory, G (m.writeBlock a.toNat v) = (G m).writeBlock a.toNat v) :
    Retryable (fun m => G (m.writeBlock a.toNat v)) fin (memWrite a v ++ rest) := by
  intro buf after s hq hwf hr
  refine attemptEnds_cons (tr := .store a v) hq hr (fun e => ?_) (fun hc => ?_)
  · have hpart : (carry (.store a v) buf (s.upcoming 0) e s.per).2.regs =
        s.per.regs.writeBlock a.toNat (v.take (e - 1)) :=
      acceptWrite_take_regs _ a v e s.per hfit
    rw [hpart, writeBlock_take_writeBlock]
  · rw [quiet_store hq a v hc]
    obtain ⟨hretry, hok⟩ := hrest buf (s.upcoming 0).after
      (s.moved 1 [.write 0x68 (a :: v) false] (acceptWrite (s.upcoming 0).ptrPast (a :: v) s.per)) hq
      (acceptWrite_wf hwf _ _) hr
    rw [moved_per, acceptWrite_regs _ a v s.per hfit] at hretry hok
    have hagain := writeBlock_take_writeBlock s.per.regs a.toNat v v.length
    rw [List.take_length] at hagain
    refine ⟨?_, hok⟩
    calc G (Memory.writeBlock _ a.toNat v) = (G (s.per.regs.writeBlock a.toNat v)).writeBlock a.toNat v := by
          rw [hcomm]; exact congrArg (Memory.writeBlock · a.toNat v) hretry
      _ = G (s.per.regs.writeBlock a.toNat v) := by rw [← hcomm, hagain]

/-- An update may be retried, since updating the updated byte changes nothing more. -/
theorem retryable_update (fin : Finish) {a : Byte} (ha : a.toNat ≤ 15) (m v : Byte) :
    Retryable (Memory.updatedAt a m v) fin (update a m v) := by
  intro buf after s hq hwf hr
  have hb := byte?_of_wf hwf ha
  exact attemptEnds_memRead_one hq hr hb fun after calls q =>
    attemptEnds_storeUpdated (s := s.moved 2 calls ⟨s.per.regs, q⟩) m v hq hr ha hb

/-! ## Every command may be retried (R183) -/

/-- A block write and an update of a register behind the block may be retried together. -/
theorem retryable_memWrite_update {a c : Byte} {v : List Byte} (fin : Finish) (m w : Byte)
    (hfit : a.toNat + v.length ≤ c.toNat) (hc : c.toNat ≤ 15) :
    Retryable (fun n => (n.writeBlock a.toNat v).updatedAt c m w) fin (memWrite a v ++ update c m w) :=
  retryable_memWrite (by omega) (retryable_update fin hc m w) fun n =>
    writeBlock_modify_comm n a.toNat v (updated · m w) (.inr hfit)

/-- A command that writes is one block write, one update, or both (`SET_ALARM1`, `SET_ALARM2`), so it may be retried. -/
theorem transfers_retryable {i : Instr} (hw : i.wellFormed = true) (hwritten : i.written ≠ []) :
    ∃ G, Retryable G (finishOf i) (transfersOf i) := by
  have hupdate : ∀ {a m v : Byte}, i.updateArgs = some (a, m, v) → a.toNat ≤ 15 →
      ∃ G, Retryable G (finishOf i) (transfersOf i) := fun h ha =>
    (transfersOf_of_updateArgs h).1 ▸ ⟨_, retryable_update _ ha _ _⟩
  have hwrite : ∀ {a : Byte} {v : List Byte}, transfersOf i = memWrite a v → a.toNat + v.length ≤ 16 →
      ∃ G, Retryable G (finishOf i) (transfersOf i) := fun h hfit =>
    h ▸ ⟨_, retryable_memWrite hfit (retryable_nil _) fun _ => rfl⟩
  cases i
  case wrReg a v => exact hwrite rfl (Nat.succ_le_succ (of_decide_eq_true hw))
  case setTime => exact hwrite rfl (by simp)
  case setAlarm1 => exact ⟨_, retryable_memWrite_update _ _ _ (by simp [packAlarm1]) (by simp)⟩
  case setAlarm2 => exact ⟨_, retryable_memWrite_update _ _ _ (by simp [packAlarm2]) (by simp)⟩
  case updReg => exact hupdate rfl (of_decide_eq_true hw)
  case en32k on => cases on <;> exact hupdate rfl (by simp)
  case clearFlag | disableAlarm | enSqw | enInt => exact hupdate rfl (by simp)
  all_goals exact absurd rfl hwritten

/-- For each command there is one change of the register map at which every attempt in the quiet setting is one. -/
theorem exec_attemptEnds (i : Instr) : ∃ G, ∀ s t : State, s.quiet → s.per.regs.wf → exec i s = .next t →
    AttemptEnds G s.per.regs t := by
  by_cases hwritten : i.written = []
  · refine ⟨id, fun s t hq _ h => ?_⟩
    have hregs := exec_regs_of_written_nil hwritten hq h
    exact ⟨hregs, fun _ _ => hregs⟩
  by_cases hw : i.wellFormed = true
  · obtain ⟨G, hG⟩ := transfers_retryable hw hwritten
    have hne : transfersOf i ≠ [] := fun h => hwritten (by rw [← transfers_offsets, h, List.flatMap_nil])
    refine ⟨G, fun s t hq hwf h => ?_⟩
    obtain rfl := Host.Outcome.next.inj ((exec_start s hw hne).symm.trans h)
    exact hG [] [] (begin s) hq hwf rfl
  · exact ⟨id, fun s t _ _ h => absurd (wellFormed_of_next h) hw⟩

/-- Settles O58: what an attempt left is made up for by success from there; and only an idle block takes a command
word. -/
theorem retryLeavesWhatOneSuccessWouldHave : Obligations.RetryLeavesWhatOneSuccessWouldHave := by
  refine ⟨fun i s t r h hr => ?_, fun i s t u v r₀ r₁ r₂ draws n hq hwf ht _ hu hr₁ hv hr₂ => ?_,
    fun s p w rest hb hh => ⟨resume p s, step_resume hb (by simp [hh]), run_host ..⟩⟩
  · obtain ⟨hidle, -⟩ := exec_idle_of_response h hr
    exact ⟨hidle, fun w rest j hd => step_command hidle rfl hd⟩
  · obtain ⟨G, hG⟩ := exec_attemptEnds i
    have hattempt := hG s t hq hwf ht
    have hretry := hG t u (exec_quiet hq ht) (exec_wf hwf ht) hu
    have hfirst := hG (s.withDraws draws n) v hq hwf hv
    calc u.per.regs = G t.per.regs := hretry.2 r₁ hr₁
      _ = G s.per.regs := hattempt.1
      _ = v.per.regs := (hfirst.2 r₂ hr₂).symm

end Sys2Proof.Machine

/-! PROOFS. Words and lines (spec/30_encoding.md): the words of the test vectors, decoding an encoded command (R70, R71,
R84), and the assembler's lines (R89, R90). -/

namespace Sys2Proof

/-- Settles O1: each word is decoded. -/
theorem writtenWordsDecode : Obligations.WrittenWordsDecode :=
  ⟨rfl, rfl, rfl, rfl, rfl, rfl, rfl, rfl, rfl⟩

/-! ## Decoding an encoded command -/

theorem enableOfSel_enableSel (on : Bool) : enableOfSel (enableSel on).toNat = some on := by cases on <;> rfl

theorem selected_some {α : Type} {op sel : Nat} {choice : Option α} {x : α} (h : choice = some x) (make : α → Instr) :
    selected op sel choice make = .ok (make x) := by
  rw [h, selected]

/-- The operation code chooses an instruction's own row of the map, its selector the choice in that row, and the row reads
the slots in the order in which the operands stand in them. -/
theorem decodeFields_of_instr (i : Instr) : decodeFields i.op.toNat i.sel.toNat i.operands = .ok i := by
  cases i
  case packA1 m _ _ _ _ => exact selected_some (Mode1.ofSel_sel m) _
  case packA2 m _ _ _ => exact selected_some (Mode2.ofSel_sel m) _
  case setAlarm1 m _ _ _ _ => exact selected_some (Mode1.ofSel_sel m) _
  case setAlarm2 m _ _ _ => exact selected_some (Mode2.ofSel_sel m) _
  case checkFlag c => exact selected_some (Channel.ofSel_sel c) _
  case clearFlag c => exact selected_some (Channel.ofSel_sel c) _
  case disableAlarm c => exact selected_some (Channel.ofSel_sel c) _
  case en32k on => exact selected_some (enableOfSel_enableSel on) _
  case enSqw f => exact selected_some (Freq.ofSel_sel f) _
  all_goals rfl

/-- Settles O2: the fields of an encoded word are the instruction's own, and they decode to it. -/
theorem decodeOfEncodeIsTheCommand : Obligations.DecodeOfEncodeIsTheCommand := by
  intro i
  rw [decode, opField_encode, selField_encode, slotFields_encode, decodeFields_of_instr]

/-! ## Operands and names as they are written (R89) -/

theorem byteOfNum_toNat (b : Byte) : byteOfNum b.toNat = some b := by
  rw [byteOfNum, if_pos (Nat.le_of_lt_succ b.isLt), BitVec.ofNat_toNat, BitVec.setWidth_eq]

theorem bytesOfArgs_numArgs (p : List Byte) : bytesOfArgs (numArgs p) = some p := by
  induction p with
  | nil => rfl
  | cons b p ih =>
    rw [numArgs] at ih
    rw [numArgs, List.map_cons, bytesOfArgs, byteOfNum_toNat, ih]
    rfl

theorem Mode1.ofName_name (m : Mode1) : Mode1.ofName m.name = some m := by cases m <;> decide

theorem Mode2.ofName_name (m : Mode2) : Mode2.ofName m.name = some m := by cases m <;> decide

theorem Freq.ofName_name (f : Freq) : Freq.ofName f.name = some f := by cases f <;> decide

theorem enableOfName_enableName (on : Bool) : enableOfName (enableName on) = some on := by cases on <;> decide

theorem Channel.ofNumber_number (c : Channel) : Channel.ofNumber c.number = some c := by cases c <;> rfl

/-! ## A line and its command (R89, R90) -/

/-- A line without a mode whose mnemonic takes bytes only. -/
theorem assemble_bytes {mnemonic : String} {p : List Byte} {i : Instr}
    (hline : assemble ⟨mnemonic, none, numArgs p⟩ = (bytesOfArgs (numArgs p)).bind (assembleBytes mnemonic))
    (h : assembleBytes mnemonic p = some i) : assemble ⟨mnemonic, none, numArgs p⟩ = some i := by
  rw [hline, bytesOfArgs_numArgs]
  exact h

theorem assemble_mode {mnemonic mode : String} {p : List Byte} {i : Instr} (h : assembleMode mnemonic mode p = some i) :
    assemble ⟨mnemonic, some mode, numArgs p⟩ = some i := by
  rw [assemble, bytesOfArgs_numArgs]
  exact h

theorem assemble_line (i : Instr) : assemble i.line = some i := by
  cases i
  case packA1 m _ _ _ _ => exact assemble_mode (congrArg (Option.map _) (Mode1.ofName_name m))
  case packA2 m _ _ _ => exact assemble_mode (congrArg (Option.map _) (Mode2.ofName_name m))
  case setAlarm1 m _ _ _ _ => exact assemble_mode (congrArg (Option.map _) (Mode1.ofName_name m))
  case setAlarm2 m _ _ _ => exact assemble_mode (congrArg (Option.map _) (Mode2.ofName_name m))
  case checkFlag c => exact congrArg (Option.map _) (Channel.ofNumber_number c)
  case clearFlag c => exact congrArg (Option.map _) (Channel.ofNumber_number c)
  case disableAlarm c => exact congrArg (Option.map _) (Channel.ofNumber_number c)
  case en32k on => exact congrArg (Option.map _) (enableOfName_enableName on)
  case enSqw f => exact congrArg (Option.map _) (Freq.ofName_name f)
  case readTime | enInt => rfl
  all_goals exact assemble_bytes rfl rfl

theorem assembleSetAlarm_first (m : Mode1) (s mi h d : Byte) :
    assembleSetAlarm [.num 1, .num d.toNat, .num h.toNat, .num mi.toNat, .num s.toNat, .word m.name] =
      some (.setAlarm1 m s mi h d) := by
  simp only [assembleSetAlarm, Mode1.ofName_name, byteOfNum_toNat, Option.bind_some, Option.map_some]

theorem assembleSetAlarm_second (m : Mode2) (mi h d : Byte) :
    assembleSetAlarm [.num 2, .num d.toNat, .num h.toNat, .num mi.toNat, .word m.name] =
      some (.setAlarm2 m mi h d) := by
  simp only [assembleSetAlarm, Mode2.ofName_name, byteOfNum_toNat, Option.bind_some, Option.map_some]

/-- Settles O7: operands and names are read back as they were written, and the pseudo-instruction has its own operand
order for each channel. -/
theorem assemblerLinesStandForTheirCommands : Obligations.AssemblerLinesStandForTheirCommands :=
  ⟨assemble_line, assembleSetAlarm_first, assembleSetAlarm_second, fun _ _ _ _ _ => rfl⟩

end Sys2Proof

/-! PROOFS. The step and the block between its commands: the invariant (spec/10_state.md R21, R22, R26), the parameters,
the reset (spec/70_reset_and_hazards.md R200, R201), and what a command takes over from the state before it (R41). -/

namespace Sys2Proof.Machine

open Sys2Proof

/-! ## What every step does -/

/-- Settles O8: a command word is taken from the host and its command executed. -/
theorem stepRunsTheDecodedCommand : Obligations.StepRunsTheDecodedCommand := by
  refine ⟨fun s w rest i hb hh hd => ?_, fun s => step_idle⟩
  have htail : s.host.tail = rest := congrArg List.tail hh
  rw [step_command hb hh hd, ← htail]
  rfl

@[simp] theorem abandon_env (p : InProgress) (s : State) : (abandon p s).env = s.env := by
  unfold abandon; split <;> simp
@[simp] theorem abandon_otherMasters (p : InProgress) (s : State) : (abandon p s).otherMasters = s.otherMasters := by
  unfold abandon; split <;> simp
@[simp] theorem resetBlock_env (s : State) : (resetBlock s).env = s.env := by
  unfold resetBlock; cases s.busy <;> simp
@[simp] theorem resetBlock_otherMasters (s : State) : (resetBlock s).otherMasters = s.otherMasters := by
  unfold resetBlock; cases s.busy <;> simp

theorem exec_parameters {i : Instr} {s t : State} (h : exec i s = .next t) :
    t.env = s.env ∧ t.otherMasters = s.otherMasters := by
  obtain ⟨_, rfl⟩ | rfl := exec_next_cases h
  · exact ⟨rfl, rfl⟩
  · exact ⟨run_env .., run_otherMasters ..⟩

/-- Settles O14: no part of a step writes the two parameters. -/
theorem noStepChangesTheParameters : Obligations.NoStepChangesTheParameters := by
  intro s t h
  obtain ⟨_, -, rfl⟩ | ⟨_, -, -, rfl⟩ | ⟨w, _, _, -, -, -, hx⟩ | ⟨_, _, _, -, -, -, rfl⟩ | ⟨-, -, rfl⟩ := step_cases h
  · exact ⟨resetBlock_env _, resetBlock_otherMasters _⟩
  · exact ⟨run_env .., run_otherMasters ..⟩
  · exact exec_parameters (s := s.takeInput (some w)) hx
  · exact ⟨rfl, rfl⟩
  · exact ⟨rfl, rfl⟩

/-! ## Reset (R200, R201) -/

theorem resetBlock_idle {s : State} (hb : s.busy = none) :
    resetBlock s = { s with command := none, busy := none, response := none, bus := [] } := by
  rw [resetBlock, hb]

/-- The word the host presents for a fetch is the word itself, since it has 64 bits. -/
theorem withFetchWord_word (w : Word) : BitVec.ofNat 64 (w.toNat % 2 ^ 64) = w := by
  rw [Nat.mod_eq_of_lt w.isLt, BitVec.ofNat_toNat, BitVec.setWidth_eq]

theorem step_withFetchWord (s : State) {w : Word} {i : Instr} (hd : decode w = .ok i) :
    step (s.withFetchWord 64 w.toNat) = exec i { s with command := some w, busy := none } := by
  have hhost : (s.withFetchWord 64 w.toNat).host = .command w :: s.host := by
    rw [State.withFetchWord, withFetchWord_word]
  rw [step_command rfl hhost hd]
  rfl

/-- Settles O10: a reset empties the block, which then waits for a word and runs the first one. -/
theorem resetLeavesTheBlockIdle : Obligations.ResetLeavesTheBlockIdle := by
  refine ⟨fun s rest hb hh => ?_, fun s hb hh => ⟨s, step_idle hb hh, rfl, hb, rfl, rfl⟩, ⟨rfl, rfl, rfl, rfl, rfl⟩,
    fun w i => step_withFetchWord State.reset⟩
  have htail : s.host.tail = rest := congrArg List.tail hh
  rw [step_reset hh, resetBlock_idle (s := s.takeInput s.command) hb, ← htail]
  rfl

/-! ## The invariant (R21, R22, R26) -/

/-- Settles O13: the registers after reset have the one form, and the block is empty. -/
theorem resetMeetsTheInvariant : Obligations.ResetMeetsTheInvariant := ⟨powerOnRegs_wf, rfl⟩

theorem ok_iff (p : InProgress) : p.ok = true ↔ p.todo ≠ [] ∧ p.todo.length ≤ 4 ∧ ∀ tr ∈ p.todo, tr.inMap = true := by
  rw [InProgress.ok, Bool.and_eq_true, Bool.and_eq_true, decide_eq_true_iff, decide_eq_true_iff, List.all_eq_true,
    and_assoc, Nat.succ_le_iff, List.length_pos_iff]

theorem blockOk_idle {s : State} (hb : s.busy = none) (hc : s.command = none) : s.blockOk = true := by
  rw [State.blockOk, hb, hc]; rfl

theorem blockOk_busy {s : State} {p : InProgress} (hb : s.busy = some p) :
    s.blockOk = true ↔ s.response = none ∧ p.ok = true := by
  rw [State.blockOk, hb, Bool.and_eq_true, Option.isNone_iff_eq_none]

/-- A run of at most four transfers inside the map leaves the block idle, or waiting with transfers that are its own. -/
theorem run_blockOk (fin : Finish) {todo : List Transfer} (buf : List Byte) (after : List Disturbance) (al : Bool)
    {s : State} (hr : s.response = none) (hb : s.busy = none ∨ todo ≠ []) (hlen : todo.length ≤ 4)
    (hmap : ∀ tr ∈ todo, tr.inMap = true) : (run fin todo buf after al s).blockOk = true := by
  obtain ⟨hnone, -, p, hp⟩ | ⟨hidle, hcommand, -⟩ := run_response fin todo buf after al s hr
  · obtain ⟨hne, hsuffix, -⟩ := run_busy fin todo buf after al s hb p hp
    exact (blockOk_busy hp).2 ⟨hnone,
      (ok_iff p).2 ⟨hne, hsuffix.length_le.trans hlen, fun tr htr => hmap tr (hsuffix.subset htr)⟩⟩
  · exact blockOk_idle hidle hcommand

theorem transfers_length_le (i : Instr) : (transfersOf i).length ≤ 4 := by
  rw [← List.length_map (f := Transfer.size), transfers_sizes]
  cases i <;> simp [Instr.requested]

theorem exec_inv {i : Instr} {s t : State} (hwf : s.per.regs.wf) (h : exec i s = .next t) : t.Inv := by
  refine ⟨exec_wf hwf h, ?_⟩
  have hw := wellFormed_of_next h
  obtain ⟨_, rfl⟩ | rfl := exec_next_cases h
  · exact blockOk_idle rfl rfl
  · exact run_blockOk (s := begin s) _ _ _ _ rfl (.inl rfl) (transfers_length_le i)
      (List.all_eq_true.1 (transfers_inMap i hw))

theorem resume_inv {p : InProgress} {s : State} (hb : s.busy = some p) (h : s.Inv) : (resume p s).Inv := by
  obtain ⟨hwf, hblock⟩ := h
  obtain ⟨hr, hp⟩ := (blockOk_busy hb).1 hblock
  obtain ⟨hne, hlen, hmap⟩ := (ok_iff p).1 hp
  exact ⟨run_wf _ _ _ _ _ _ hwf, run_blockOk _ _ _ _ hr (.inr hne) hlen hmap⟩

theorem abandon_wf (p : InProgress) {s : State} (h : s.per.regs.wf) : (abandon p s).per.regs.wf := by
  unfold abandon
  split
  · exact h
  · exact disturb_wf (carry_wf (disturb_wf h _ _ _) _ _ _ _) _ _ _

theorem resetBlock_inv {s : State} (h : s.per.regs.wf) : (resetBlock s).Inv := by
  refine ⟨?_, blockOk_idle rfl rfl⟩
  unfold resetBlock
  cases s.busy with
  | none => exact h
  | some p => exact abandon_wf p h

/-- Settles O12: the register map keeps its form, and a command that waits has transfers left of those it began with. -/
theorem everyStepKeepsTheInvariant : Obligations.EveryStepKeepsTheInvariant := by
  intro s t hs h
  obtain ⟨_, -, rfl⟩ | ⟨p, hb, -, rfl⟩ | ⟨w, _, i, -, -, -, hx⟩ | ⟨_, _, _, -, -, -, rfl⟩ | ⟨-, -, rfl⟩ := step_cases h
  · exact resetBlock_inv (s := s.takeInput s.command) hs.1
  · exact resume_inv hb hs
  · exact exec_inv (s := s.takeInput (some w)) hs.1 hx
  · exact ⟨hs.1, blockOk_idle rfl rfl⟩
  · exact hs

/-! ## What a command takes over from the state before it (R21, R41) -/

/-- A command begins from the host's inputs, the parameters, the peripheral and the draws alone (R21). -/
theorem exec_forgets (i : Instr) (s : State) (r : Option Response) (b : List BusCall) (p : Option InProgress) :
    exec i { s with response := r, bus := b, busy := p } = exec i s := by
  cases i <;> rfl

/-- Settles O17: a command empties the block when it begins and when it answers. -/
theorem nothingLeaksBetweenCommands : Obligations.NothingLeaksBetweenCommands :=
  ⟨exec_forgets, fun _ _ _ _ => exec_idle_of_response⟩

/-- The same state with another value in the pointer. -/
def State.withPtr (s : State) (q : Byte) : State := { s with per := ⟨s.per.regs, q⟩ }

theorem issued_withPtr (al : Bool) (tr : Transfer) (buf : List Byte) (s : State) (q : Byte) :
    issued al tr buf (s.withPtr q) = (issued al tr buf s).withPtr q := by
  cases al <;> simp [issued, dropDraw_eq, issue, State.withPtr]

theorem beforeTransfer_withPtr_regs (tr : Transfer) (s : State) (q : Byte) :
    (beforeTransfer tr (s.withPtr q)).regs = (beforeTransfer tr s).regs :=
  disturb_regs_congr _ _ _ rfl

/-- A write transfer sets the pointer with its first byte, so only one of which nothing arrives leaves the pointer as it
was (R50). -/
theorem carry_write_congr {tr : Transfer} (htr : tr.opensTransaction = true) (buf : List Byte) (d : Draw) (e : Nat)
    {p q : Peripheral} (h : p.regs = q.regs) :
    (carry tr buf d e p).1 = (carry tr buf d e q).1 ∧ (carry tr buf d e p).2.regs = (carry tr buf d e q).2.regs ∧
      (e ≠ 0 → (carry tr buf d e p).2 = (carry tr buf d e q).2) := by
  obtain ⟨m, p⟩ := p
  obtain ⟨n, q⟩ := q
  obtain rfl : m = n := h
  cases tr with
  | read n => cases htr
  | address a => cases e <;> exact ⟨rfl, rfl, by simp [carry, acceptWrite, Transfer.bytes]⟩
  | store a v => cases e <;> exact ⟨rfl, rfl, by simp [carry, acceptWrite, Transfer.bytes]⟩
  | storeUpdated a m v => cases e <;> exact ⟨rfl, rfl, by simp [carry, acceptWrite, Transfer.bytes]⟩

theorem size_ne_zero_of_opens {tr : Transfer} (h : tr.opensTransaction = true) : tr.size ≠ 0 := by
  cases tr <;> simp [Transfer.size, Transfer.opensTransaction] at h ⊢

@[simp] theorem withPtr_upcoming (s : State) (q : Byte) (k : Nat) : (s.withPtr q).upcoming k = s.upcoming k := rfl

/-- A run whose first transfer is a write does with another pointer what it does anyway, but for where the pointer is at
the end. -/
theorem run_withPtr (fin : Finish) {tr : Transfer} (htr : tr.opensTransaction = true) (rest : List Transfer)
    (buf : List Byte) (after : List Disturbance) (al : Bool) (s : State) (q : Byte) :
    ∃ p : Peripheral, p.regs = (run fin (tr :: rest) buf after al s).per.regs ∧
      run fin (tr :: rest) buf after al (s.withPtr q) = { run fin (tr :: rest) buf after al s with per := p } := by
  have hbefore := beforeTransfer_withPtr_regs tr s q
  obtain hc | hc | ⟨c, hc, hne⟩ := count_cases tr s
  · rw [run_waits hc, run_waits (s := s.withPtr q) hc, issued_withPtr]
    exact ⟨beforeTransfer tr (s.withPtr q), hbefore, rfl⟩
  · obtain ⟨hbuf, -, hper⟩ := carry_write_congr htr buf (s.upcoming 0) tr.size hbefore
    rw [run_answered hc, run_answered (s := s.withPtr q) hc, issued_withPtr, withPtr_upcoming, hbuf,
      hper (size_ne_zero_of_opens htr)]
    exact ⟨_, rfl, rfl⟩
  · obtain ⟨-, hregs, -⟩ := carry_write_congr htr buf (s.upcoming 0) (min (s.upcoming 0).reached tr.size) hbefore
    rw [run_failed hc hne, run_failed (s := s.withPtr q) hc hne, issued_withPtr, withPtr_upcoming]
    exact ⟨_, disturb_regs_congr s.env s.otherMasters (s.upcoming 0).after hregs, rfl⟩

/-- The first transfer of a command is a write: the address of a read, or a block (R48, R49). -/
theorem transfers_opens (i : Instr) : ∀ tr ∈ (transfersOf i).head?, tr.opensTransaction = true := by
  cases i
  case en32k on => cases on <;> simp [transfersOf, update, memRead, Transfer.opensTransaction]
  all_goals simp [transfersOf, update, memRead, memWrite, Transfer.opensTransaction]

/-- A command of Tier A answers the same results in every state (R3). -/
theorem exec_complete {i : Instr} (h : transfersOf i = []) : ∃ r, ∀ s, exec i s = .next (complete r s) := by
  cases i
  case encBcd | decBcd | encTime | decTime | packA1 | packA2 => exact ⟨_, fun _ => rfl⟩
  case en32k on => cases on <;> cases h
  all_goals cases h

theorem exec_withPtr {i : Instr} {s t : State} (h : exec i s = .next t) (q : Byte) :
    ∃ p : Peripheral, p.regs = t.per.regs ∧ exec i (s.withPtr q) = .next { t with per := p } := by
  have hw := wellFormed_of_next h
  have hopens := transfers_opens i
  cases htodo : transfersOf i with
  | nil =>
    obtain ⟨r, hr⟩ := exec_complete htodo
    obtain rfl := Host.Outcome.next.inj ((hr s).symm.trans h)
    exact ⟨⟨s.per.regs, q⟩, rfl, hr (s.withPtr q)⟩
  | cons tr rest =>
    have hne : transfersOf i ≠ [] := htodo ▸ List.cons_ne_nil tr rest
    obtain rfl := Host.Outcome.next.inj ((exec_start s hw hne).symm.trans h)
    rw [exec_start _ hw hne, htodo]
    rw [htodo] at hopens
    obtain ⟨p, hregs, hrun⟩ := run_withPtr (finishOf i) (hopens tr rfl) rest [] [] false (begin s) q
    exact ⟨p, hregs, congrArg Host.Outcome.next hrun⟩

/-- Settles O18: the first write of a command sets the pointer, unless it fails before its first byte, and then the
command is over. -/
theorem noCommandDependsOnThePointer : Obligations.NoCommandDependsOnThePointer := by
  intro i s q t u ht hu
  obtain ⟨p, hregs, hexec⟩ := exec_withPtr ht q
  obtain rfl := Host.Outcome.next.inj (hexec.symm.trans hu)
  exact ⟨rfl, hregs.symm, rfl, rfl⟩

/-! ## A transfer without an answer (R216) -/

/-- The answers to the first transfers of an instruction are those the transfers ask for. -/
theorem answered_take_transfers {i : Instr} {s : State} {k : Nat} (h : s.answered (i.requested.take k)) (j : Nat)
    (hj : j < k) (hl : j < (transfersOf i).length) : (s.upcoming j).count = some ((transfersOf i)[j].size : Int) :=
  answered_get h (by rw [List.getElem?_take_of_lt hj, ← transfers_sizes, List.getElem?_map,
    List.getElem?_eq_getElem hl, Option.map_some])

theorem requested_length (i : Instr) : i.requested.length = (transfersOf i).length := by
  rw [← transfers_sizes, List.length_map]

/-- A run whose `k`-th transfer is the first without an answer waits there. -/
theorem run_waits_at (fin : Finish) {todo : List Transfer} {k : Nat} (hk : k < todo.length) (buf : List Byte)
    (after : List Disturbance) {s : State}
    (hbefore : ∀ j (hj : j < k), (s.upcoming j).count = some (todo[j].size : Int))
    (hc : (s.upcoming k).count = none) :
    let t := run fin todo buf after false s
    (∃ buf', t.busy = some ⟨todo.drop k, buf', fin⟩) ∧ t.response = s.response ∧
      t.bus.length = s.bus.length + (k + 1) := by
  obtain ⟨buf', after', s', calls, hrun, hbus, hcalls, hdraws, hresponse, -⟩ :=
    run_prefix fin todo k hk.le buf after s hbefore
  have hnone : (s'.upcoming 0).count = none := by rw [hdraws, Nat.add_zero, hc]
  have hlen : calls.length = k := by rw [hcalls.length_eq, List.length_take, min_eq_left hk.le]
  rw [List.drop_eq_getElem_cons hk, run_waits hnone] at hrun
  rw [hrun, List.drop_eq_getElem_cons hk]
  exact ⟨⟨buf', rfl⟩, by simpa using hresponse, by simp [hbus, hlen]⟩

/-- A step of waiting takes a draw and, in the quiet setting, changes nothing else. -/
theorem resume_waits_quiet {s : State} {p : InProgress} (hq : s.quiet) (hb : s.busy = some p) (hne : p.todo ≠ [])
    (hc : (s.upcoming 0).count = none) :
    resume p s = { s with draws := s.draws.drop 1, drawCount := s.drawCount + (1 - s.draws.length) } := by
  obtain ⟨todo, buf, fin⟩ := p
  cases todo with
  | nil => exact absurd rfl hne
  | cons tr rest =>
    rw [resume, run_waits hc, quiet_before hq, issued, if_pos rfl, dropDraw_eq, List.drop_one, ← hb]

/-- Settles O19: the command waits at the transfer that is not answered, and goes on waiting there. -/
theorem unansweredTransferKeepsTheCommandWaiting : Obligations.UnansweredTransferKeepsTheCommandWaiting := by
  refine ⟨fun i s k hw hk hbefore hc => ?_, fun s p hq hb hne hh hc => ?_⟩
  · rw [requested_length] at hk ⊢
    obtain ⟨⟨buf, hbusy⟩, hresponse, hbus⟩ := run_waits_at (s := begin s) (finishOf i) hk [] []
      (fun j hj => answered_take_transfers hbefore j hj (hj.trans hk)) hc
    exact ⟨_, _, exec_start s hw (List.ne_nil_of_length_pos (Nat.zero_lt_of_lt hk)), hbusy, hresponse,
      hbus.trans (Nat.zero_add _), List.length_drop⟩
  · rw [step_resume hb hh, resume_waits_quiet hq hb hne hc]

/-! ## A late answer (R216) -/

/-- Taking a draw that comes before the inserted one leaves the inserted one a place earlier. -/
theorem dropDraw_insertDraw (s : State) (k : Nat) (d : Draw) :
    (s.insertDraw (k + 1) d).dropDraw = s.dropDraw.insertDraw k d := by
  have hdraws : (s.insertDraw (k + 1) d).draws.tail = (s.dropDraw.insertDraw k d).draws := by
    simp only [State.insertDraw, List.range_succ_eq_map, List.map_cons, List.cons_append, List.tail_cons, List.map_map,
      dropDraw_draws, List.drop_tail]
    exact congrArg (· ++ _) (List.map_congr_left fun j _ => (upcoming_dropDraw s j).symm)
  have hcount : (s.insertDraw (k + 1) d).drawCount + (1 - (s.insertDraw (k + 1) d).draws.length) =
      (s.dropDraw.insertDraw k d).drawCount := by
    simp only [State.insertDraw, List.length_append, List.length_map, List.length_range, List.length_cons,
      dropDraw_drawCount, dropDraw_draws, List.length_tail]
    omega
  rw [dropDraw_eq, hdraws, hcount, dropDraw_eq s]
  rfl

theorem issued_insertDraw (al : Bool) (tr : Transfer) (buf : List Byte) (s : State) (k : Nat) (d : Draw) :
    issued al tr buf (s.insertDraw (k + 1) d) = (issued al tr buf s).insertDraw k d := by
  cases al with
  | true => exact dropDraw_insertDraw s k d
  | false => exact dropDraw_insertDraw (issue (tr.call buf) s) k d

theorem dropDraw_insertDraw_zero (s : State) (d : Draw) : (s.insertDraw 0 d).dropDraw = s := by
  simp [State.insertDraw, State.dropDraw]

theorem issued_insertDraw_zero (al : Bool) (tr : Transfer) (buf : List Byte) (s : State) (d : Draw) :
    issued al tr buf (s.insertDraw 0 d) = if al then s else issue (tr.call buf) s := by
  cases al with
  | true => exact dropDraw_insertDraw_zero s d
  | false => exact dropDraw_insertDraw_zero (issue (tr.call buf) s) d

/-- The same transfer goes on after a wait as it would have without it: in the quiet setting the wait has taken the
draw `d` and nothing else. -/
theorem resume_insertDraw_zero (fin : Finish) (tr : Transfer) (rest : List Transfer) (buf : List Byte)
    (after : List Disturbance) (al : Bool) {s : State} {d : Draw} (hq : s.quiet) (hd : d.count = none) :
    let t := run fin (tr :: rest) buf after al (s.insertDraw 0 d)
    t.busy = some ⟨tr :: rest, buf, fin⟩ ∧
      resume ⟨tr :: rest, buf, fin⟩ t = run fin (tr :: rest) buf after al s := by
  have hrun := run_waits (fin := fin) (rest := rest) (buf := buf) (after := after) (al := al) (tr := tr)
    (s := s.insertDraw 0 d) hd
  rw [quiet_before (s := s.insertDraw 0 d) hq, issued_insertDraw_zero] at hrun
  rw [hrun]
  refine ⟨rfl, ?_⟩
  cases al with
  | true => exact run_setBusy fin (tr :: rest) buf [] true s _
  | false =>
    rw [← run_issue]
    exact run_setBusy fin (tr :: rest) buf [] true (issue (tr.call buf) s) _

/-- In the quiet setting a run whose `k`-th transfer is answered late waits there, and goes on from there as it would
have with the answer at once. -/
theorem resume_insertDraw (fin : Finish) {todo : List Transfer} {k : Nat} (hk : k < todo.length) (buf : List Byte)
    (after : List Disturbance) (al : Bool) {s : State} {d : Draw} (hq : s.quiet)
    (hbefore : ∀ j (hj : j < k), (s.upcoming j).count = some (todo[j].size : Int)) (hd : d.count = none) :
    let t := run fin todo buf after al (s.insertDraw k d)
    ∃ p, t.busy = some p ∧ resume p t = run fin todo buf after al s := by
  induction k generalizing todo buf after al s with
  | zero =>
    obtain ⟨tr, rest, rfl⟩ := List.exists_cons_of_length_pos hk
    exact ⟨_, resume_insertDraw_zero fin tr rest buf after al hq hd⟩
  | succ k ih =>
    obtain ⟨tr, rest, rfl⟩ := List.exists_cons_of_length_pos (Nat.zero_lt_of_lt hk)
    have h₀ : (s.upcoming 0).count = some (tr.size : Int) := hbefore 0 (Nat.succ_pos k)
    have hsame : (s.insertDraw (k + 1) d).upcoming 0 = s.upcoming 0 := insertDraw_upcoming_lt s _ d (Nat.succ_pos k)
    rw [run_answered h₀, run_answered (s := s.insertDraw (k + 1) d) (hsame ▸ h₀), issued_insertDraw, hsame,
      quiet_before hq, quiet_before (s := s.insertDraw (k + 1) d) hq]
    exact ih (todo := rest) (Nat.lt_of_succ_lt_succ hk) _ _ false
      (s := { issued al tr buf s with per := (carry tr buf (s.upcoming 0) tr.size s.per).2 })
      (by rwa [State.quiet, issued_env, issued_otherMasters])
      (fun j hj => by rw [next_upcoming]; exact hbefore (j + 1) (Nat.succ_lt_succ hj))


/-- Settles O20: at the next step the waiting transfer goes on as it would have with the answer at once. -/
theorem lateAnswerChangesNothing : Obligations.LateAnswerChangesNothing := by
  intro i s k d t hw hk hq hh hbefore hd ht
  rw [requested_length] at hk
  have hne : transfersOf i ≠ [] := List.ne_nil_of_length_pos (Nat.zero_lt_of_lt hk)
  obtain rfl := Host.Outcome.next.inj ((exec_start _ hw hne).symm.trans ht)
  obtain ⟨p, hb, hresume⟩ := resume_insertDraw (s := begin s) (finishOf i) hk [] [] false hq
    (fun j hj => answered_take_transfers hbefore j hj (hj.trans hk)) hd
  have hhost : (start (transfersOf i) (finishOf i) (s.insertDraw k d)).host = s.host := run_host ..
  rw [exec_start s hw hne]
  exact (step_resume hb (hhost ▸ hh)).trans (congrArg Host.Outcome.next hresume)

/-! ## No transfer outside the map (R55) -/

/-- The calls of a run are those of its first transfers, in order. -/
theorem run_calls (fin : Finish) (todo : List Transfer) (buf : List Byte) (after : List Disturbance) (s : State) :
    ∃ calls made, (run fin todo buf after false s).bus = s.bus ++ calls ∧ made <+: todo ∧ CallsOf calls made := by
  induction todo generalizing buf after s with
  | nil => exact ⟨[], [], (List.append_nil _).symm, List.nil_prefix, .nil⟩
  | cons tr rest ih =>
    have hone : [tr] <+: tr :: rest := ⟨rest, rfl⟩
    obtain hc | hc | ⟨c, hc, hne⟩ := count_cases tr s
    · rw [run_waits hc]
      exact ⟨[tr.call buf], [tr], issued_bus, hone, .cons ⟨buf, rfl⟩ .nil⟩
    · rw [moved_answered hc]
      obtain ⟨calls, made, hbus, hmade, hcalls⟩ := ih _ _ (s.moved 1 [tr.call buf] _)
      exact ⟨tr.call buf :: calls, tr :: made, by rw [hbus, moved_bus, List.append_assoc, List.singleton_append],
        List.cons_prefix_cons.2 ⟨rfl, hmade⟩, .cons ⟨buf, rfl⟩ hcalls⟩
    · rw [moved_failed hc hne]
      exact ⟨[tr.call buf], [tr], rfl, hone, .cons ⟨buf, rfl⟩ .nil⟩

theorem exec_calls {i : Instr} {s t : State} (h : exec i s = .next t) :
    ∃ made, made <+: transfersOf i ∧ CallsOf t.bus made := by
  obtain ⟨_, rfl⟩ | rfl := exec_next_cases h
  · exact ⟨[], List.nil_prefix, .nil⟩
  · obtain ⟨calls, made, hbus, hmade, hcalls⟩ := run_calls (finishOf i) (transfersOf i) [] [] (begin s)
    exact ⟨made, hmade, hbus.trans (List.nil_append _) ▸ hcalls⟩

/-- A call in the middle of some calls is that of a transfer in the middle of their transfers. -/
theorem CallsOf.split {before after : List BusCall} {c : BusCall} {todo : List Transfer}
    (h : CallsOf (before ++ c :: after) todo) :
    ∃ earlier tr later b, todo = earlier ++ tr :: later ∧ CallsOf before earlier ∧ c = Transfer.call b tr ∧
      CallsOf after later := by
  induction before generalizing todo with
  | nil =>
    obtain ⟨tr, later, ⟨b, hb⟩, hafter, rfl⟩ := List.forall₂_cons_left_iff.1 h
    exact ⟨[], tr, later, b, rfl, .nil, hb, hafter⟩
  | cons x before ih =>
    obtain ⟨tr', todo', hx, htodo, rfl⟩ := List.forall₂_cons_left_iff.1 h
    obtain ⟨earlier, tr, later, b, rfl, hbefore, hc, hafter⟩ := ih htodo
    exact ⟨tr' :: earlier, tr, later, b, rfl, .cons hx hbefore, hc, hafter⟩

theorem call_eq_read {tr : Transfer} {b : List Byte} {d : Byte} {n : Nat} (h : tr.call b = .read d n) :
    tr = .read n ∧ d = devAddr := by
  cases tr <;> simp_all [Transfer.call]

/-- A data phase follows the address phase that names where it begins, and stays inside the map (R48, R55). -/
def Transfer.mayPrecede (tr next : Transfer) : Prop := ∀ n, next = .read n → ∃ a, tr = .address a ∧ a.toNat + n ≤ 16

theorem transfers_mayPrecede {i : Instr} (hw : i.wellFormed = true) :
    List.IsChain Transfer.mayPrecede (transfersOf i) := by
  have hin : ∀ a : Byte, offsetInMap a = true → a.toNat + 1 ≤ 16 := fun a h => Nat.succ_le_succ (of_decide_eq_true h)
  cases i
  case rdReg a => simpa [transfersOf, memRead, Transfer.mayPrecede] using hin a hw
  case updReg a m v => simpa [transfersOf, update, memRead, Transfer.mayPrecede] using hin a hw
  case en32k on => cases on <;> simp [transfersOf, update, memRead, Transfer.mayPrecede]
  all_goals simp [transfersOf, update, memRead, memWrite, Transfer.mayPrecede]

/-- A read that a command makes follows its address phase and stays inside the map. -/
theorem exec_read_inMap {i : Instr} {s t : State} (h : exec i s = .next t) {d : Byte} {n : Nat}
    {before after : List BusCall} (hbus : t.bus = before ++ .read d n :: after) :
    ∃ earlier a, before = earlier ++ [.write d [a] true] ∧ a.toNat + n ≤ 16 := by
  obtain ⟨made, hmade, hcalls⟩ := exec_calls h
  rw [hbus] at hcalls
  obtain rfl | ⟨earlier, c, rfl⟩ := before.eq_nil_or_concat'
  · obtain ⟨first, tr, later, b, rfl, hearlier, hread, -⟩ := hcalls.split
    obtain rfl := List.forall₂_nil_left_iff.1 hearlier
    obtain ⟨rfl, -⟩ := call_eq_read hread.symm
    obtain ⟨rest, hrest⟩ := hmade
    have hopens := transfers_opens i (.read n) (by rw [← hrest]; rfl)
    cases hopens
  · rw [List.append_assoc, List.singleton_append] at hcalls
    obtain ⟨first, tr, later, b, rfl, -, rfl, hlater⟩ := hcalls.split
    obtain ⟨tr', later, ⟨b', hread⟩, -, rfl⟩ := List.forall₂_cons_left_iff.1 hlater
    obtain ⟨rfl, rfl⟩ := call_eq_read hread.symm
    obtain ⟨rest, hrest⟩ := hmade
    have hchain := transfers_mayPrecede (wellFormed_of_next h)
    rw [← hrest] at hchain
    obtain ⟨-, hnext, -⟩ := List.isChain_append_cons_cons.1 hchain.left_of_append
    obtain ⟨a, rfl, ha⟩ := hnext n rfl
    exact ⟨earlier, a, rfl, ha⟩

/-- A command writes no empty block (R67). -/
theorem transfers_store_data {i : Instr} {a : Byte} {v : List Byte} (h : .store a v ∈ transfersOf i) : v ≠ [] := by
  rintro rfl
  cases i
  case en32k on => cases on <;> simp [transfersOf, update, memRead] at h
  all_goals simp [transfersOf, update, memRead, memWrite, packAlarm1, packAlarm2] at h

/-- The bytes of a write call are an offset of the map and data that stay inside it. -/
theorem call_write_inMap {tr : Transfer} (htr : tr.inMap = true) (hdata : ∀ a v, tr = .store a v → v ≠ [])
    {b bytes : List Byte} {d : Byte} {hold : Bool} (h : tr.call b = .write d bytes hold) :
    ∃ a data, bytes = a :: data ∧ a.toNat ≤ 0x0F ∧ a.toNat + data.length ≤ 16 := by
  cases tr with
  | read n => cases h
  | address a =>
    cases h
    have ha : a.toNat ≤ 15 := of_decide_eq_true htr
    exact ⟨a, [], rfl, ha, Nat.le_succ_of_le ha⟩
  | store a v =>
    cases h
    have hfit : a.toNat + v.length ≤ 16 := of_decide_eq_true htr
    have hpos := List.length_pos_iff.2 (hdata a v rfl)
    exact ⟨a, v, rfl, by omega, hfit⟩
  | storeUpdated a m v =>
    cases h
    have ha : a.toNat ≤ 15 := of_decide_eq_true htr
    exact ⟨a, _, rfl, ha, Nat.succ_le_succ ha⟩

theorem exec_write_inMap {i : Instr} {s t : State} (h : exec i s = .next t) {d : Byte} {bytes : List Byte} {hold : Bool}
    (hc : .write d bytes hold ∈ t.bus) : ∃ a data, bytes = a :: data ∧ a.toNat ≤ 0x0F ∧ a.toNat + data.length ≤ 16 := by
  obtain ⟨tr, htr, b, hb⟩ := exec_bus h hc
  have hin := List.all_eq_true.1 (transfers_inMap i (wellFormed_of_next h)) tr htr
  exact call_write_inMap hin (fun a v hstore => transfers_store_data (hstore ▸ htr)) hb.symm

/-- Only a command that is not well formed is refused. -/
theorem wellFormed_of_refused {i : Instr} {s : State} {r : Refusal} (h : exec i s = .refused r) :
    i.wellFormed = false := by
  rw [← Bool.not_eq_true]
  intro hw
  obtain ⟨-, _, hx⟩ | ⟨-, hx⟩ := exec_cases i s hw
  · cases hx.symm.trans h
  · cases hx.symm.trans h

/-- Settles O15: the offset alone decides a refusal, there is no fault to end in, and a command's transfers, all inside
the map, are an address phase before each data phase and writes that begin in the map. -/
theorem onlyOffsetsAboveTheMapAreRefused : Obligations.OnlyOffsetsAboveTheMapAreRefused := by
  refine ⟨fun i s r h => ?_, fun a m v s ha => ?_, fun _ _ f => f.rec,
    fun i s t h => ⟨fun d bytes hold => exec_write_inMap h, fun d n before after => exec_read_inMap h⟩⟩
  · obtain ⟨a, hx, ha, hi⟩ := exec_refused i s (wellFormed_of_refused h)
    exact ⟨a, Host.Outcome.refused.inj (h.symm.trans hx), ha, hi⟩
  · have hout : offsetInMap a = false := decide_eq_false (Nat.not_le.2 ha)
    exact ⟨atOffset_refused hout _, atOffset_refused hout _, atOffset_refused hout _⟩

end Sys2Proof.Machine

/-! PROOFS. The peripheral: what its transfers do (spec/20_memory.md R50, R51), the limits of an environment step (R52), and
the registers a command leaves alone (R58). -/

namespace Sys2Proof.Machine

open Sys2Proof

/-! ## Transfers byte by byte (R50, R51) -/

theorem storeBytes_append (past : Byte) (u v : List Byte) (p : Peripheral) :
    storeBytes past (u ++ v) p = storeBytes past v (storeBytes past u p) := by
  induction u generalizing p with
  | nil => rfl
  | cons b u ih => exact ih _

/-- The last byte of a read is the register at the pointer that the others leave. -/
theorem supply_succ (stray past : Byte) (n : Nat) (p : Peripheral) :
    supply stray past (n + 1) p =
      ((supply stray past n p).1 ++
          [((supply stray past n p).2.regs.byte? (supply stray past n p).2.ptr.toNat).getD stray],
        ⟨(supply stray past n p).2.regs, nextPtr past (supply stray past n p).2.ptr⟩) := by
  induction n generalizing p with
  | zero => rfl
  | succ n ih =>
    exact congrArg (fun r => ((p.regs.byte? p.ptr.toNat).getD stray :: r.1, r.2)) (ih ⟨p.regs, nextPtr past p.ptr⟩)

/-- Settles O57: a transfer handles its bytes one after the other, each at the pointer. -/
theorem transfersFollowThePointer : Obligations.TransfersFollowThePointer := by
  refine ⟨fun _ _ => rfl, fun _ _ _ => rfl, fun past a v data p => storeBytes_append past data [v] ⟨p.regs, a⟩,
    supply_regs, ?_⟩
  intro stray past n p b q hb
  rw [supply_succ, hb, Option.getD_some]
  rfl

/-! ## The limits of an environment step (R52) -/

/-- A merge is an update whose set bits lie inside the mask. -/
theorem mergeBits_eq_updated (mask old new : Byte) : mergeBits mask old new = updated old mask (new &&& mask) := rfl

theorem getLsbD_mergeBits_outside {mask : Byte} {k : Nat} (hk : k < 8) (hm : mask.getLsbD k = false) (old new : Byte) :
    (mergeBits mask old new).getLsbD k = old.getLsbD k := by
  rw [mergeBits_eq_updated]
  exact getLsbD_updated_kept old hk hm (by rw [BitVec.getLsbD_and, hm, Bool.and_false])

theorem mergeBits_inside (mask old new : Byte) : mergeBits mask old new &&& mask = new &&& mask := by
  apply BitVec.eq_of_getLsbD_eq
  intro k hk
  rw [mergeBits_eq_updated, BitVec.getLsbD_and, getLsbD_updated _ _ _ hk, BitVec.getLsbD_and]
  cases mask.getLsbD k <;> simp

theorem mergeBits_outside {mask keep : Byte} (h : mask &&& keep = 0) (old new : Byte) :
    mergeBits mask old new &&& keep = old &&& keep := by
  apply BitVec.eq_of_getLsbD_eq
  intro k hk
  have hbit : (mask.getLsbD k && keep.getLsbD k) = false := by rw [← BitVec.getLsbD_and, h]; exact BitVec.getLsbD_zero
  rw [BitVec.getLsbD_and, BitVec.getLsbD_and]
  cases hm : mask.getLsbD k with
  | false => rw [getLsbD_mergeBits_outside hk hm]
  | true =>
    rw [hm, Bool.true_and] at hbit
    rw [hbit, Bool.and_false, Bool.and_false]

/-- The described control bits are not in the mask that a step redraws. -/
theorem envControl_kept (c : Option Byte) (old : Byte) : envControl c old &&& 0x1F = old &&& 0x1F := by
  cases c with
  | none => rfl
  | some d => exact mergeBits_outside rfl old d

theorem getLsbD_bitsIf (on : Bool) (mask : Byte) (k : Nat) : (bitsIf on mask).getLsbD k = (on && mask.getLsbD k) := by
  cases on <;> simp [bitsIf]

/-- A described status bit after a step: the old bit, or a flag that the step sets. -/
theorem getLsbD_envStatus (e : EnvStep) (old : Byte) {k : Nat} (hk : k < 8) (hm : statUndescribed.getLsbD k = false) :
    (envStatus e old).getLsbD k =
      (old.getLsbD k || (e.setA1F && maskA1F.getLsbD k) || (e.setA2F && maskA2F.getLsbD k)) := by
  rw [envStatus, BitVec.getLsbD_or, BitVec.getLsbD_or, getLsbD_bitsIf, getLsbD_bitsIf]
  cases e.status with
  | none => rfl
  | some d => rw [← getLsbD_mergeBits_outside hk hm old d]

theorem statEn32k_envStatus (e : EnvStep) (old : Byte) : statEn32k (envStatus e old) = statEn32k old := by
  simpa [statEn32k, maskA1F, maskA2F] using getLsbD_envStatus e old (k := 3) (by decide) rfl

theorem statA1F_envStatus (e : EnvStep) (old : Byte) : statA1F (envStatus e old) = (statA1F old || e.setA1F) := by
  simpa [statA1F, maskA1F, maskA2F] using getLsbD_envStatus e old (k := 0) (by decide) rfl

theorem statA2F_envStatus (e : EnvStep) (old : Byte) : statA2F (envStatus e old) = (statA2F old || e.setA2F) := by
  simpa [statA2F, maskA1F, maskA2F] using getLsbD_envStatus e old (k := 1) (by decide) rfl

/-- In a redrawn time block each register holds its drawn byte. -/
theorem byte?_envStep_time (e : EnvStep) {p : Peripheral} (hwf : p.regs.wf) {time : Slots} (ht : e.time = some time)
    {k : Nat} (hk : k < 7) : (envStep e p).regs.byte? k = (slotsList time)[k]? := by
  have h14 : k ≠ 14 := by omega
  have h15 : k ≠ 15 := by omega
  have hblock := writeBlock_holdsTime hwf time k hk
  simpa [envStep, envTime, ht, ctrlOffset, statOffset, timeBase, h14, h15] using hblock

/-- Settles O55: a step redraws only the time block and the undescribed bits, which may take any value, and sets flags. -/
theorem environmentStepsKeepTheirLimits : Obligations.EnvironmentStepsKeepTheirLimits := by
  refine ⟨fun _ _ _ => rfl, fun e p => ⟨rfl, fun h => envStep_wf h e, fun x => byte?_envStep_alarm e p,
    fun old new hold hnew => ?_, fun old new hold hnew => ?_⟩, fun p time c st hwf => ?_⟩
  · rw [byte?_envStep_ctrl, hold] at hnew
    obtain rfl := Option.some.inj hnew
    exact envControl_kept _ old
  · rw [byte?_envStep_stat, hold] at hnew
    obtain rfl := Option.some.inj hnew
    exact ⟨statEn32k_envStatus e old, statA1F_envStatus e old, statA2F_envStatus e old⟩
  · obtain ⟨ctrl, hctrl⟩ : ∃ b, p.regs.byte? 14 = some b := ⟨_, byte?_of_wf hwf (by decide)⟩
    obtain ⟨stat, hstat⟩ : ∃ b, p.regs.byte? 15 = some b := ⟨_, byte?_of_wf hwf (by decide)⟩
    refine ⟨⟨some time, false, false, some c, some st⟩, fun k => byte?_envStep_time _ hwf rfl,
      ⟨envControl (some c) ctrl, ?_, mergeBits_inside ctrlUndescribed ctrl c⟩,
      ⟨mergeBits statUndescribed stat st, ?_, mergeBits_inside statUndescribed stat st⟩⟩
    · rw [byte?_envStep_ctrl, hctrl, Option.map_some]
    · rw [byte?_envStep_stat, hstat, Option.map_some, envStatus]
      simp [bitsIf]

/-! ## The registers a command leaves alone (R58) -/

/-- Without other masters, what the peripheral's own steps and a command's transfers keep is kept by the command. -/
theorem exec_preserves_per {Q : Peripheral → Prop} {i : Instr} {s t : State} (hothers : s.otherMasters = false)
    (hdisturb : ∀ xs p, Q p → Q (disturb s.env false xs p))
    (hcarry : ∀ tr ∈ transfersOf i, ∀ buf d e p, Q p → Q (carry tr buf d e p).2)
    (hs : Q s.per) (h : exec i s = .next t) : Q t.per := by
  obtain ⟨_, rfl⟩ | rfl := exec_next_cases h
  · exact hs
  have hkeep : (start (transfersOf i) (finishOf i) s).env = s.env ∧
      (start (transfersOf i) (finishOf i) s).otherMasters = false ∧ Q (start (transfersOf i) (finishOf i) s).per := by
    refine run_preserves (P := fun u => u.env = s.env ∧ u.otherMasters = false ∧ Q u.per) _ _ ?_ ?_ ?_
      (fun _ _ hu => hu) (fun _ _ hu => hu) [] [] false (begin s) ⟨rfl, hothers, hs⟩
    · rintro u ms xs hms ⟨henv, hnone, hu⟩
      obtain rfl : ms = false := by simpa [hnone] using hms
      exact ⟨henv, hnone, henv ▸ hdisturb xs u.per hu⟩
    · rintro tr htr buf d e u ⟨henv, hnone, hu⟩
      exact ⟨henv, hnone, hcarry tr htr buf d e u.per hu⟩
    · rintro tr buf al u ⟨henv, hnone, hu⟩
      exact ⟨issued_env.trans henv, issued_otherMasters.trans hnone, by rwa [issued_per]⟩
  exact hkeep.2.2

/-- No transfer of a command changes a register the command does not write, however far it gets. -/
theorem byte?_carry_transfer {i : Instr} (hw : i.wellFormed = true) {x : Nat} (hx : x ∉ i.written) {tr : Transfer}
    (htr : tr ∈ transfersOf i) (buf : List Byte) (d : Draw) (e : Nat) (p : Peripheral) :
    (carry tr buf d e p).2.regs.byte? x = p.regs.byte? x := by
  have hin := List.all_eq_true.1 (transfers_inMap i hw) tr htr
  refine byte?_carry hin buf d e p fun hmem => hx ?_
  rw [← transfers_offsets]
  exact List.mem_flatMap.2 ⟨tr, htr, hmem⟩

/-- Without other masters, what a peripheral's own steps keep of a register the command does not write is kept by the
command. -/
theorem exec_preserves_byte {Q : Option Byte → Prop} {i : Instr} {s t : State} {x : Nat} (hx : x ∉ i.written)
    (hothers : s.otherMasters = false)
    (hdisturb : ∀ xs p, Q (p.regs.byte? x) → Q ((disturb s.env false xs p).regs.byte? x))
    (hs : Q (s.per.regs.byte? x)) (h : exec i s = .next t) : Q (t.per.regs.byte? x) := by
  refine exec_preserves_per (Q := fun p => Q (p.regs.byte? x)) hothers hdisturb (fun tr htr buf d e p hp => ?_) hs h
  rwa [byte?_carry_transfer (wellFormed_of_next h) hx htr]

theorem exec_host {i : Instr} {s t : State} (h : exec i s = .next t) : t.host = s.host := by
  obtain ⟨_, rfl⟩ | rfl := exec_next_cases h
  · rfl
  · exact run_host ..

/-- A command that requests no transfer leaves the peripheral alone. -/
theorem exec_per_of_requested_nil {i : Instr} {s t : State} (hnone : i.requested = []) (h : exec i s = .next t) :
    t.per = s.per := by
  rw [← transfers_sizes, List.map_eq_nil_iff] at hnone
  obtain ⟨r, hr⟩ := exec_complete hnone
  obtain rfl := Host.Outcome.next.inj ((hr s).symm.trans h)
  rfl

theorem exec_byte?_quiet {i : Instr} {s t : State} (hq : s.quiet) (h : exec i s = .next t) {x : Nat}
    (hx : x ∉ i.written) : t.per.regs.byte? x = s.per.regs.byte? x := by
  refine exec_preserves_byte (Q := (· = s.per.regs.byte? x)) hx hq.2 (fun xs p hp => ?_) rfl h
  rwa [hq.1, disturb_storage]

/-- Settles O54: the transfers of a command write its own registers, and in the quiet setting nothing else acts. -/
theorem commandsChangeOnlyTheirRegisters : Obligations.CommandsChangeOnlyTheirRegisters := by
  intro i s t hq h
  exact ⟨fun x => exec_byte?_quiet hq h, fun hnil => exec_regs_of_written_nil hnil hq h,
    fun hnil => exec_per_of_requested_nil hnil h, exec_host h, exec_parameters h⟩

/-! ## A peripheral that acts by itself (R52) -/

/-- What a peripheral's own steps keep of a status byte: no flag is cleared, and `EN32kHz` is as it was. -/
def statusKept (old new : Byte) : Prop :=
  statEn32k new = statEn32k old ∧ (statA1F old = true → statA1F new = true) ∧ (statA2F old = true → statA2F new = true)

theorem statusKept_envStatus {old new : Byte} (h : statusKept old new) (e : EnvStep) :
    statusKept old (envStatus e new) := by
  obtain ⟨h32k, hA1F, hA2F⟩ := h
  refine ⟨(statEn32k_envStatus e new).trans h32k, fun hold => ?_, fun hold => ?_⟩
  · rw [statA1F_envStatus, hA1F hold, Bool.true_or]
  · rw [statA2F_envStatus, hA2F hold, Bool.true_or]

/-- Settles O56: a command that does not write a register leaves it to the environment's steps, and those keep their
limits. -/
theorem livePeripheralKeepsConfiguration : Obligations.LivePeripheralKeepsConfiguration := by
  intro i s t hothers h
  refine ⟨fun x h₁ h₂ hx => ?_, fun old new hx hold hnew => ?_, fun old new hx hold hnew => ?_⟩
  · refine exec_preserves_byte (Q := (· = s.per.regs.byte? x)) hx hothers (fun xs p hp => ?_) rfl h
    exact disturb_induct (P := fun p => p.regs.byte? x = s.per.regs.byte? x)
      (fun e p hp => (byte?_envStep_alarm e p h₁ h₂).trans hp) s.env xs hp
  · have hkept := exec_preserves_byte (Q := fun b => ∀ new ∈ b, new &&& 0x1F = old &&& 0x1F) hx hothers
      (fun xs p hp => disturb_induct (P := fun p => ∀ new ∈ p.regs.byte? 14, new &&& 0x1F = old &&& 0x1F)
        (fun e p hp new hnew => ?_) s.env xs hp) (fun new hnew => ?_) h
    · exact hkept new hnew
    · rw [byte?_envStep_ctrl] at hnew
      obtain ⟨b, hb, rfl⟩ := Option.map_eq_some_iff.1 hnew
      exact (envControl_kept _ b).trans (hp b hb)
    · rw [hold] at hnew
      rw [Option.some.inj hnew]
  · have hkept := exec_preserves_byte (Q := fun b => ∀ new ∈ b, statusKept old new) hx hothers
      (fun xs p hp => disturb_induct (P := fun p => ∀ new ∈ p.regs.byte? 15, statusKept old new)
        (fun e p hp new hnew => ?_) s.env xs hp) (fun new hnew => ?_) h
    · exact hkept new hnew
    · rw [byte?_envStep_stat] at hnew
      obtain ⟨b, hb, rfl⟩ := Option.map_eq_some_iff.1 hnew
      exact statusKept_envStatus (hp b hb) e
    · rw [hold] at hnew
      obtain rfl := Option.some.inj hnew
      exact ⟨rfl, id, id⟩

end Sys2Proof.Machine

/-! PROOFS. `SET_TIME` and `READ_TIME` (spec/42_time_codec.md): the block they write and read (R128, R129), and how
much of it a failed write leaves (R46). -/

namespace Sys2Proof.Machine

open Sys2Proof

/-- Settles O27: one block write from the first register, which fills the seven time registers. -/
theorem setTimeWritesTheEncodedBlock : Obligations.SetTimeWritesTheEncodedBlock := by
  intro s sec mi h w d mo y hq hwf hc buf
  exact ⟨exec_setTime_quiet hq (answered_cons hc) sec mi h w d mo y,
    writeBlock_holdsTime hwf (encLanes ⟨sec, mi, h, w, d, mo, y⟩),
    fun x hx => byte?_writeBlock_outside s.per.regs 0x00 buf (.inr hx)⟩

theorem exec_readTime_quiet {s : State} {p : Slots} (hq : s.quiet) (ha : s.answered [1, 7])
    (hp : s.per.regs.holdsTime p) :
    exec .readTime s = .next (s.finished 2 [.write 0x68 [0x00] true, .read 0x68 7] (.ok (decLanes p))
      ⟨s.per.regs, 0x07⟩) := by
  have hsupply : ∀ stray past, supply stray past 7 ⟨s.per.regs, 0x00⟩ = (slotsList p, ⟨s.per.regs, 0x07⟩) :=
    fun stray past => Prod.ext (supply_holdsTime hp stray past) rfl
  rw [exec_start (i := .readTime) s rfl (List.cons_ne_nil _ _), start, show transfersOf .readTime = [.address 0x00, .read 7] from rfl,
    run_memRead_answered (s := begin s) 0x00 7 (answered_cons ha) (answered_get ha rfl),
    mapAtRead_quiet (s := begin s) hq, begin_per, hsupply]
  exact congrArg Host.Outcome.next (quiet_nil (s := State.moved _ _ _ _) hq)

theorem decLanes_eq (p : Slots) :
    decLanes p = ⟨dec p.b0, dec p.b1, dec p.b2, dec p.b3, dec p.b4, dec (p.b5 &&& 0x7F), dec p.b6⟩ := by
  rw [decLanes, show ~~~century = (0x7F : Byte) from rfl]

/-- Settles O28: the read takes the time block, whose month is decoded without its flag. -/
theorem readTimeAnswersTheDecodedBlock : Obligations.ReadTimeAnswersTheDecodedBlock := by
  intro s b0 b1 b2 b3 b4 b5 b6 hq ha h0 h1 h2 h3 h4 h5 h6
  have hp : s.per.regs.holdsTime ⟨b0, b1, b2, b3, b4, b5, b6⟩ := by
    intro k hk
    interval_cases k
    · exact h0
    · exact h1
    · exact h2
    · exact h3
    · exact h4
    · exact h5
    · exact h6
  rw [exec_readTime_quiet hq ha hp, decLanes_eq]

/-! ## A block write that fails (R46, R50) -/

/-- Of a write of an offset and a block of which `e` bytes arrive, the registers take the first `e - 1` of the block. -/
theorem byte?_writeBlock_take {m : Memory} (hwf : m.wf) {a : Nat} {v : List Byte} (hfit : a + v.length ≤ 16) {e : Nat}
    (he : e ≤ v.length + 1) (x : Nat) :
    (m.writeBlock a (v.take (e - 1))).byte? x = if a ≤ x ∧ x - a + 1 < e then v[x - a]? else m.byte? x := by
  have hlen : (v.take (e - 1)).length = e - 1 := by rw [List.length_take]; omega
  split
  case isTrue hx =>
    have hsome : (m.byte? x).isSome := by rw [byte?_of_wf hwf (by omega)]; rfl
    rw [byte?_writeBlock_inside m a _ hx.1 (by omega) hsome, List.getElem?_take_of_lt (by omega)]
  case isFalse hx => exact byte?_writeBlock_outside m a _ (by omega)

/-- A command whose first transfer is a block write that fails. -/
theorem start_store_failed {fin : Finish} {rest : List Transfer} {s : State} {a : Byte} {v : List Byte} {c : Int}
    (hq : s.quiet) (hwf : s.per.regs.wf) (hfit : a.toNat + v.length ≤ 16) (hc : (s.upcoming 0).count = some c)
    (hne : c ≠ (v.length + 1 : Nat)) :
    let t := start (.store a v :: rest) fin s
    t.response = some (.raised .transportFailure) ∧ t.bus.length = 1 ∧
      ∀ x, t.per.regs.byte? x = if a.toNat ≤ x ∧ x - a.toNat + 1 < min (s.upcoming 0).reached (v.length + 1)
        then v[x - a.toNat]? else s.per.regs.byte? x := by
  have hpart : (carry (.store a v) [] (s.upcoming 0) (min (s.upcoming 0).reached (v.length + 1)) s.per).2.regs =
      s.per.regs.writeBlock a.toNat (v.take (min (s.upcoming 0).reached (v.length + 1) - 1)) :=
    acceptWrite_take_regs _ a v _ s.per hfit
  rw [quiet_start_failed (tr := .store a v) hq hc hne]
  refine ⟨rfl, rfl, fun x => ?_⟩
  rw [← byte?_writeBlock_take hwf hfit (min_le_right _ _), ← hpart]
  rfl

/-- Settles O29: of the one block write the registers have taken what arrived after the offset. -/
theorem failedSetTimeWritesAPrefix : Obligations.FailedSetTimeWritesAPrefix := by
  intro s sec mi h w d mo y c hq hwf hc hne
  obtain ⟨hresponse, hbus, hregs⟩ := start_store_failed (fin := .nothing) (rest := []) (a := 0x00)
    (v := slotsList (encLanes ⟨sec, mi, h, w, d, mo, y⟩)) hq hwf (by simp [slotsList]) hc hne
  refine ⟨_, exec_start s rfl (List.cons_ne_nil _ _), hresponse, hbus, fun x => (hregs x).trans ?_⟩
  exact if_congr (and_iff_right (Nat.zero_le x)) rfl rfl

end Sys2Proof.Machine

/-! PROOFS. Register access (spec/40_register_access.md): a command that is one read of one byte (R100), and an update in any
setting, answered or failing at any transfer (R102, R103). -/

namespace Sys2Proof.Machine

open Sys2Proof

/-! ## One byte read (R100) -/

/-- A command that is one read of one byte makes its result of the byte the data phase meets, in any setting. -/
theorem exec_memRead_one_answered {i : Instr} {s : State} {a b : Byte} (hw : i.wellFormed = true)
    (hi : transfersOf i = memRead a 1) (hc : s.answered [1, 1]) (hb : (s.mapAtRead 0 s.per).byte? a.toNat = some b) :
    ∃ t, exec i s = .next t ∧ t.response = some (.ok ((finishOf i).result [b])) := by
  refine ⟨_, exec_start s hw (hi ▸ List.cons_ne_nil _ _), ?_⟩
  rw [start, hi, show memRead a 1 = [.address a, .read 1] from rfl,
    run_memRead_answered (s := begin s) a 1 (answered_cons hc) (answered_get hc rfl), run_nil, respond_response]
  have hb' : ((begin s).mapAtRead 0 (begin s).per).byte? a.toNat = some b := hb
  simp only [supply, hb', Option.getD_some]

theorem exec_rdReg_answered {s : State} {a b : Byte} (ha : a.toNat ≤ 0x0F) (hc : s.answered [1, 1])
    (hb : (s.mapAtRead 0 s.per).byte? a.toNat = some b) :
    ∃ t, exec (.rdReg a) s = .next t ∧ t.response = some (.ok ⟨b, 0, 0, 0, 0, 0, 0⟩) :=
  exec_memRead_one_answered (i := .rdReg a) (decide_eq_true ha) rfl hc hb

/-- Settles O37: the command is one read of one byte, which is the answer and changes no register. -/
theorem rdRegAnswersTheRegister : Obligations.RdRegAnswersTheRegister := by
  refine ⟨fun w hw => decode_of_opcodeField hw, fun s a b hq ha hc hb => ?_,
    fun a ha => failsAtAnyTransfer_of_wellFormed (decide_eq_true ha), fun s t a hq h => exec_regs_of_written_nil rfl hq h,
    fun s a b => exec_rdReg_answered⟩
  have hread := quiet_memRead_one (fin := .byte) (buf := []) (after := []) (s := begin s) hq a hb (answered_cons hc)
    (answered_get hc rfl)
  rw [exec_start (i := .rdReg a) s (decide_eq_true ha) (List.cons_ne_nil _ _), ← nextPtr_of_inMap _ ha]
  exact congrArg Host.Outcome.next hread

/-! ## An update in any setting (R102) -/

/-- Another master may act before the first transfer of a `MemRead` or `MemWrite` (R63). -/
theorem beforeTransfer_opens {tr : Transfer} (h : tr.opensTransaction = true) (s : State) :
    beforeTransfer tr s = disturb s.env s.otherMasters (s.upcoming 0).before s.per := by
  rw [beforeTransfer, h, Bool.and_true]

/-- The peripheral once an update has written `new` at `a`: what happens before the write, the write of the whole byte,
and what happens after it (R52, R63). -/
def State.afterUpdate (s : State) (a new : Byte) : Peripheral :=
  disturb s.env s.otherMasters (s.upcoming 2).after
    ⟨(disturb s.env s.otherMasters (s.upcoming 2).before
        ⟨s.mapAtRead 0 s.per, nextPtr (s.upcoming 1).ptrPast a⟩).regs.write a.toNat new,
      nextPtr (s.upcoming 2).ptrPast a⟩

/-- An answered update writes what the formula makes of the byte the data phase meets. -/
theorem run_update_answered {fin : Finish} {buf : List Byte} {after : List Disturbance} {s : State} {a old : Byte}
    (m v : Byte) (hc : s.answered [1, 1, 2]) (hold : (s.mapAtRead 0 s.per).byte? a.toNat = some old) :
    run fin (update a m v) buf after false s =
      respond (.ok (fin.result [old])) (s.moved 3
        [.write 0x68 [a] true, .read 0x68 1, .write 0x68 [a, updated old m v] false]
        (s.afterUpdate a (updated old m v))) := by
  have hsupply : ∀ stray past, supply stray past 1 ⟨s.mapAtRead 0 s.per, a⟩ =
      ([old], ⟨s.mapAtRead 0 s.per, nextPtr past a⟩) := by
    intro stray past
    rw [supply, hold]
    rfl
  have hwrite : (s.upcoming 2).count = some ((Transfer.storeUpdated a m v).size : Int) := answered_get hc rfl
  rw [show update a m v = [.address a, .read 1, .storeUpdated a m v] from rfl,
    run_memRead_answered a 1 (answered_cons hc) (answered_get hc rfl), hsupply,
    moved_answered (by rwa [moved_upcoming]), moved_moved, run_nil]
  rw [beforeTransfer_opens rfl, moved_upcoming]
  rfl

theorem exec_update_answered {i : Instr} {s : State} {a m v old : Byte} (h : i.updateArgs = some (a, m, v))
    (ha : a.toNat ≤ 0x0F) (hc : s.answered [1, 1, 2]) (hold : (s.mapAtRead 0 s.per).byte? a.toNat = some old) :
    exec i s = .next (s.finished 3
      [.write 0x68 [a] true, .read 0x68 1, .write 0x68 [a, updated old m v] false] (.ok Slots.zero)
      (s.afterUpdate a (updated old m v))) := by
  rw [exec_of_updateArgs h ha]
  exact congrArg Host.Outcome.next (run_update_answered (s := begin s) m v hc hold)

theorem afterUpdate_quiet {s : State} (hq : s.quiet) (a new : Byte) :
    s.afterUpdate a new = ⟨s.per.regs.write a.toNat new, nextPtr (s.upcoming 2).ptrPast a⟩ := by
  rw [State.afterUpdate, mapAtRead_quiet hq, hq.1, hq.2, disturb_storage, disturb_storage]

/-- If nothing happens after it, the write leaves the whole new byte in the register. -/
theorem byte?_afterUpdate {s : State} {a : Byte} (hafter : (s.upcoming 2).after = [])
    (hreg : ((disturb s.env s.otherMasters (s.upcoming 2).before
      ⟨s.mapAtRead 0 s.per, nextPtr (s.upcoming 1).ptrPast a⟩).regs.byte? a.toNat).isSome) (new : Byte) :
    (s.afterUpdate a new).regs.byte? a.toNat = some new := by
  obtain ⟨b, hb⟩ := Option.isSome_iff_exists.1 hreg
  rw [State.afterUpdate, hafter, disturb, byte?_write, if_pos rfl, hb, Option.map_some]

theorem mapAtRead_undisturbed {s : State} {k : Nat} (h₀ : (s.upcoming k).before = []) (h₁ : (s.upcoming (k + 1)).before = [])
    (p : Peripheral) : s.mapAtRead k p = p.regs := by
  rw [State.mapAtRead, h₀, h₁, disturb, disturb]

/-- Settles O42: the read comes before what happens in between, and the write is of the whole byte. -/
theorem updateOverwritesWhatHappenedInBetween : Obligations.UpdateOverwritesWhatHappenedInBetween := by
  intro i s a m v old h ha hwf hc hold h₀ h₁ h₂
  have hmap := mapAtRead_undisturbed h₀ h₁ s.per
  refine ⟨_, exec_update_answered h ha hc (hmap ▸ hold), rfl, byte?_afterUpdate h₂ ?_ _⟩
  have hmid := disturb_wf (p := ⟨s.mapAtRead 0 s.per, nextPtr (s.upcoming 1).ptrPast a⟩) (mapAtRead_wf hwf) s.env
    s.otherMasters (s.upcoming 2).before
  rw [byte?_of_wf hmid ha]
  rfl

/-- Settles O39: in the quiet setting the byte read is the register's own. -/
theorem updRegWritesTheUpdatedByte : Obligations.UpdRegWritesTheUpdatedByte := by
  intro s a m v old hq ha hc hold new
  rw [← nextPtr_of_inMap _ ha]
  exact exec_update_quiet rfl hq ha hc hold

/-- Settles O40: the formula works bit by bit on the byte the read meets, by its one write. -/
theorem updateFormulaLaws : Obligations.UpdateFormulaLaws := by
  intro s a m v ha hwf hc
  have hold := byte?_of_wf (mapAtRead_wf (k := 0) (s := s) hwf) ha
  generalize ((s.mapAtRead 0 s.per).byte? a.toNat).getD 0 = old at hold
  refine ⟨_, old, updated old m v, exec_update_answered rfl ha hc hold, rfl, rfl, hold, rfl,
    fun k hk => ⟨getLsbD_updated_set old hk, fun hv hm => getLsbD_updated_cleared old hk hm hv,
      fun hv hm => getLsbD_updated_kept old hk hm hv⟩, ?_, ?_, fun hq => ?_⟩
  · rintro rfl rfl
    exact (updated_keep old 0).trans BitVec.or_zero
  · rintro rfl
    exact updated_all old v
  · rw [mapAtRead_quiet hq] at hold
    refine ⟨hold, ?_⟩
    change (s.afterUpdate a (updated old m v)).regs.byte? a.toNat = some (updated old m v)
    rw [afterUpdate_quiet hq, byte?_write, if_pos rfl, hold, Option.map_some]

/-! ## An update that fails, in the quiet setting (R104) -/

section
variable {fin : Finish} {rest : List Transfer} {buf : List Byte} {after : List Disturbance} {s : State} {a old : Byte}
  {c : Int}

/-- A read of one byte that fails at its first or second transfer ends the run there, with every register as it was. -/
theorem run_memRead_one_fails {k : Nat} (hq : s.quiet) (hk : k = 0 ∨ k = 1) (hbefore : s.answered ([1].take k))
    (hc : (s.upcoming k).count = some c) (hne : c ≠ 1) :
    ∃ p : Peripheral, p.regs = s.per.regs ∧ run fin (memRead a 1 ++ rest) buf after false s =
      raise .transportFailure (s.moved (k + 1) ([.write 0x68 [a] true, .read 0x68 1].take (k + 1)) p) := by
  obtain rfl | rfl := hk
  · exact ⟨_, carry_regs_of_offsets_nil (tr := .address a) rfl buf _ _ s.per, quiet_failed (tr := .address a) hq hc hne⟩
  · have hread := quiet_failed (fin := fin) (rest := rest) (buf := buf) (after := (s.upcoming 0).after) (tr := .read 1)
      (s := s.moved 1 [.write 0x68 [a] true] ⟨s.per.regs, a⟩) hq (by rwa [moved_upcoming]) hne
    rw [moved_moved] at hread
    refine ⟨_, ?_, (quiet_address hq a (answered_cons hbefore)).trans hread⟩
    exact carry_regs_of_offsets_nil (tr := .read 1) rfl buf _ _ _

/-- An update that fails at its write leaves the old byte, or the whole new one if both bytes of the write arrived. -/
theorem run_update_write_fails (m v : Byte) (hq : s.quiet) (ha : a.toNat ≤ 0x0F)
    (hold : s.per.regs.byte? a.toNat = some old) (hbefore : s.answered [1, 1]) (hc : (s.upcoming 2).count = some c)
    (hne : c ≠ 2) :
    ∃ p : Peripheral, p.regs = (if 2 ≤ (s.upcoming 2).reached then s.per.regs.write a.toNat (updated old m v)
        else s.per.regs) ∧
      run fin (update a m v) buf after false s = raise .transportFailure (s.moved 3
        [.write 0x68 [a] true, .read 0x68 1, .write 0x68 [a, updated old m v] false] p) := by
  have hread := quiet_read_one (fin := fin) (rest := [.storeUpdated a m v]) (buf := buf) (after := (s.upcoming 0).after)
    (s := s.moved 1 [.write 0x68 [a] true] ⟨s.per.regs, a⟩) hq hold
    (by rw [moved_upcoming]; exact answered_get hbefore rfl)
  have hwrite := quiet_failed (fin := fin) (rest := []) (buf := [old]) (after := (s.upcoming 1).after)
    (tr := .storeUpdated a m v) (s := s.moved 2 [.write 0x68 [a] true, .read 0x68 1]
      ⟨s.per.regs, nextPtr (s.upcoming 1).ptrPast a⟩) hq (by rwa [moved_upcoming]) hne
  rw [moved_moved, moved_upcoming] at hread hwrite
  refine ⟨_, ?_, (quiet_address hq a (answered_cons hbefore)).trans (hread.trans hwrite)⟩
  exact carry_store_one_regs a (updated old m v) [old] (s.upcoming 2) _ ha

end

/-- Settles O41: the read changes no register, and its byte is the one the write puts back or replaces. -/
theorem failedUpdateLeavesOldOrNew : Obligations.FailedUpdateLeavesOldOrNew := by
  intro i s a m v old h hq ha hold
  refine ⟨fun k c hk hbefore hc hne => ?_, fun c hbefore hc hne => ?_⟩
  · obtain ⟨p, hregs, hrun⟩ := run_memRead_one_fails (fin := .nothing) (rest := [.storeUpdated a m v]) (buf := [])
      (after := []) (s := begin s) (a := a) hq hk hbefore hc hne
    exact ⟨_, (exec_of_updateArgs h ha s).trans (congrArg Host.Outcome.next hrun), rfl, hregs, rfl⟩
  · obtain ⟨p, hregs, hrun⟩ := run_update_write_fails (fin := .nothing) (buf := []) (after := []) (s := begin s) m v hq
      ha hold hbefore hc hne
    exact ⟨_, (exec_of_updateArgs h ha s).trans (congrArg Host.Outcome.next hrun), rfl, hregs⟩

end Sys2Proof.Machine

/-! PROOFS. `SET_ALARM1` and `SET_ALARM2` (spec/43_alarm_packer.md): one block write and one update of the control byte (R150,
R151), and what a failure at each transfer leaves (R152). -/

namespace Sys2Proof.Machine

open Sys2Proof

/-! ## A command that is one block write and one update of the control byte (R150, R151) -/

/-- The command writes the block `buf` at `base` and then sets the control bits `v`. -/
def SetsAlarm (i : Instr) (base : Byte) (buf : List Byte) (v : Byte) : Prop :=
  (∃ m sec mi h d, i = .setAlarm1 m sec mi h d ∧ base = 0x07 ∧ buf = packAlarm1 m sec mi h d ∧ v = 0x05) ∨
    (∃ m mi h d, i = .setAlarm2 m mi h d ∧ base = 0x0B ∧ buf = packAlarm2 m mi h d ∧ v = 0x06)

section
variable {i : Instr} {base v : Byte} {buf : List Byte} {s : State} {old : Byte}

theorem SetsAlarm.exec_eq (h : SetsAlarm i base buf v) (s : State) :
    exec i s = .next (start (.store base buf :: update 0x0E 0x00 v) .nothing s) := by
  obtain ⟨m, sec, mi, h, d, rfl, rfl, rfl, rfl⟩ | ⟨m, mi, h, d, rfl, rfl, rfl, rfl⟩ := h
  · exact exec_start s rfl (List.cons_ne_nil _ _)
  · exact exec_start s rfl (List.cons_ne_nil _ _)

/-- Both alarm blocks end before the control byte. -/
theorem SetsAlarm.fits (h : SetsAlarm i base buf v) : base.toNat + buf.length ≤ 14 := by
  obtain ⟨m, sec, mi, h, d, rfl, rfl, rfl, rfl⟩ | ⟨m, mi, h, d, rfl, rfl, rfl, rfl⟩ := h
  · exact Nat.le_of_lt (by decide : 11 < 14)
  · exact le_rfl

/-- An update that clears nothing sets bits. -/
theorem updated_clearNothing (old v : Byte) : updated old 0x00 v = old ||| v := updated_keep old v

/-- The block write leaves the control byte alone. -/
theorem SetsAlarm.byte?_ctrl (h : SetsAlarm i base buf v) (m : Memory) :
    (m.writeBlock base.toNat buf).byte? 0x0E = m.byte? 0x0E :=
  byte?_writeBlock_outside m base.toNat buf (.inr h.fits)

/-- The state once the block has been written, in the quiet setting. -/
def State.blockWritten (s : State) (base : Byte) (buf : List Byte) : State :=
  (begin s).moved 1 [.write 0x68 (base :: buf) false]
    ⟨s.per.regs.writeBlock base.toNat buf, base + BitVec.ofNat 8 buf.length⟩

theorem blockWritten_upcoming (base : Byte) (buf : List Byte) (k : Nat) :
    (s.blockWritten base buf).upcoming k = s.upcoming (1 + k) := by
  rw [State.blockWritten, moved_upcoming, begin_upcoming]

/-- In the quiet setting, an answered block write is followed by the update of the control byte. -/
theorem SetsAlarm.exec_quiet (h : SetsAlarm i base buf v) (hq : s.quiet)
    (hc : (s.upcoming 0).count = some ((buf.length + 1 : Nat) : Int)) :
    exec i s = .next (run .nothing (update 0x0E 0x00 v) [] (s.upcoming 0).after false (s.blockWritten base buf)) := by
  have hfits := h.fits
  rw [h.exec_eq, start, quiet_store (s := begin s) hq base buf hc, acceptWrite_block _ _ _ _ (by omega)]
  rfl

/-- After one draw the next ones are answered with the counts that are left. -/
theorem answered_moved {n : Nat} {ns : List Nat} (hc : s.answered (n :: ns)) (calls : List BusCall) (p : Peripheral) :
    (s.moved 1 calls p).answered ns := by
  intro k hk
  rw [moved_upcoming, Nat.add_comm]
  exact hc (k + 1) (Nat.succ_lt_succ hk)

theorem answered_blockWritten {n : Nat} {ns : List Nat} (hc : s.answered (n :: ns)) (base : Byte) (buf : List Byte) :
    (s.blockWritten base buf).answered ns :=
  answered_moved (s := begin s) hc [.write 0x68 (base :: buf) false]
    ⟨s.per.regs.writeBlock base.toNat buf, base + BitVec.ofNat 8 buf.length⟩

/-- In the quiet setting with answered transfers the command fills its block and sets its control bits. -/
theorem SetsAlarm.exec_answered (h : SetsAlarm i base buf v) (hq : s.quiet) (hc : s.answered [buf.length + 1, 1, 1, 2])
    (hold : s.per.regs.byte? 0x0E = some old) :
    exec i s = .next (s.finished 4
      [.write 0x68 (base :: buf) false, .write 0x68 [0x0E] true, .read 0x68 1, .write 0x68 [0x0E, old ||| v] false]
      (.ok Slots.zero) ⟨(s.per.regs.writeBlock base.toNat buf).write 0x0E (old ||| v), 0x0F⟩) := by
  have hc' := answered_blockWritten hc base buf
  have hupdate := quiet_update (fin := .nothing) (buf := []) (after := (s.upcoming 0).after)
    (s := s.blockWritten base buf) hq 0x0E 0x00 v ((h.byte?_ctrl _).trans hold) (answered_cons hc')
    (answered_get hc' rfl) (answered_get hc' rfl)
  rw [State.blockWritten, moved_moved, updated_clearNothing] at hupdate
  rw [h.exec_quiet hq (answered_cons hc)]
  exact congrArg Host.Outcome.next hupdate

end

/-- Settles O34: the block is packed with the mode's masks, and the update sets bits 0 and 2. -/
theorem setAlarm1WritesTheBlockAndEnables : Obligations.SetAlarm1WritesTheBlockAndEnables := by
  intro s m sec mi h d old hq hwf hc hold
  rw [← packAlarm1_eq_sel]
  exact SetsAlarm.exec_answered (.inl ⟨m, sec, mi, h, d, rfl, rfl, rfl, rfl⟩) hq hc hold

/-- Settles O35: as for channel 1, with a block of three bytes and bits 1 and 2. -/
theorem setAlarm2WritesTheBlockAndEnables : Obligations.SetAlarm2WritesTheBlockAndEnables := by
  intro s m mi h d old hq hwf hc hold
  rw [← packAlarm2_eq_sel]
  exact SetsAlarm.exec_answered (.inr ⟨m, mi, h, d, rfl, rfl, rfl, rfl⟩) hq hc hold

/-! ## What a failure leaves (R152) -/

section
variable {i : Instr} {base v : Byte} {buf : List Byte} {s : State} {old : Byte} {c : Int}

theorem SetsAlarm.block_fails (h : SetsAlarm i base buf v) (hq : s.quiet) (hwf : s.per.regs.wf)
    (hc : (s.upcoming 0).count = some c) (hne : c ≠ (buf.length + 1 : Nat)) :
    ∃ t, exec i s = .next t ∧ t.response = some (.raised .transportFailure) ∧ t.bus.length = 1 ∧
      ∀ x, t.per.regs.byte? x =
        if base.toNat ≤ x ∧ x - base.toNat + 1 < min (s.upcoming 0).reached (buf.length + 1) then buf[x - base.toNat]?
        else s.per.regs.byte? x :=
  ⟨_, h.exec_eq s, start_store_failed hq hwf (h.fits.trans (by decide)) hc hne⟩

theorem SetsAlarm.read_fails (h : SetsAlarm i base buf v) (hq : s.quiet) (hold : s.per.regs.byte? 0x0E = some old) {k : Nat}
    (hk : k = 1 ∨ k = 2) (hbefore : s.answered ([buf.length + 1, 1].take k)) (hc : (s.upcoming k).count = some c)
    (hne : c ≠ 1) :
    ∃ t, exec i s = .next t ∧ t.response = some (.raised .transportFailure) ∧ t.bus.length = k + 1 ∧
      t.per.regs = s.per.regs.writeBlock base.toNat buf ∧ t.per.regs.byte? 0x0E = some old := by
  obtain ⟨j, rfl⟩ : ∃ j, k = j + 1 := ⟨k - 1, by omega⟩
  have hj : j = 0 ∨ j = 1 := by omega
  rw [List.take_succ_cons] at hbefore
  obtain ⟨p, hregs, hrun⟩ := run_memRead_one_fails (fin := .nothing) (rest := [.storeUpdated 0x0E 0x00 v]) (buf := [])
    (after := (s.upcoming 0).after) (a := 0x0E) (s := s.blockWritten base buf) hq hj (answered_blockWritten hbefore base buf)
    (by rwa [blockWritten_upcoming, Nat.add_comm]) hne
  have hctrl : p.regs.byte? 0x0E = some old := by rw [hregs]; exact (h.byte?_ctrl _).trans hold
  refine ⟨_, (h.exec_quiet hq (answered_cons hbefore)).trans (congrArg Host.Outcome.next hrun), rfl, ?_, hregs, hctrl⟩
  obtain rfl | rfl := hj <;> rfl

theorem SetsAlarm.write_fails (h : SetsAlarm i base buf v) (hq : s.quiet) (hold : s.per.regs.byte? 0x0E = some old)
    (hbefore : s.answered [buf.length + 1, 1, 1]) (hc : (s.upcoming 3).count = some c) (hne : c ≠ 2) :
    ∃ t, exec i s = .next t ∧ t.response = some (.raised .transportFailure) ∧ t.bus.length = 4 ∧
      t.per.regs = if 2 ≤ (s.upcoming 3).reached then (s.per.regs.writeBlock base.toNat buf).write 0x0E (old ||| v)
        else s.per.regs.writeBlock base.toNat buf := by
  obtain ⟨p, hregs, hrun⟩ := run_update_write_fails (fin := .nothing) (buf := []) (after := (s.upcoming 0).after)
    (s := s.blockWritten base buf) 0x00 v hq (a := 0x0E) (by decide) ((h.byte?_ctrl _).trans hold)
    (answered_blockWritten hbefore base buf) (by rwa [blockWritten_upcoming]) hne
  rw [blockWritten_upcoming, updated_clearNothing] at hregs
  exact ⟨_, (h.exec_quiet hq (answered_cons hbefore)).trans (congrArg Host.Outcome.next hrun), rfl, rfl, hregs⟩

end

/-- Bits that are set already are not changed by setting them again. -/
theorem or_again {b old v : Byte} (h : b = old ∨ b = old ||| v) : b ||| v = old ||| v := by
  obtain rfl | rfl := h
  · rfl
  · rw [BitVec.or_assoc, BitVec.or_self]

/-- The control update alone finishes the work, whether or not the failed write had reached the register. -/
theorem exec_updReg_finishes {t : State} {b old v : Byte} (hq : t.quiet) (hb : t.per.regs.byte? 0x0E = some b)
    (hold : b = old ∨ b = old ||| v) (hc : t.answered [1, 1, 2]) :
    ∃ u, exec (.updReg 0x0E 0x00 v) t = .next u ∧ u.response = some (.ok Slots.zero) ∧
      u.per.regs = t.per.regs.write 0x0E (old ||| v) := by
  have hexec := exec_update_quiet (i := .updReg 0x0E 0x00 v) rfl hq (by decide) hc hb
  rw [updated_clearNothing, or_again hold] at hexec
  exact ⟨_, hexec, rfl, rfl⟩

/-- Settles O36: a failed block write leaves the part of the block that arrived, a failed read of the control byte the whole
block, and a failed write of the control byte the old byte or the new one. -/
theorem failedSetAlarmLeavesWhatWasDone : Obligations.FailedSetAlarmLeavesWhatWasDone := by
  intro i base buf v s old hi hq hwf hold
  obtain ⟨base, rfl, h⟩ : ∃ b : Byte, base = b.toNat ∧ SetsAlarm i b buf v := by
    obtain ⟨m, sec, mi, h, d, rfl, rfl, hbuf⟩ | ⟨m, mi, h, d, rfl, rfl, hbuf⟩ := hi
    · exact ⟨0x07, rfl, .inl ⟨m, sec, mi, h, d, rfl, rfl, hbuf⟩⟩
    · exact ⟨0x0B, rfl, .inr ⟨m, mi, h, d, rfl, rfl, hbuf⟩⟩
  exact ⟨fun c hc hne => h.block_fails hq hwf hc (by exact_mod_cast hne),
    fun k c hk hbefore hc hne => h.read_fails hq hold hk hbefore hc hne,
    fun c hbefore hc hne => h.write_fails hq hold hbefore hc hne,
    fun t regs b htq hregs hb hbold hc => hregs ▸ exec_updReg_finishes htq (hregs ▸ hb) hbold hc⟩

end Sys2Proof.Machine

/-! PROOFS. Commands among other masters and a live peripheral (spec/20_memory.md R59, R63): what a `MemRead` meets, and the
status byte's and control byte's commands (spec/44_control_status.md R162, R164, R167; spec/70_reset_and_hazards.md R207). -/

namespace Sys2Proof.Machine

open Sys2Proof

/-! ## What a `MemRead` meets (R59, R63) -/

/-- The map a read meets after some transfers is the one that the draws and the peripheral after them make. -/
theorem mapAtRead_moved (s : State) (n : Nat) (calls : List BusCall) (per : Peripheral) (k : Nat) (p : Peripheral) :
    (s.moved n calls per).mapAtRead k p = s.mapAtRead (n + k) p := by
  rw [State.mapAtRead, moved_upcoming, moved_upcoming]
  rfl

theorem carry_store_whole (a : Byte) (v buf : List Byte) (d : Draw) (p : Peripheral) :
    carry (.store a v) buf d (Transfer.store a v).size p = (buf, acceptWrite d.ptrPast (a :: v) p) := by
  simp [carry, Transfer.size, Transfer.bytes]

/-- In any setting the update after a block write works on the control byte that its read meets. -/
theorem SetsAlarm.exec_answered_any {i : Instr} {base v old : Byte} {buf : List Byte} {s : State}
    (h : SetsAlarm i base buf v) (hc : s.answered [buf.length + 1, 1, 1, 2])
    (hold : (s.mapAtRead 1 (acceptWrite (s.upcoming 0).ptrPast (base :: buf)
      (disturb s.env s.otherMasters (s.upcoming 0).before s.per))).byte? 0x0E = some old) :
    ∃ t, exec i s = .next t ∧ t.response = some (.ok Slots.zero) ∧
      t.bus = [.write 0x68 (base :: buf) false, .write 0x68 [0x0E] true, .read 0x68 1,
        .write 0x68 [0x0E, old ||| v] false] := by
  have hstore : ((begin s).upcoming 0).count = some ((Transfer.store base buf).size : Int) := answered_cons hc
  refine ⟨_, h.exec_eq s, ?_⟩
  rw [start, moved_answered hstore, carry_store_whole, beforeTransfer_opens rfl, ← updated_clearNothing,
    run_update_answered (old := old)]
  · exact ⟨rfl, rfl⟩
  · exact answered_moved (s := begin s) hc [.write 0x68 (base :: buf) false] _
  · rw [mapAtRead_moved]
    exact hold

theorem exec_checkFlag_answered {s : State} {b : Byte} (c : Channel) (hc : s.answered [1, 1])
    (hb : (s.mapAtRead 0 s.per).byte? 0x0F = some b) :
    ∃ t, exec (.checkFlag c) s = .next t ∧ t.response = some (.ok (oneResult (flagBit c b))) :=
  exec_memRead_one_answered (i := .checkFlag c) (a := 0x0F) rfl rfl hc hb

/-- Settles O43: each command's read meets the map at its data phase, and the rest of the command works on that. -/
theorem noMasterActsInsideARead : Obligations.NoMasterActsInsideARead := by
  refine ⟨fun s a b => exec_rdReg_answered, fun s c b hc hb => ?_, fun s b0 b1 b2 b3 b4 b5 b6 hc hb => ?_,
    fun i s a m v old h ha hc hold => ⟨_, exec_update_answered h ha hc hold, rfl, rfl⟩,
    fun i base buf s v old h hc hold => SetsAlarm.exec_answered_any h hc hold⟩
  · obtain ⟨t, hexec, hresponse⟩ := exec_checkFlag_answered c hc hb
    exact ⟨t, hexec, flagBit_eq_ite c b ▸ hresponse⟩
  · obtain ⟨t, hexec, hresponse⟩ := exec_readTime_answered (p := ⟨b0, b1, b2, b3, b4, b5, b6⟩) hc hb
    rw [decLanes_eq] at hresponse
    exact ⟨t, hexec, hresponse⟩

/-! ## The status byte's two commands (R162, R164) -/

/-- An update that sets nothing clears bits. -/
theorem updated_setNothing (old m : Byte) : updated old m 0x00 = old &&& ~~~m := BitVec.or_zero

/-- Settles O45: the update's one cleared bit is the channel's flag. -/
theorem clearFlagClearsOneFlag : Obligations.ClearFlagClearsOneFlag := by
  intro s c old hq hc hold new
  have hexec := exec_update_quiet (i := .clearFlag c) rfl hq (by decide) hc hold
  rwa [updated_setNothing] at hexec

/-- `EN_32K` is an update that keeps the two flags (R164). -/
theorem updateArgs_en32k (on : Bool) (old : Byte) :
    ∃ m v, (Instr.en32k on).updateArgs = some (0x0F, m, v) ∧
      updated old m v = (if on then old ||| 0x08 else old &&& 0xF7) ∧
      statA1F (updated old m v) = statA1F old ∧ statA2F (updated old m v) = statA2F old := by
  cases on with
  | true => exact ⟨0x00, 0x08, rfl, updated_clearNothing old 0x08, getLsbD_updated_kept old (by decide) rfl rfl,
      getLsbD_updated_kept old (by decide) rfl rfl⟩
  | false => exact ⟨0x08, 0x00, rfl, updated_setNothing old 0x08, getLsbD_updated_kept old (by decide) rfl rfl,
      getLsbD_updated_kept old (by decide) rfl rfl⟩

/-- Settles O47: the update sets or clears bit 3 alone. -/
theorem en32kWritesStatusBit3 : Obligations.En32kWritesStatusBit3 := by
  intro s on old hq hc hold new
  obtain ⟨m, v, hargs, hnew, -, -⟩ := updateArgs_en32k on old
  have hexec := exec_update_quiet hargs hq (by decide) hc hold
  rwa [hnew] at hexec

/-! ## The lost flag (R207) -/

/-- Under a live peripheral an update of the status byte that reads before a step and writes after it overwrites what the
step has set. -/
theorem exec_update_over_envStep {i : Instr} {s : State} {m v old : Byte} {e : EnvStep}
    (h : i.updateArgs = some (0x0F, m, v)) (henv : s.env = .live) (hothers : s.otherMasters = false)
    (hc : s.answered [1, 1, 2]) (h₀ : (s.upcoming 0).before = []) (h₁ : (s.upcoming 1).before = [])
    (h₂ : (s.upcoming 2).before = [.peripheral e]) (hafter : (s.upcoming 2).after = [])
    (hold : s.per.regs.byte? 0x0F = some old) :
    ∃ t, exec i s = .next t ∧ t.response = some (.ok Slots.zero) ∧
      t.per.regs.byte? 0x0F = some (updated old m v) := by
  have hmap := mapAtRead_undisturbed h₀ h₁ s.per
  refine ⟨_, exec_update_answered h (by decide) hc (hmap ▸ hold), rfl, byte?_afterUpdate (a := 0x0F) hafter ?_ _⟩
  rw [h₂, henv, hothers, hmap]
  exact (congrArg Option.isSome ((byte?_envStep_stat e ⟨s.per.regs, _⟩).trans (congrArg _ hold)))

/-- A channel's bit is not the other channel's (R81). -/
theorem getLsbD_channel_other {c o : Channel} (h : o ≠ c) : (1#8 <<< c.sel.toNat).getLsbD o.sel.toNat = false := by
  cases c with
  | first =>
    cases o with
    | first => exact absurd rfl h
    | second => rfl
  | second =>
    cases o with
    | first => rfl
    | second => exact absurd rfl h

/-- Settles O51: the byte written back is made of the byte read before the step. -/
theorem clearFlagCanLoseTheOtherFlag : Obligations.ClearFlagCanLoseTheOtherFlag := by
  intro s old first second henv hothers hc h₀ h₁ h₂ hafter hold
  refine ⟨⟨_, (byte?_envStep_stat _ s.per).trans (congrArg _ hold), rfl⟩, fun c => ?_, fun on => ?_⟩
  · obtain ⟨t, hexec, hresponse, hnew⟩ := exec_update_over_envStep (i := .clearFlag c) rfl henv hothers hc h₀ h₁ h₂ hafter
      hold
    exact ⟨t, _, hexec, hresponse, hnew, updated_setNothing _ _,
      fun o ho => getLsbD_updated_kept old o.sel.isLt (getLsbD_channel_other ho) BitVec.getLsbD_zero⟩
  · obtain ⟨m, v, hargs, hupdated, hA1F, hA2F⟩ := updateArgs_en32k on old
    obtain ⟨t, hexec, hresponse, hnew⟩ := exec_update_over_envStep hargs henv hothers hc h₀ h₁ h₂ hafter hold
    exact ⟨t, _, hexec, hresponse, hnew, hupdated, hA1F, hA2F⟩

/-! ## Which commands write `INTCN` (R167) -/

/-- A command that answers `OK` has had every transfer answered as requested. -/
theorem answered_of_ok {i : Instr} {s t : State} {r : Slots} (h : exec i s = .next t) (hr : t.response = some (.ok r)) :
    s.answered i.requested := by
  obtain ⟨-, ha⟩ | ⟨hraised, -⟩ | ⟨hnone, -⟩ := exec_outcomes h
  · exact ha
  · cases hr.symm.trans hraised
  · cases hr.symm.trans hnone

theorem requested_of_updateArgs {i : Instr} {a m v : Byte} (h : i.updateArgs = some (a, m, v)) :
    i.requested = [1, 1, 2] := by
  rw [← transfers_sizes, (transfersOf_of_updateArgs h).1]
  rfl

section
variable {i : Instr} {s t : State} {r : Slots} {old new : Byte}

/-- The byte a finished command has written to the control register. -/
theorem new_of_write {b : Byte} {m : Memory} (hm : m.byte? 0x0E = some old) (hnew : (m.write 0x0E b).byte? 0x0E = some new) :
    new = b := by
  rw [byte?_write, if_pos rfl, hm] at hnew
  exact (Option.some.inj hnew).symm

theorem ctrl_of_update {m v : Byte} (hargs : i.updateArgs = some (0x0E, m, v)) (hq : s.quiet) (h : exec i s = .next t)
    (hr : t.response = some (.ok r)) (hold : s.per.regs.byte? 0x0E = some old)
    (hnew : t.per.regs.byte? 0x0E = some new) : new = updated old m v := by
  have hc := requested_of_updateArgs hargs ▸ answered_of_ok h hr
  obtain rfl := Host.Outcome.next.inj ((exec_update_quiet hargs hq (by decide) hc hold).symm.trans h)
  exact new_of_write hold hnew

theorem ctrl_of_setsAlarm {base v : Byte} {buf : List Byte} (ha : SetsAlarm i base buf v)
    (hrequested : i.requested = [buf.length + 1, 1, 1, 2]) (hq : s.quiet) (h : exec i s = .next t)
    (hr : t.response = some (.ok r)) (hold : s.per.regs.byte? 0x0E = some old)
    (hnew : t.per.regs.byte? 0x0E = some new) : new = old ||| v := by
  have hc := hrequested ▸ answered_of_ok h hr
  obtain rfl := Host.Outcome.next.inj ((ha.exec_answered hq hc hold).symm.trans h)
  exact new_of_write ((ha.byte?_ctrl _).trans hold) hnew

theorem ctrl_of_wrReg {v : Byte} (hq : s.quiet) (h : exec (.wrReg 0x0E v) s = .next t) (hr : t.response = some (.ok r))
    (hold : s.per.regs.byte? 0x0E = some old) (hnew : t.per.regs.byte? 0x0E = some new) : new = v := by
  have hstart := quiet_start_memWrite (fin := .nothing) hq 0x0E [v] (answered_cons (answered_of_ok h hr))
  obtain rfl := Host.Outcome.next.inj ((exec_wrReg (by decide) v s).symm.trans h)
  rw [hstart] at hnew
  exact new_of_write hold hnew

end

/-- Settles O50: the control byte after a command is its update's, its written byte, or the old one. -/
theorem pinModeLastWriterWins : Obligations.PinModeLastWriterWins := by
  intro i s t r old new hq h hr hold hnew
  refine ⟨?_, ?_, ?_, ?_, ?_⟩
  · have hset : ∀ v : Byte, v.getLsbD 2 = true → ctrlIntcn (old ||| v) = true := fun v hv => by
      rw [ctrlIntcn, BitVec.getLsbD_or, hv, Bool.or_true]
    rintro (rfl | ⟨m, sec, mi, hh, d, rfl⟩ | ⟨m, mi, hh, d, rfl⟩)
    · rw [ctrl_of_update rfl hq h hr hold hnew, updated_clearNothing]
      exact hset _ rfl
    · rw [ctrl_of_setsAlarm (.inl ⟨m, sec, mi, hh, d, rfl, rfl, rfl, rfl⟩) rfl hq h hr hold hnew]
      exact hset _ rfl
    · rw [ctrl_of_setsAlarm (.inr ⟨m, mi, hh, d, rfl, rfl, rfl, rfl⟩) rfl hq h hr hold hnew]
      exact hset _ rfl
  · rintro ⟨f, rfl⟩
    rw [ctrl_of_update rfl hq h hr hold hnew]
    exact getLsbD_updated_cleared old (by decide) rfl (by cases f <;> rfl)
  · rintro v rfl
    rw [ctrl_of_wrReg hq h hr hold hnew]
  · rintro m v rfl
    rw [ctrl_of_update rfl hq h hr hold hnew]
    exact getLsbD_updated old m v (by decide)
  · rintro (hx | ⟨c, rfl⟩)
    · obtain rfl : old = new := Option.some.inj (hold.symm.trans ((exec_byte?_quiet hq h hx).symm.trans hnew))
      rfl
    · rw [ctrl_of_update rfl hq h hr hold hnew]
      exact getLsbD_updated_kept old (by decide) (by cases c <;> rfl) rfl

end Sys2Proof.Machine
